-- ==== Sys2Proof/Word.lean ====
section
/-! DEFINITION. The bit-vector types of the block, with the widths of rule R7 (00_scope.md). The block's arithmetic is
unsigned throughout (rule R10), so these are plain bit vectors. -/

namespace Sys2Proof

/-- A register, a host data word or a command word: REG_BITS = 32 bits (R7). -/
abbrev Word := BitVec 32

/-- The memory cell of the model: 8 bits (see the log entry 3 on why bytes). -/
abbrev Byte := BitVec 8

/-- A symbol: SYM_BITS = 8 bits (R7, R9). -/
abbrev Symbol := BitVec 8

/-- A node weight inside BUILD: W_BITS = 40 bits (R7, R98). -/
abbrev Weight := BitVec 40

/-- An arena index or a node count: IDX_BITS = 9 bits (R7). -/
abbrev NodeIdx := BitVec 9

/-- A host byte offset into the block: OFF_BITS = 22 bits (R7, R60). -/
abbrev Offset := BitVec 22

end Sys2Proof
end

