-- ==== Sys2Proof/Config.lean ====
section
/-! DEFINITION. The fixed parameters of rule R7, the bounds and default values of the open parameters of rule R8
(00_scope.md), the two identity constants, and the free values. A free value is opaque and has no body: no proof can
learn what it is, so a statement that mentions one holds whatever the hardware draws (rule R12, `unspecified(X)`). -/

namespace Sys2Proof.Config

/-- NSYM = 256, the number of symbols (R7). -/
def nsym : Nat := 256

/-- MAX_NODES = 511, the size of the node arena (R7). -/
def maxNodes : Nat := 511

/-- TREE_BITS_MAX = 511 (R7). -/
def treeBitsMax : Nat := 511

/-- TREE_LEAVES_MAX = 256 (R7). -/
def treeLeavesMax : Nat := 256

/-- MAX_CODE_LEN = 255, the longest bit path (R7). -/
def maxCodeLen : Nat := 255

/-- The default of the open parameter MAX_TEXT (R8, "spec's choice"). -/
def defaultMaxText : Word := 65536

/-- The default of the open parameter MAX_MSG_BITS (R8, "spec's choice"). -/
def defaultMaxMsgBits : Word := 1048576

/-- The bounds an instance's MAX_TEXT satisfies (R8). -/
abbrev textCapOk (n : Nat) : Prop := 1 ≤ n ∧ n ≤ 262144

/-- The bounds an instance's MAX_MSG_BITS satisfies (R8). -/
abbrev msgCapOk (n : Nat) : Prop := 32 ≤ n ∧ n ≤ 8388608 ∧ n % 32 = 0

/-- The constant ID register (R23). -/
def idConst : Word := 0x48554646

/-- The constant VERSION register: MAJOR = 1, MINOR = 0 (R24). -/
def versionConst : Word := 0x00010000

/-- FREE VALUE (log entry 4). What a byte of a local memory holds that nothing has written since the region last
became unspecified: the argument `n` is the number of that draw, `a` the byte's address. Nothing constrains it (R12, R45,
S1 to S5). -/
opaque freeByte (n a : Nat) : Byte

/-- FREE VALUE (log entry 7). What the n-th draw of a window read returns that the running command's output region
does not fix (R68, S6: "each read an independent draw"). -/
opaque freeWord (n : Nat) : Word

end Sys2Proof.Config
end

