-- ==== Sys2Proof/Syntax.lean ====
section
/-! DEFINITION. The block's instructions: the seven commands of the opcode map (rule R81, 30_encoding.md). No command
carries an operand (rule R82), so no constructor has an argument. -/

namespace Sys2Proof

/-- A command of the block, one constructor per row of spec/opcode_table.json (R81). -/
inductive Instr where
  /-- COUNT (0x01): count symbol occurrences (R95). -/
  | count
  /-- BUILD (0x02): build the code tree from FREQ (R101). -/
  | build
  /-- TENC (0x03): flatten the current tree (R110). -/
  | tenc
  /-- TDEC (0x04): rebuild the tree from TREE_BITS and TREE_LEAVES (R117). -/
  | tdec
  /-- PATHS (0x05): build the path table from the current tree (R123). -/
  | paths
  /-- SENC (0x06): encode TEXT_IN into MSG_BITS (R125). -/
  | senc
  /-- SDEC (0x07): decode MSG_BITS into TEXT_OUT (R132). -/
  | sdec
  deriving DecidableEq, Repr

end Sys2Proof
end

