-- ==== Sys2Proof/HostSyntax.lean ====
section
/-! DEFINITION. The operations of the other agent, the host: the two primitive accesses of rule R86 (30_encoding.md)
and the three operations whose control flow depends on what a read returned (the loop of WAIT, the stop of RUN!, the
count of GETTEXT). Every other pseudo-operation is a list of these (Machine/HostProgram.lean). -/

namespace Sys2Proof

/-- One operation of a host program (R86, R88, R89, R91). -/
inductive HostOp where
  /-- `WR off, v`: one MemWrite (R61). -/
  | wr (off : Offset) (v : Word)
  /-- `RD off`: one MemRead (R60), its result appended to what the host has read. -/
  | rd (off : Offset)
  /-- `WAIT`: read STATUS until BUSY = 0 (R88); one read per step, the operation stays while BUSY = 1. -/
  | waitIdle
  /-- The last part of `RUN!`: read ERR_CODE and end the host program at once when it is not 0 (R89). -/
  | checkErr
  /-- `GETTEXT`: read OUT_LEN, then that many symbols of TEXT_OUT (R91). -/
  | getText
  deriving DecidableEq, Repr

end Sys2Proof
end

