-- ==== Sys2Proof/WellFormed.lean ====
section
/-! DEFINITION. Which terms of the syntax the spec admits. A command carries no operand (rule R82), so every command is
well formed and there is no check to fail. A host access must carry an offset whose two low bits are 0 (rules R60, R69);
`off < 2^22` is the width of `Offset`. -/

namespace Sys2Proof

/-- Every command is well formed: it has no operand (R82). -/
def Instr.wellFormed : Instr → Bool
  | .count => true
  | .build => true
  | .tenc => true
  | .tdec => true
  | .paths => true
  | .senc => true
  | .sdec => true

/-- A byte offset names a whole word: `off[1:0] = 0` (R60, R69). -/
def Offset.aligned (off : Offset) : Bool := off.toNat % 4 == 0

/-- A host operation is well formed when the offset it carries is aligned (R60, R61, R69). -/
def HostOp.wellFormed : HostOp → Bool
  | .wr off _ => Offset.aligned off
  | .rd off => Offset.aligned off
  | .waitIdle => true
  | .checkErr => true
  | .getText => true

end Sys2Proof
end

