-- ==== Sys2Proof/Decode.lean ====
section
/-! DEFINITION. The decoder of a command word, total on every 32-bit word (rule R85, 30_encoding.md), and the encoder
(rule R81). A word that selects no command is illegal, under one of the three names rule R83 lists. -/

namespace Sys2Proof

/-- The three kinds of illegal word (R83). -/
inductive IllegalWord where
  /-- RSV ≠ 0, whatever OP holds. -/
  | reservedNonzero
  /-- OP = 0x00. -/
  | opZero
  /-- OP from 0x08 to 0xFF. -/
  | opUnassigned
  deriving DecidableEq, Repr

/-- What a command word decodes to: `Command | Illegal` (R85). -/
inductive Decoded where
  | command (i : Instr)
  | illegal (why : IllegalWord)
  deriving DecidableEq, Repr

/-- The field RSV of a command word, bits 31:8 (R80). -/
def fieldRSV (w : Word) : BitVec 24 := w.extractLsb' 8 24

/-- The field OP of a command word, bits 7:0 (R80). -/
def fieldOP (w : Word) : BitVec 8 := w.extractLsb' 0 8

/-- The opcode map, by OP (R81). -/
def decodeOP (op : Nat) : Decoded :=
  match op with
  | 0x00 => .illegal .opZero
  | 0x01 => .command .count
  | 0x02 => .command .build
  | 0x03 => .command .tenc
  | 0x04 => .command .tdec
  | 0x05 => .command .paths
  | 0x06 => .command .senc
  | 0x07 => .command .sdec
  | _ => .illegal .opUnassigned

/-- The decode function (R85). -/
def decode (w : Word) : Decoded :=
  if fieldRSV w = 0 then decodeOP (fieldOP w).toNat else .illegal .reservedNonzero

/-- The operation code of a command (R81). -/
def opcode : Instr → BitVec 8
  | .count => 0x01
  | .build => 0x02
  | .tenc => 0x03
  | .tdec => 0x04
  | .paths => 0x05
  | .senc => 0x06
  | .sdec => 0x07

/-- The one word of a command: RSV = 0, OP its operation code (R80, R81). -/
def encode (i : Instr) : Word := (opcode i).setWidth 32

/-- The 32-bit command word of a table row: the low `nbits` bits of `w`, every bit above them 0. -/
def tableWord (nbits w : Nat) : Word := BitVec.ofNat 32 (w % 2 ^ nbits)

/-- The instruction this decoder reads from a table row's word (none where it is illegal). -/
def decodeTableWord (nbits w : Nat) : Option Instr :=
  match decode (tableWord nbits w) with
  | .command i => some i
  | .illegal _ => none

end Sys2Proof
end

