-- ==== Sys2Proof/Machine/State.lean ====
section
/-! DEFINITION. The state of the block and of the host that drives it, as plain data: every register of rule R22, the
engine state of rule R21, the nine local memories of rules R34 to R42 (one canonical list of cells over the host's byte
offsets, rule R62), and the model's own bookkeeping (which draw a region's unwritten bytes come from, the host's
program, what it has read, and whose turn it is). Also the reasons a step can stop, the error codes, and the state
right after hardware reset (rule R45). -/

namespace Sys2Proof.Machine

/-- The engine state (R21): the only sequencing state of the block. -/
inductive Eng where
  /-- No command is accepted. -/
  | idle
  /-- The command word accepted and not yet completed. -/
  | busy (w : Word)
  deriving DecidableEq, Repr

/-- The thirteen error codes (R142). -/
inductive ErrCode where
  | invalidInput
  | treeBitsUnderrun
  | treeLeavesUnderrun
  | treeTrailing
  | duplicateSymbol
  | noTree
  | degenerateTree
  | unencodableSymbol
  | partialCode
  | msgOverflow
  | textOverflow
  | badLength
  | badCommand
  deriving DecidableEq, Repr

/-- What `raise Error(code, info)` carries (R12). -/
structure CmdError where
  code : ErrCode
  info : Word
  deriving DecidableEq, Repr

/-- The nine local memories (R34 to R42), each a window of the address map (R62). -/
inductive Region where
  | freq
  | node
  | treeBits
  | treeLeaves
  | codeLen
  | codeBits
  | textIn
  | textOut
  | msgBits
  deriving DecidableEq, Repr

/-- For each local memory, the number of the draw its unwritten bytes come from (log entry 6). -/
structure Epochs where
  freq : Nat
  node : Nat
  treeBits : Nat
  treeLeaves : Nat
  codeLen : Nat
  codeBits : Nat
  textIn : Nat
  textOut : Nat
  msgBits : Nat
  deriving DecidableEq, Repr

/-- Whose step comes next (R17, R139): the schedule is data, so that a statement over every state holds under every
interleaving (log entry 1). -/
inductive Turn where
  /-- The host performs its next operation. -/
  | host
  /-- The engine takes its completion step, if a command is accepted (R139). -/
  | engine
  /-- A rising edge of `clk` with `rst_n` = 0: hardware reset (R160). -/
  | resetPin
  deriving DecidableEq, Repr

/-- Why a step stops with a fault. The spec has no trap and no stuck state (R146, R139); this one is never raised in a
state that reset and steps reach. -/
inductive Fault where
  /-- Raised by TENC, PATHS and SENC in a state where TREE_VALID = 1 but the arena holds no tree from ROOT with at most
  MAX_NODES nodes and distinct leaves. Rule R37 excludes such a state. SAFE: the model stops where the rules give the
  traversal no result (log entry 10). -/
  | arenaNotTree
  deriving DecidableEq, Repr

/-- Why a step is refused. -/
inductive Refusal where
  /-- Raised by `exec` for an instruction that has no meaning yet; no arm answers it now. SAFE. -/
  | notModelled (mnemonic : String)
  /-- Raised by the host's WR and RD with `off[1:0] ≠ 0`, as rule R69 says a model must: a violation of the host
  contract that the physical port cannot express, not a fault of the block. SAFE (log entry 9). -/
  | misalignedAccess
  deriving DecidableEq, Repr

/-- The whole machine: block, local memories, host. -/
structure State where
  /-- The engine state (R21); STATUS.BUSY is `eng ≠ idle`. -/
  eng : Eng
  /-- CTRL bit 0, IE (R25). -/
  ie : Bool
  /-- STATUS bit 1, DONE (R26). -/
  done : Bool
  /-- STATUS bit 3, TREE_VALID (R26). -/
  treeValid : Bool
  /-- STATUS bit 4, PATHS_VALID (R26). -/
  pathsValid : Bool
  /-- STATUS bit 5, WBUSY (R26). -/
  wbusy : Bool
  /-- CMD: the last accepted word (R27). -/
  cmd : Word
  /-- ERR_CODE bits 7:0 (R28); STATUS.ERR is `errCode ≠ 0` (R26). -/
  errCode : BitVec 8
  /-- ERR_INFO (R29). -/
  errInfo : Word
  /-- TEXT_LEN (R30). -/
  textLen : Word
  /-- OUT_LEN (R30). -/
  outLen : Word
  /-- MSG_LEN (R30). -/
  msgLen : Word
  /-- TREE_BITS_LEN (R30). -/
  treeBitsLen : Word
  /-- TREE_LEAVES_LEN (R30). -/
  treeLeavesLen : Word
  /-- DISTINCT bits 8:0 (R31). -/
  distinct : BitVec 9
  /-- ROOT bits 8:0 (R31). -/
  root : NodeIdx
  /-- NODE_COUNT bits 8:0 (R31). -/
  nodeCount : NodeIdx
  /-- CAP_TEXT: the constant MAX_TEXT of this instance (R31, R8). -/
  capText : Word
  /-- CAP_MSG: the constant MAX_MSG_BITS of this instance (R31, R8). -/
  capMsg : Word
  /-- The local memories, over the host's byte offsets (R62): addresses rising, one cell per byte that holds a value
  some write gave it. A byte not listed holds a draw (`State.byteAt`). -/
  mem : List Host.Cell
  /-- The draw each region's unlisted bytes come from. Model's own. -/
  epochs : Epochs
  /-- The number of the next draw. Model's own. -/
  draws : Nat
  /-- The host's operations still to be performed, in program order (R71, R86). -/
  program : List HostOp
  /-- The values the host's completed reads returned, the latest first (R60, R86). -/
  reads : List Word
  /-- The schedule: whose turn it is, the next first; see `State.nextTurn` for its end. Model's own. -/
  turns : List Turn
  deriving DecidableEq, Repr

/-- Right after hardware reset (R45, R160): the engine idle, every register at its reset value, the constants at the
default parameters (R8), and every local memory unspecified: nothing listed, all bytes of draw 0. The host has no
program yet, has read nothing, and the schedule is empty. -/
def State.reset : State where
  eng := .idle
  ie := false
  done := false
  treeValid := false
  pathsValid := false
  wbusy := false
  cmd := 0
  errCode := 0
  errInfo := 0
  textLen := 0
  outLen := 0
  msgLen := 0
  treeBitsLen := 0
  treeLeavesLen := 0
  distinct := 0
  root := 0
  nodeCount := 0
  capText := Config.defaultMaxText
  capMsg := Config.defaultMaxMsgBits
  mem := []
  epochs := ⟨0, 0, 0, 0, 0, 0, 0, 0, 0⟩
  draws := 1
  program := []
  reads := []
  turns := []

end Sys2Proof.Machine
end

