-- ==== Sys2Proof/Machine/Ops.lean ====
section
/-! DEFINITION. The named operations over memory and registers: the address map (rule R62), memory over the host's byte
offsets, what `unspecified(X)` does to a region (rule R12), and the steps of a command's life that every command shares:
acceptance (R138), successful completion (R140), completion with an error (R141, the block's only exception entry; there
is no return from it, R147), and the two resets (R160, R161). -/

namespace Sys2Proof.Machine

/-! ### The address map (R62) -/

/-- Every local memory. -/
def Region.all : List Region :=
  [.freq, .node, .treeBits, .treeLeaves, .codeLen, .codeBits, .textIn, .textOut, .msgBits]

/-- The host offset of a window's first word (R62). -/
def Region.base : Region → Nat
  | .freq => 0x001000
  | .node => 0x002000
  | .treeBits => 0x003000
  | .treeLeaves => 0x003400
  | .codeLen => 0x004000
  | .codeBits => 0x008000
  | .textIn => 0x100000
  | .textOut => 0x200000
  | .msgBits => 0x300000

/-- How many bytes of host offsets a window spans, at capacities MAX_TEXT = `capText` and MAX_MSG_BITS = `capMsg`
(R62). -/
def Region.span (capText capMsg : Nat) : Region → Nat
  | .freq => 4 * 256
  | .node => 4 * 511
  | .treeBits => 4 * 16
  | .treeLeaves => 4 * 256
  | .codeLen => 4 * 256
  | .codeBits => 32 * 256
  | .textIn => 4 * capText
  | .textOut => 4 * capText
  | .msgBits => 4 * (capMsg / 32)

/-- The windows whose words hold a value in bits 7:0 only: the symbol buffers (R65) and CODE_LEN (R38). -/
def Region.byteWide : Region → Bool
  | .treeLeaves => true
  | .codeLen => true
  | .textIn => true
  | .textOut => true
  | .freq => false
  | .node => false
  | .treeBits => false
  | .codeBits => false
  | .msgBits => false

/-- The windows the host may write: access RW in R62. -/
def Region.hostWritable : Region → Bool
  | .freq => true
  | .treeBits => true
  | .treeLeaves => true
  | .textIn => true
  | .textOut => true
  | .msgBits => true
  | .node => false
  | .codeLen => false
  | .codeBits => false

/-- Byte `a` of the host's offsets is storage of region `r`: inside its window, and the low byte of its word where only
bits 7:0 are held. -/
def Region.owns (capText capMsg : Nat) (r : Region) (a : Nat) : Bool :=
  decide (r.base ≤ a) && decide (a < r.base + r.span capText capMsg) && (!r.byteWide || a % 4 == 0)

/-- The region that stores byte `a`, if any: a byte of no region is not storage and reads 0 (R65, R66). -/
def State.regionOf (s : State) (a : Nat) : Option Region :=
  Region.all.find? (fun r => r.owns s.capText.toNat s.capMsg.toNat a)

/-- The draw that region `r`'s unlisted bytes come from. -/
def Epochs.get (e : Epochs) : Region → Nat
  | .freq => e.freq
  | .node => e.node
  | .treeBits => e.treeBits
  | .treeLeaves => e.treeLeaves
  | .codeLen => e.codeLen
  | .codeBits => e.codeBits
  | .textIn => e.textIn
  | .textOut => e.textOut
  | .msgBits => e.msgBits

/-- Region `r` takes its unlisted bytes from draw `n`. -/
def Epochs.set (e : Epochs) (n : Nat) : Region → Epochs
  | .freq => { e with freq := n }
  | .node => { e with node := n }
  | .treeBits => { e with treeBits := n }
  | .treeLeaves => { e with treeLeaves := n }
  | .codeLen => { e with codeLen := n }
  | .codeBits => { e with codeBits := n }
  | .textIn => { e with textIn := n }
  | .textOut => { e with textOut := n }
  | .msgBits => { e with msgBits := n }

/-! ### Memory as a list of cells -/

/-- What the list holds at address `a`. -/
def Memory.lookup : List Host.Cell → Nat → Option Byte
  | [], _ => none
  | c :: m, a => bif Nat.beq c.1 a then some c.2 else Memory.lookup m a

/-- Replace everything the list holds at addresses `lo ≤ a < hi` by `cells`. -/
def Memory.replace (lo hi : Nat) (cells m : List Host.Cell) : List Host.Cell :=
  m.filter (fun c => decide (c.1 < lo)) ++ cells ++ m.filter (fun c => decide (hi ≤ c.1))

/-- The cells of consecutive elements from address `a` on, `stride` bytes apart. -/
def Memory.run (a stride : Nat) : List Byte → List Host.Cell
  | [] => []
  | b :: bs => (a, b) :: Memory.run (a + stride) stride bs

/-- The canonical form's order: addresses strictly rising. -/
def Memory.rising : List Host.Cell → Bool
  | [] => true
  | c :: m => m.all (fun d => decide (c.1 < d.1)) && Memory.rising m

/-- The canonical form of the memory list: addresses strictly rising, each of them storage of a local memory. (An
unlisted address holds no value of its own, so no entry can equal it: log entry 5.) -/
def State.memWf (s : State) : Bool :=
  Memory.rising s.mem && s.mem.all (fun c => (s.regionOf c.1).isSome)

/-! ### Reading and writing bytes and words -/

/-- The byte at host offset `a`: the value last written there; where nothing has been written since its region last
became unspecified, a free value (R12, R45); 0 where no local memory stores it (R65, R66). -/
def State.byteAt (s : State) (a : Nat) : Byte :=
  match Memory.lookup s.mem a with
  | some b => b
  | none =>
    match s.regionOf a with
    | some r => Config.freeByte (s.epochs.get r) a
    | none => 0

/-- The 32-bit word at host offset `a`, its bits 7:0 in the byte at `a` (log entry 3: no access can see this order). -/
def State.wordAt (s : State) (a : Nat) : Word :=
  s.byteAt (a + 3) ++ s.byteAt (a + 2) ++ s.byteAt (a + 1) ++ s.byteAt a

/-- Bit `i` of the bit buffer at `base`: bit `i mod 32` of word `i div 32` (R64), which is bit `i mod 8` of byte
`i div 8`. -/
def State.bitAt (s : State) (base i : Nat) : Bool := (s.byteAt (base + i / 8)).getLsbD (i % 8)

/-- Write consecutive elements, `stride` bytes apart, from address `a` on. -/
def State.putRun (s : State) (a stride : Nat) (bs : List Byte) : State :=
  { s with mem := Memory.replace a (a + stride * bs.length) (Memory.run a stride bs) s.mem }

/-- The four bytes of a word, bits 7:0 first. -/
def wordBytes (w : Word) : List Byte :=
  [w.extractLsb' 0 8, w.extractLsb' 8 8, w.extractLsb' 16 8, w.extractLsb' 24 8]

/-- Write the consecutive words `ws` from address `a` on. -/
def State.putWords (s : State) (a : Nat) (ws : List Word) : State :=
  s.putRun a 1 (ws.flatMap wordBytes)

/-- `unspecified(X)` for each region of `rs` (R12): what it held is gone, and its bytes come from a draw never used
before (log entry 6). -/
def State.unspecified (s : State) (rs : List Region) : State :=
  { s with
    mem := s.mem.filter (fun c => !(rs.any (fun r => r.owns s.capText.toNat s.capMsg.toNat c.1)))
    epochs := rs.foldl (fun e r => e.set s.draws r) s.epochs
    draws := s.draws + 1 }

/-! ### A command's life -/

/-- STATUS.BUSY: `eng` is idle exactly when it is 0 (R21). -/
def State.busy (s : State) : Bool :=
  match s.eng with
  | .idle => false
  | .busy _ => true

/-- The number of each error code (R142). -/
def ErrCode.code : ErrCode → BitVec 8
  | .invalidInput => 0x01
  | .treeBitsUnderrun => 0x02
  | .treeLeavesUnderrun => 0x03
  | .treeTrailing => 0x04
  | .duplicateSymbol => 0x05
  | .noTree => 0x06
  | .degenerateTree => 0x07
  | .unencodableSymbol => 0x08
  | .partialCode => 0x09
  | .msgOverflow => 0x0A
  | .textOverflow => 0x0B
  | .badLength => 0x0C
  | .badCommand => 0x0D

/-- Acceptance of word `w` while the engine is idle (R138). -/
def State.accept (s : State) (w : Word) : State :=
  { s with cmd := w, eng := .busy w, done := false, errCode := 0, errInfo := 0 }

/-- Successful completion, `complete()` (R140). -/
def State.complete (s : State) : State :=
  { s with errCode := 0, errInfo := 0, done := true, eng := .idle }

/-- Completion with an error, `raise Error(code, info)` (R141): the block's one exception entry. What it saves is
ERR_CODE and ERR_INFO, beside CMD (R146). -/
def State.fail (s : State) (e : CmdError) : State :=
  { s with errCode := e.code.code, errInfo := e.info, done := true, eng := .idle }

/-- The regions each command writes, as the soft-reset table lists them (R161); also the regions a running command may
write (R68). -/
def writtenRegions : Instr → List Region
  | .count => [.freq]
  | .build => [.node]
  | .tenc => [.treeBits, .treeLeaves]
  | .tdec => [.node]
  | .paths => [.codeLen, .codeBits]
  | .senc => [.codeLen, .codeBits, .msgBits]
  | .sdec => [.textOut]

/-- The regions the running command may write; none while idle or while an illegal word runs (R161). -/
def State.runningRegions (s : State) : List Region :=
  match s.eng with
  | .idle => []
  | .busy w =>
    match decode w with
    | .command i => writtenRegions i
    | .illegal _ => []

/-- Every register at its reset value and the engine idle (R45); the capacity constants, the memories and the host stay
as they are. -/
def State.resetRegisters (s : State) : State :=
  { s with
    eng := .idle, ie := false, done := false, treeValid := false, pathsValid := false, wbusy := false
    cmd := 0, errCode := 0, errInfo := 0, textLen := 0, outLen := 0, msgLen := 0, treeBitsLen := 0
    treeLeavesLen := 0, distinct := 0, root := 0, nodeCount := 0 }

/-- Soft reset (R161): a running command is abandoned and what it writes becomes unspecified. -/
def State.softReset (s : State) : State :=
  (s.unspecified s.runningRegions).resetRegisters

/-- Hardware reset (R160): registers at their reset values, every local memory unspecified. -/
def State.hardReset (s : State) : State :=
  (s.unspecified Region.all).resetRegisters

end Sys2Proof.Machine
end

