-- ==== Sys2Proof/Machine/Flags.lean ====
section
/-! DEFINITION. STATUS and CTRL as words, the fields stored once and assembled on a read (rules R25, R26), what a host
write to each does, and the interrupt output (rule R148). The block has no other flags (rule R44). -/

namespace Sys2Proof.Machine

/-- A register field of one bit: `b` at bit `i`. -/
def flagAt (b : Bool) (i : Nat) : Word := if b then BitVec.ofNat 32 (2 ^ i) else 0

/-- STATUS.ERR always equals (ERR_CODE ≠ 0) (R26). -/
def State.err (s : State) : Bool := s.errCode != 0

/-- What a read of STATUS returns (R26): bits 31:6 read 0. -/
def State.statusWord (s : State) : Word :=
  flagAt s.busy 0 ||| flagAt s.done 1 ||| flagAt s.err 2 ||| flagAt s.treeValid 3 |||
    flagAt s.pathsValid 4 ||| flagAt s.wbusy 5

/-- What a read of CTRL returns (R25): IE, and SRST and the reserved bits as 0. -/
def State.ctrlWord (s : State) : Word := flagAt s.ie 0

/-- A host write to STATUS: DONE and WBUSY are cleared where the written bit is 1, nothing else changes (R26). -/
def State.writeStatus (s : State) (v : Word) : State :=
  { s with done := s.done && !v.getLsbD 1, wbusy := s.wbusy && !v.getLsbD 5 }

/-- A host write to CTRL: SRST = 1 performs the soft reset, which also clears IE; otherwise IE is stored (R25, R161). -/
def State.writeCtrl (s : State) (v : Word) : State :=
  if v.getLsbD 1 then s.softReset else { s with ie := v.getLsbD 0 }

/-- The interrupt output: `irq = STATUS.DONE AND CTRL.IE` (R148). -/
def State.irq (s : State) : Bool := s.done && s.ie

end Sys2Proof.Machine
end

