-- ==== Sys2Proof/Machine/Operands.lean ====
section
/-! DEFINITION. The implicit operands of the commands (rule R82): the elements of the local memories by index (rule
R11), the NODE word format (R36), the tree notation and the current tree (R13, R37), bit paths (R122), and the packing
of a bit sequence (R64). -/

namespace Sys2Proof.Machine

/-! ### Elements of the local memories (R11) -/

/-- FREQ[i] (R34). -/
def State.freqAt (s : State) (i : Nat) : Word := s.wordAt (0x001000 + 4 * i)

/-- NODE[i] (R35). -/
def State.nodeAt (s : State) (i : Nat) : Word := s.wordAt (0x002000 + 4 * i)

/-- TREE_BITS[i] (R39). -/
def State.treeBitAt (s : State) (i : Nat) : Bool := s.bitAt 0x003000 i

/-- TREE_LEAVES[j] (R40). -/
def State.treeLeafAt (s : State) (j : Nat) : Symbol := s.byteAt (0x003400 + 4 * j)

/-- CODE_LEN[i], bits 7:0 (R38). -/
def State.codeLenAt (s : State) (i : Nat) : Byte := s.byteAt (0x004000 + 4 * i)

/-- CODE_BITS[i] bit t (R38). -/
def State.codeBitAt (s : State) (i t : Nat) : Bool := s.bitAt (0x008000 + 32 * i) t

/-- TEXT_IN[i] (R41). -/
def State.textInAt (s : State) (i : Nat) : Symbol := s.byteAt (0x100000 + 4 * i)

/-- TEXT_OUT[i] (R41). -/
def State.textOutAt (s : State) (i : Nat) : Symbol := s.byteAt (0x200000 + 4 * i)

/-- MSG_BITS[i] (R42). -/
def State.msgBitAt (s : State) (i : Nat) : Bool := s.bitAt 0x300000 i

/-! ### The operand sequences the length registers delimit (R30) -/

/-- TEXT_IN[0 .. TEXT_LEN−1], the text COUNT and SENC read. -/
def State.text (s : State) : List Symbol := (List.range s.textLen.toNat).map s.textInAt

/-- TEXT_OUT[0 .. OUT_LEN−1], the text SDEC wrote. -/
def State.output (s : State) : List Symbol := (List.range s.outLen.toNat).map s.textOutAt

/-- MSG_BITS[0 .. MSG_LEN−1], the message. -/
def State.message (s : State) : List Bool := (List.range s.msgLen.toNat).map s.msgBitAt

/-- TREE_BITS[0 .. TREE_BITS_LEN−1], the flattened tree's shape. -/
def State.treeBitSeq (s : State) : List Bool := (List.range s.treeBitsLen.toNat).map s.treeBitAt

/-- TREE_LEAVES[0 .. TREE_LEAVES_LEN−1], its symbols in flattening order. -/
def State.treeLeafSeq (s : State) : List Symbol := (List.range s.treeLeavesLen.toNat).map s.treeLeafAt

/-! ### NODE words (R36) -/

/-- The word of `Leaf(s)`: LEAF = 1, SYM = s. -/
def leafWord (s : Symbol) : Word := 0x80000000 ||| s.setWidth 32

/-- The word of `Node(zero = z, one = o)`. -/
def interiorWord (z o : Nat) : Word := (BitVec.ofNat 32 o <<< 16) ||| BitVec.ofNat 32 z

/-- `isLeaf`: bit 31. -/
def nodeIsLeaf (w : Word) : Bool := w.getLsbD 31

/-- `sym`: bits 7:0. -/
def nodeSym (w : Word) : Symbol := w.extractLsb' 0 8

/-- `zero`: bits 8:0. -/
def nodeZero (w : Word) : Nat := (w.extractLsb' 0 9).toNat

/-- `one`: bits 24:16. -/
def nodeOne (w : Word) : Nat := (w.extractLsb' 16 9).toNat

/-! ### Trees (R13) -/

/-- `Leaf(s)` and `Node(z, o)` (R13). -/
inductive CodeTree where
  | leaf (s : Symbol)
  | node (z o : CodeTree)
  deriving DecidableEq, Repr

/-- The number of nodes of a tree. -/
def CodeTree.size : CodeTree → Nat
  | .leaf _ => 1
  | .node z o => z.size + o.size + 1

/-- `treeBits`: pre-order, 0 for a leaf and 1 for an interior node, zero subtree before one (R110). -/
def CodeTree.bits : CodeTree → List Bool
  | .leaf _ => [false]
  | .node z o => true :: (z.bits ++ o.bits)

/-- `treeLeaves`: the leaf symbols in the same order (R110). -/
def CodeTree.leaves : CodeTree → List Symbol
  | .leaf s => [s]
  | .node z o => z.leaves ++ o.leaves

/-- The bit path from the root to the leaf of symbol `x`, 0 for each `zero` edge and 1 for each `one` edge; none if no
leaf holds `x` (R122). -/
def CodeTree.pathOf : CodeTree → Symbol → Option (List Bool)
  | .leaf s, x => if s = x then some [] else none
  | .node z o, x =>
    match z.pathOf x with
    | some p => some (false :: p)
    | none =>
      match o.pathOf x with
      | some p => some (true :: p)
      | none => none

/-- The path table's entry for symbol `x`: its bit path, empty when the tree has no leaf for it (R123). -/
def CodeTree.code (t : CodeTree) (x : Symbol) : List Bool := (t.pathOf x).getD []

/-- The tree the arena holds under index `i`, where its nesting is below `fuel` levels. -/
def State.treeAt (s : State) : Nat → Nat → Option CodeTree
  | 0, _ => none
  | fuel + 1, i =>
    if nodeIsLeaf (s.nodeAt i) then some (.leaf (nodeSym (s.nodeAt i)))
    else
      match s.treeAt fuel (nodeZero (s.nodeAt i)), s.treeAt fuel (nodeOne (s.nodeAt i)) with
      | some z, some o => some (.node z o)
      | _, _ => none

/-- The tree a command that traverses the arena works on: the one under ROOT, provided it has what rule R37 gives every
valid tree: at most MAX_NODES nodes and no symbol in two leaves. -/
def State.currentTree (s : State) : Option CodeTree :=
  match s.treeAt Config.maxNodes s.root.toNat with
  | some t => if t.size ≤ Config.maxNodes ∧ t.leaves.Nodup then some t else none
  | none => none

/-- `isLeaf(ROOT)`: the tree is degenerate (R16). -/
def State.rootIsLeaf (s : State) : Bool := nodeIsLeaf (s.nodeAt s.root.toNat)

/-! ### Packing a bit sequence (R64) -/

/-- The number whose bit `i` is element `i` of the sequence. -/
def bitsToNat : List Bool → Nat
  | [] => 0
  | b :: bs => b.toNat + 2 * bitsToNat bs

/-- The first `n` bytes of a packed bit sequence: element `i` is bit `i mod 8` of byte `i div 8`, and bits past its end
are 0 (R64). -/
def packBytes : Nat → List Bool → List Byte
  | 0, _ => []
  | n + 1, bits => BitVec.ofNat 8 (bitsToNat (bits.take 8)) :: packBytes n (bits.drop 8)

/-- How many bytes the words that hold `n` bits take: 4·ceil(n/32) (R110, R125). -/
def packedBytes (n : Nat) : Nat := 4 * ((n + 31) / 32)

/-- The bytes a command writes for a bit sequence: its words, the unused bits of the last word 0 (R110, R125). -/
def packWords (bits : List Bool) : List Byte := packBytes (packedBytes bits.length) bits

end Sys2Proof.Machine
end

