-- ==== Sys2Proof/Machine/SymbolDecoder.lean ====
section
/-! DEFINITION. Unit huffman_symbol_decoder: SDEC (rule R132, 44_symbol_decoder.md). -/

namespace Sys2Proof.Machine

/-- One branch of the walk: the zero child for a bit 0, the one child for a bit 1 (R132). -/
def State.childOf (s : State) (cur : Nat) (b : Bool) : Nat :=
  if b then nodeOne (s.nodeAt cur) else nodeZero (s.nodeAt cur)

/-- The decode loop of SDEC on the remaining bits, from bit index `i`, at node `cur`, the path in progress having begun
at bit `start`, with `out` symbols already decoded: the remaining symbols, or the first error (R132). -/
def State.decodeBits (s : State) : List Bool → Nat → Nat → Nat → Nat → Except CmdError (List Symbol)
  | [], _, cur, start, _ =>
    if cur ≠ s.root.toNat then .error ⟨.partialCode, BitVec.ofNat 32 start⟩ else .ok []
  | b :: bits, i, cur, start, out =>
    if nodeIsLeaf (s.nodeAt (s.childOf cur b)) then
      if s.capText.toNat ≤ out then .error ⟨.textOverflow, BitVec.ofNat 32 i⟩
      else
        match s.decodeBits bits (i + 1) s.root.toNat (i + 1) (out + 1) with
        | .error e => .error e
        | .ok text => .ok (nodeSym (s.nodeAt (s.childOf cur b)) :: text)
    else s.decodeBits bits (i + 1) (s.childOf cur b) start out

/-- SDEC's last part, from what the message decodes to: TEXT_OUT and OUT_LEN, or after a data error TEXT_OUT unspecified
and OUT_LEN = 0 (R132, R133). -/
def State.storeOutput (s : State) (r : Except CmdError (List Symbol)) : State :=
  match r with
  | .error e => { s.unspecified [.textOut] with outLen := 0 }.fail e
  | .ok text => { s.putRun 0x200000 4 text with outLen := BitVec.ofNat 32 text.length }.complete

/-- SDEC (R132). -/
def execSdec (s : State) : Host.Outcome State Fault Refusal :=
  .next (if s.capMsg.toNat < s.msgLen.toNat then s.fail ⟨.badLength, 0x00000024⟩
    else if s.treeValid then
      if s.rootIsLeaf then s.fail ⟨.degenerateTree, 0⟩
      else s.storeOutput (s.decodeBits s.message 0 s.root.toNat 0 0)
    else s.fail ⟨.noTree, 0⟩)

end Sys2Proof.Machine
end

