-- ==== Sys2Proof/Machine/SymbolEncoder.lean ====
section
/-! DEFINITION. Unit huffman_symbol_encoder: PATHS (rule R123) and SENC (rule R125), 43_symbol_encoder.md. -/

namespace Sys2Proof.Machine

/-- CODE_LEN[0..255] of the path table of tree `t` (R123). -/
def codeLens (t : CodeTree) : List Byte :=
  (List.range Config.nsym).map (fun i => BitVec.ofNat 8 (t.code (BitVec.ofNat 8 i)).length)

/-- CODE_BITS[0..255] of the path table of tree `t`: 32 bytes an entry, 0 past the path (R38, R123). -/
def codeBitBytes (t : CodeTree) : List Byte :=
  (List.range Config.nsym).flatMap (fun i => packBytes 32 (t.code (BitVec.ofNat 8 i)))

/-- `PathStage`: the whole path table is written and PATHS_VALID set (R123). -/
def State.pathStage (s : State) (t : CodeTree) : State :=
  { (s.putRun 0x004000 4 (codeLens t)).putRun 0x008000 1 (codeBitBytes t) with pathsValid := true }

/-- PATHS (R123). -/
def execPaths (s : State) : Host.Outcome State Fault Refusal :=
  if s.treeValid then
    if s.rootIsLeaf then .next (s.fail ⟨.degenerateTree, 0⟩)
    else
      match s.currentTree with
      | some t => .next (s.pathStage t).complete
      | none => .fault .arenaNotTree
  else .next (s.fail ⟨.noTree, 0⟩)

/-- The encode loop of SENC from text index `i` with `pos` bits already placed, at capacity `cap` = MAX_MSG_BITS: the
bits of the remaining text, or the first error (R125). -/
def encodeText (t : CodeTree) (cap : Nat) : List Symbol → Nat → Nat → Except CmdError (List Bool)
  | [], _, _ => .ok []
  | x :: text, i, pos =>
    if t.code x = [] then .error ⟨.unencodableSymbol, BitVec.ofNat 32 i⟩
    else if cap < pos + (t.code x).length then .error ⟨.msgOverflow, BitVec.ofNat 32 i⟩
    else
      match encodeText t cap text (i + 1) (pos + (t.code x).length) with
      | .error e => .error e
      | .ok bits => .ok (t.code x ++ bits)

/-- SENC's last part, from what the text encodes to: MSG_BITS and MSG_LEN, or after a data error MSG_BITS unspecified
and MSG_LEN = 0 (R125, R126). -/
def State.storeMessage (s : State) (r : Except CmdError (List Bool)) : State :=
  match r with
  | .error e => { s.unspecified [.msgBits] with msgLen := 0 }.fail e
  | .ok bits =>
    { s.putRun 0x300000 1 (packWords bits) with msgLen := BitVec.ofNat 32 bits.length }.complete

/-- SENC (R125). -/
def execSenc (s : State) : Host.Outcome State Fault Refusal :=
  if s.capText.toNat < s.textLen.toNat then .next (s.fail ⟨.badLength, 0x0000001C⟩)
  else if s.treeValid then
    if s.rootIsLeaf then .next (s.fail ⟨.degenerateTree, 0⟩)
    else
      match s.currentTree with
      | some t => .next ((s.pathStage t).storeMessage (encodeText t s.capMsg.toNat s.text 0 0))
      | none => .fault .arenaNotTree
  else .next (s.fail ⟨.noTree, 0⟩)

end Sys2Proof.Machine
end

