-- ==== Sys2Proof/Machine/TreeBuilder.lean ====
section
/-! DEFINITION. Unit huffman_tree_builder: COUNT (rule R95) and BUILD (rule R101), 40_tree_builder.md. -/

namespace Sys2Proof.Machine

/-! ### COUNT -/

/-- The counts of a text, FREQ[0] to FREQ[255]: how often each symbol occurs, as unsigned 32-bit integers (R95, R96). -/
def countTable (text : List Symbol) : List Word :=
  (List.range Config.nsym).map (fun i => BitVec.ofNat 32 (text.count (BitVec.ofNat 8 i)))

/-- The number of symbols whose count is not 0 (R95). -/
def distinctIn (table : List Word) : Nat := table.countP (fun w => w != 0)

/-- COUNT once TEXT_LEN is in range: FREQ and DISTINCT are written, then fewer than two distinct symbols are an error
that leaves them written (R95). -/
def State.countText (s : State) (table : List Word) : State :=
  let s' := { s.putWords 0x001000 table with distinct := BitVec.ofNat 9 (distinctIn table) }
  if distinctIn table < 2 then s'.fail ⟨.invalidInput, BitVec.ofNat 32 (distinctIn table)⟩
  else s'.complete

/-- COUNT (R95). -/
def execCount (s : State) : Host.Outcome State Fault Refusal :=
  .next (if s.capText.toNat < s.textLen.toNat then s.fail ⟨.badLength, 0x0000001C⟩
    else s.countText (countTable s.text))

/-! ### BUILD -/

/-- The symbols with FREQ[s] ≠ 0, in increasing order (R97). -/
def State.presentSymbols (s : State) : List Nat :=
  (List.range Config.nsym).filter (fun i => s.freqAt i != 0)

/-- One element of BUILD's working set: a weight and an insertion sequence number, which is also the node's arena index
(R98, R100). -/
abbrev QEntry := Weight × Nat

/-- The extraction order: smaller weight first, and between equal weights smaller seq first (R99). -/
def entryBefore (a b : QEntry) : Bool :=
  decide (a.1.toNat < b.1.toNat) || (decide (a.1.toNat = b.1.toNat) && decide (a.2 < b.2))

/-- Insert into the working set, kept in extraction order so that its first element is the least (R99). -/
def queueInsert (e : QEntry) : List QEntry → List QEntry
  | [] => [e]
  | x :: q => if entryBefore e x then e :: x :: q else x :: queueInsert e q

/-- The leaves of symbols `l` as elements of the working set: the t-th has weight zext_40(FREQ[l[t]]) and seq t, counted
from `t` (R97, R98). -/
def leafEntries (freq : Nat → Word) : Nat → List Nat → List QEntry
  | _, [] => []
  | t, x :: l => ((freq x).setWidth 40, t) :: leafEntries freq (t + 1) l

/-- The working set holding `es`. -/
def queueOf (es : List QEntry) : List QEntry := es.foldr queueInsert []

/-- The NODE words of `n` merge steps from index `m` on: each takes the two least elements, the first extracted as the
zero child and the second as the one child, and re-inserts their sum under seq `m` (R100). -/
def mergeNodes : Nat → List QEntry → Nat → List Word
  | n + 1, (w1, a) :: (w2, b) :: q, m =>
    interiorWord a b :: mergeNodes n (queueInsert (w1 + w2, m) q) (m + 1)
  | _, _, _ => []

/-- NODE[0 .. 2k−2] of the tree BUILD makes for the present symbols `l` (R97 to R101). -/
def builtNodes (freq : Nat → Word) (l : List Nat) : List Word :=
  l.map (fun x => leafWord (BitVec.ofNat 8 x)) ++
    mergeNodes (l.length - 1) (queueOf (leafEntries freq 0 l)) l.length

/-- BUILD for the present symbols `l` (R101). -/
def State.buildTree (s : State) (l : List Nat) : State :=
  if l.length < 2 then
    { s with
      distinct := BitVec.ofNat 9 l.length, treeValid := false, pathsValid := false, root := 0, nodeCount := 0 }.fail
        ⟨.invalidInput, BitVec.ofNat 32 l.length⟩
  else
    { s.putWords 0x002000 (builtNodes s.freqAt l) with
      distinct := BitVec.ofNat 9 l.length, treeValid := true, pathsValid := false
      root := BitVec.ofNat 9 (2 * l.length - 2), nodeCount := BitVec.ofNat 9 (2 * l.length - 1) }.complete

/-- BUILD (R101). -/
def execBuild (s : State) : Host.Outcome State Fault Refusal :=
  .next (s.buildTree s.presentSymbols)

end Sys2Proof.Machine
end

