-- ==== Sys2Proof/Machine/TreeDecoder.lean ====
section
/-! DEFINITION. Unit huffman_tree_decoder: TDEC (rule R117, 42_tree_decoder.md). -/

namespace Sys2Proof.Machine

/-- What `build()` has reached after one subtree: the NODE words it made, at consecutive indices from the subtree's first
bit on (R115), the bits and symbols not yet consumed, the symbols already used, and the counters `p` and `j` (R117). -/
structure Parsed where
  nodes : List Word
  bits : List Bool
  leaves : List Symbol
  seen : List Symbol
  p : Nat
  j : Nat
  deriving DecidableEq, Repr

/-- `(j << 16) | p`, the detail word of two counters (R116). -/
def pairInfo (j p : Nat) : Word := (BitVec.ofNat 32 j <<< 16) ||| BitVec.ofNat 32 p

/-- `build()` on the remaining `bits` and `leaves` (R117, checks 3 to 5 of R116). Every call consumes a bit, so the
number of bits left bounds the nesting: `fuel` is at least that number, and a call without fuel has no bit left. -/
def unflatten : Nat → List Bool → List Symbol → List Symbol → Nat → Nat → Except CmdError Parsed
  | _ + 1, false :: bits, leaves, seen, p, j =>
    match leaves with
    | [] => .error ⟨.treeLeavesUnderrun, BitVec.ofNat 32 p⟩
    | x :: rest =>
      if x ∈ seen then .error ⟨.duplicateSymbol, pairInfo j p⟩
      else .ok ⟨[leafWord x], bits, rest, x :: seen, p + 1, j + 1⟩
  | fuel + 1, true :: bits, leaves, seen, p, j =>
    match unflatten fuel bits leaves seen (p + 1) j with
    | .error e => .error e
    | .ok z =>
      match unflatten fuel z.bits z.leaves z.seen z.p z.j with
      | .error e => .error e
      | .ok o => .ok { o with nodes := interiorWord (p + 1) z.p :: (z.nodes ++ o.nodes) }
  | _, _, _, _, p, _ => .error ⟨.treeBitsUnderrun, BitVec.ofNat 32 p⟩

/-- The whole tree from the two sequences, with check 6 of R116: nothing may be left over. -/
def parseTree (bits : List Bool) (leaves : List Symbol) : Except CmdError Parsed :=
  match unflatten bits.length bits leaves [] 0 0 with
  | .error e => .error e
  | .ok r =>
    if r.bits ≠ [] ∨ r.leaves ≠ [] then .error ⟨.treeTrailing, pairInfo r.j r.p⟩ else .ok r

/-- TDEC once both lengths are in range, from what the sequences parse to (R117, R118). -/
def State.rebuildTree (s : State) (r : Except CmdError Parsed) : State :=
  match r with
  | .error e =>
    { s.unspecified [.node] with treeValid := false, pathsValid := false, root := 0, nodeCount := 0 }.fail e
  | .ok r =>
    { s.putWords 0x002000 r.nodes with
      treeValid := true, pathsValid := false, root := 0, nodeCount := BitVec.ofNat 9 r.p }.complete

/-- TDEC (R117). -/
def execTdec (s : State) : Host.Outcome State Fault Refusal :=
  .next (if Config.treeBitsMax < s.treeBitsLen.toNat then s.fail ⟨.badLength, 0x00000028⟩
    else if Config.treeLeavesMax < s.treeLeavesLen.toNat then s.fail ⟨.badLength, 0x0000002C⟩
    else s.rebuildTree (parseTree s.treeBitSeq s.treeLeafSeq))

end Sys2Proof.Machine
end

