-- ==== Sys2Proof/Machine/TreeEncoder.lean ====
section
/-! DEFINITION. Unit huffman_tree_encoder: TENC (rule R110, 41_tree_encoder.md). -/

namespace Sys2Proof.Machine

/-- TENC for the current tree `t`: its bits, the rest of their last word 0, its leaf symbols and both lengths (R110). -/
def State.flattenTree (s : State) (t : CodeTree) : State :=
  { (s.putRun 0x003000 1 (packWords t.bits)).putRun 0x003400 4 t.leaves with
    treeBitsLen := BitVec.ofNat 32 t.bits.length
    treeLeavesLen := BitVec.ofNat 32 t.leaves.length }.complete

/-- TENC (R110). -/
def execTenc (s : State) : Host.Outcome State Fault Refusal :=
  if s.treeValid then
    match s.currentTree with
    | some t => .next (s.flattenTree t)
    | none => .fault .arenaNotTree
  else .next (s.fail ⟨.noTree, 0⟩)

end Sys2Proof.Machine
end

