-- ==== Sys2Proof/Machine/HostPort.lean ====
section
/-! DEFINITION. The host port: MemRead and MemWrite under the address map (rules R60 to R70, 20_memory.md, and the
access codes of rule R22, 10_state.md). An access is one atomic step (rule R77); `ack` and the clock are not modelled. -/

namespace Sys2Proof.Machine

/-- What a read of the register page returns (R22 to R31): reserved offsets read 0, and so do reserved bits. -/
def State.readReg (s : State) (off : Nat) : Word :=
  match off with
  | 0x000 => Config.idConst
  | 0x004 => Config.versionConst
  | 0x008 => s.ctrlWord
  | 0x00C => s.statusWord
  | 0x010 => s.cmd
  | 0x014 => s.errCode.setWidth 32
  | 0x018 => s.errInfo
  | 0x01C => s.textLen
  | 0x020 => s.outLen
  | 0x024 => s.msgLen
  | 0x028 => s.treeBitsLen
  | 0x02C => s.treeLeavesLen
  | 0x030 => s.distinct.setWidth 32
  | 0x034 => s.root.setWidth 32
  | 0x038 => s.nodeCount.setWidth 32
  | 0x03C => s.capText
  | 0x040 => s.capMsg
  | _ => 0

/-- MemRead at an aligned offset: the value, and the state after it, which differs only in the model's draw counter and
only where a draw was taken (R60, R63, R66, R68). -/
def State.memRead (s : State) (off : Nat) : Word × State :=
  if off < 0x001000 then (s.readReg off, s)
  else
    match s.regionOf off with
    | none => (0, s)
    | some r =>
      if s.runningRegions.contains r then (Config.freeWord s.draws, { s with draws := s.draws + 1 })
      else (s.wordAt off, s)

/-- An idle host write to a register other than CTRL, STATUS and CMD: the RW length registers store it, every other
offset ignores it (R22, R30, R66). -/
def State.writeReg (s : State) (off : Nat) (v : Word) : State :=
  match off with
  | 0x01C => { s with textLen := v }
  | 0x024 => { s with msgLen := v }
  | 0x028 => { s with treeBitsLen := v }
  | 0x02C => { s with treeLeavesLen := v }
  | _ => s

/-- An idle host write to a window: stored as written, bits 7:0 only in a symbol window; ignored in an RO window and at
an unmapped offset (R63, R65, R66). -/
def State.writeWindow (s : State) (off : Nat) (v : Word) : State :=
  match s.regionOf off with
  | none => s
  | some r =>
    if r.hostWritable then
      if r.byteWide then s.putRun off 4 [v.extractLsb' 0 8] else s.putWords off [v]
    else s

/-- MemWrite at an aligned offset, in the order rule R61 gives; CTRL and STATUS are written whether the engine is busy
or not, any other write is dropped while it is busy and sets WBUSY (R32). -/
def State.memWrite (s : State) (off : Nat) (v : Word) : State :=
  if off = 0x008 then s.writeCtrl v
  else if off = 0x00C then s.writeStatus v
  else if s.busy then { s with wbusy := true }
  else if off = 0x010 then s.accept v
  else if off < 0x001000 then s.writeReg off v
  else s.writeWindow off v

end Sys2Proof.Machine
end

