-- ==== Sys2Proof/Machine/HostProgram.lean ====
section
/-! DEFINITION. The host as an agent: how it performs one operation of its program (rules R60, R61, R86), and the
pseudo-operations of 30_encoding.md (rules R87 to R92) as the lists of operations they expand to. -/

namespace Sys2Proof.Machine

/-- The host performs MemRead and keeps the value (R60, R86). -/
def State.hostRead (s : State) (off : Nat) : State :=
  { (s.memRead off).2 with reads := (s.memRead off).1 :: s.reads }

/-- The value of the host's latest read; 0 before the first. -/
def State.lastRead (s : State) : Word := s.reads.headD 0

/-- The reads GETTEXT performs once it knows `n`: TEXT_OUT[i] for i = 0 to n−1 (R91); offsets past 2^22 are taken modulo
2^22 (log entries 16 and 25). -/
def getTextReads (n : Nat) : List HostOp :=
  (List.range n).map (fun i => .rd (BitVec.ofNat 22 (0x200000 + 4 * i)))

/-- One operation of the host's program, the first; nothing when it has ended (R172). -/
def hostStep (s : State) : Host.Outcome State Fault Refusal :=
  match s.program with
  | [] => .next s
  | .wr off v :: rest =>
    if Offset.aligned off then .next ({ s with program := rest }.memWrite off.toNat v)
    else .refused .misalignedAccess
  | .rd off :: rest =>
    if Offset.aligned off then .next ({ s with program := rest }.hostRead off.toNat)
    else .refused .misalignedAccess
  | .waitIdle :: rest =>
    let s' := s.hostRead 0x00C
    .next (if s'.lastRead.getLsbD 0 then s' else { s' with program := rest })
  | .checkErr :: rest =>
    let s' := s.hostRead 0x014
    .next { s' with program := if s'.lastRead = 0 then rest else [] }
  | .getText :: rest =>
    let s' := s.hostRead 0x020
    .next { s' with program := getTextReads s'.lastRead.toNat ++ rest }

/-! ### Pseudo-operations -/

/-- `CMD m` (R87). -/
def hostCmd (i : Instr) : List HostOp := [.wr 0x010 (encode i)]

/-- `RUN m`: `CMD m`, `WAIT`, `RD ERR_CODE` (R89). -/
def hostRun (i : Instr) : List HostOp := hostCmd i ++ [.waitIdle, .rd 0x014]

/-- `RUN! m`: the same, ending the host program when the error code is not 0 (R89). -/
def hostRunStop (i : Instr) : List HostOp := hostCmd i ++ [.waitIdle, .checkErr]

/-- Writes of consecutive words from offset `off` on, the lowest offset first. For PUTTEXT R90 states that order; for a
PUTBITS of more than one word it states none, and for PUTBITS the order is a DESIGN CHOICE (log entry 26). R90 bounds no list and R60 has offsets below 2^22: a list that runs
past 2^22 has its offsets taken modulo 2^22, so that it wraps to the register page. DESIGN CHOICE (log entry 25). -/
def hostWrites (off : Nat) : List Word → List HostOp
  | [] => []
  | v :: vs => .wr (BitVec.ofNat 22 off) v :: hostWrites (off + 4) vs

/-- `PUTTEXT` (R90). The length written is taken modulo 2^32, as the offsets are modulo 2^22 (log entry 25). -/
def hostPutText (text : List Symbol) : List HostOp :=
  hostWrites 0x100000 (text.map (·.setWidth 32)) ++ [.wr 0x01C (BitVec.ofNat 32 text.length)]

/-- The words of a bit sequence, 0 in the unused high bits of the last (R64, R90). -/
def wordsOfBits : Nat → List Bool → List Word
  | 0, _ => []
  | n + 1, bits => BitVec.ofNat 32 (bitsToNat (bits.take 32)) :: wordsOfBits n (bits.drop 32)

/-- `PUTBITS TREE_BITS` (R90): its words in rising order of offset, the model's choice (log entry 26), then the length;
over-long lists as log entry 25 says. -/
def hostPutTreeBits (bits : List Bool) : List HostOp :=
  hostWrites 0x003000 (wordsOfBits ((bits.length + 31) / 32) bits) ++ [.wr 0x028 (BitVec.ofNat 32 bits.length)]

/-- `PUTBITS MSG_BITS` (R90): its words in rising order of offset, the model's choice (log entry 26), then the length;
over-long lists as log entry 25 says. -/
def hostPutMsgBits (bits : List Bool) : List HostOp :=
  hostWrites 0x300000 (wordsOfBits ((bits.length + 31) / 32) bits) ++ [.wr 0x024 (BitVec.ofNat 32 bits.length)]

/-- `PUTLEAVES` (R90), in the order P3 and P6 write out (log entry 26); over-long lists as log entry 25 says. -/
def hostPutLeaves (leaves : List Symbol) : List HostOp :=
  hostWrites 0x003400 (leaves.map (·.setWidth 32)) ++ [.wr 0x02C (BitVec.ofNat 32 leaves.length)]

/-- `COMPRESS` (R92). -/
def hostCompress : List HostOp :=
  hostRunStop .count ++ hostRunStop .build ++ hostRunStop .tenc ++ hostRunStop .senc

/-- `DECOMPRESS` (R92). -/
def hostDecompress : List HostOp := hostRunStop .tdec ++ hostRunStop .sdec

end Sys2Proof.Machine
end

