-- ==== Sys2Proof/Machine/Engine.lean ====
section
/-! DEFINITION. The engine's step (rule R139), and which agent moves next (rule R17). -/

namespace Sys2Proof.Machine

/-- The engine's step: the completion of the accepted word, a command's own (R140, R141) or BAD_COMMAND for an illegal
word (R83, R141); nothing while idle (R157). -/
def engineStep (s : State) : Host.Outcome State Fault Refusal :=
  match s.eng with
  | .idle => .next s
  | .busy w =>
    match decode w with
    | .command i => exec i s
    | .illegal _ => .next (s.fail ⟨.badCommand, w⟩)

/-- Whose step comes next: what the schedule says; at its end the engine's while a command is accepted, so that every
accepted command completes (the weak fairness of R139), and otherwise the host's. -/
def State.nextTurn (s : State) : Turn :=
  match s.turns with
  | t :: _ => t
  | [] => if s.busy then .engine else .host

/-- The state without the turn being taken. -/
def State.popTurn (s : State) : State := { s with turns := s.turns.tail }

/-- The schedule under which the engine moves next, `ts` following. -/
def engineNext (ts : List Turn) : List Turn :=
  match ts with
  | [] => []
  | t :: rest => .engine :: t :: rest

end Sys2Proof.Machine
end

