-- ==== Sys2Proof/Machine/Step.lean ====
section
/-! DEFINITION. One step of the whole machine: the next agent moves (rules R17, R139, R160). -/

namespace Sys2Proof.Machine

/-- One step. -/
def step (s : State) : Host.Outcome State Fault Refusal :=
  match s.nextTurn with
  | .host => hostStep s.popTurn
  | .engine => engineStep s.popTurn
  | .resetPin => .next s.popTurn.hardReset

/-- `s` with the command word `w` accepted (R138) and the engine next to move: the block fetches nothing (R21, R74), so
accepting a word is how an instruction comes to be the next one run (log entry 2). -/
def State.withFetchWord (s : State) (nbits w : Nat) : State :=
  { s.accept (tableWord nbits w) with turns := engineNext s.turns }

end Sys2Proof.Machine
end

