-- ==== Sys2Proof/Safety.lean ====
section
/-! DEFINITION. What the rules say holds between the fields of every state the block can be in, as named invariants, and
what counts as a safe step. Claims use these names. -/

namespace Sys2Proof.Machine

/-- The instance's parameters are within their bounds (R8). -/
def State.CapsOk (s : State) : Prop := Config.textCapOk s.capText.toNat ∧ Config.msgCapOk s.capMsg.toNat

/-- The memory list is in canonical form. -/
def State.MemOk (s : State) : Prop := s.memWf = true

/-- While a word is accepted and not completed, CMD holds it, and DONE, ERR_CODE and ERR_INFO are as acceptance left them
(R27, R33, R138). -/
def State.EngOk (s : State) : Prop :=
  ∀ w, s.eng = .busy w → s.cmd = w ∧ s.done = false ∧ s.errCode = 0 ∧ s.errInfo = 0

/-- ERR_CODE holds 0 or one of the thirteen codes (R142), and ERR_INFO is 0 where it holds 0 (R29). -/
def State.ErrOk (s : State) : Prop := s.errCode.toNat ≤ 0x0D ∧ (s.errCode = 0 → s.errInfo = 0)

/-- ROOT and NODE_COUNT read 0 while TREE_VALID = 0, and DISTINCT is a count of symbols (R31). -/
def State.TreeRegsOk (s : State) : Prop :=
  (s.treeValid = false → s.root = 0 ∧ s.nodeCount = 0) ∧ s.distinct.toNat ≤ 256

/-- OUT_LEN never exceeds MAX_TEXT: SDEC alone writes it (R30, R132). -/
def State.OutOk (s : State) : Prop := s.outLen.toNat ≤ s.capText.toNat

/-- No region's unwritten bytes come from a draw that is still to be made. -/
def State.DrawsOk (s : State) : Prop := ∀ r, s.epochs.get r < s.draws

/-- A NODE word has one of the two forms of R36: LEAF = 1 with bits 30:8 zero, or LEAF = 0 with bits 30:25 and 15:9
zero. -/
def nodeForm (w : Word) : Prop :=
  (w.getLsbD 31 = true ∧ w.extractLsb' 8 23 = 0) ∨
    (w.getLsbD 31 = false ∧ w.extractLsb' 25 6 = 0 ∧ w.extractLsb' 9 7 = 0)

/-- The arena indices a traversal from index `i` meets, in pre-order, to a nesting of `fuel` levels. -/
def State.indicesAt (s : State) : Nat → Nat → List Nat
  | 0, _ => []
  | fuel + 1, i =>
    if nodeIsLeaf (s.nodeAt i) then [i]
    else i :: (s.indicesAt fuel (nodeZero (s.nodeAt i)) ++ s.indicesAt fuel (nodeOne (s.nodeAt i)))

/-- The current tree (R37): when TREE_VALID = 1, NODE[0 .. NODE_COUNT−1] form one tree rooted at ROOT; a traversal from
ROOT meets every index below NODE_COUNT exactly once and no other; no symbol is in two leaves; and the entries have the
forms of R36. -/
def State.ArenaOk (s : State) : Prop :=
  s.treeValid = true →
    (∃ t, s.treeAt Config.maxNodes s.root.toNat = some t ∧ t.leaves.Nodup) ∧
    (s.indicesAt Config.maxNodes s.root.toNat).Perm (List.range s.nodeCount.toNat) ∧
    ∀ i < s.nodeCount.toNat, nodeForm (s.nodeAt i)

/-- The path table (R38, R123): when PATHS_VALID = 1, there is a current tree whose root is interior, and CODE_LEN and
CODE_BITS hold its bit paths, 0 past each path's end and for a symbol with no leaf. -/
def State.PathsOk (s : State) : Prop :=
  s.pathsValid = true →
    s.treeValid = true ∧ s.rootIsLeaf = false ∧
    ∃ t, s.currentTree = some t ∧
      ∀ i < 256, (s.codeLenAt i).toNat = (t.code (BitVec.ofNat 8 i)).length ∧
        ∀ j < 256, s.codeBitAt i j = (t.code (BitVec.ofNat 8 i)).getD j false

/-- Everything above together. -/
structure State.Inv (s : State) : Prop where
  caps : s.CapsOk
  mem : s.MemOk
  eng : s.EngOk
  err : s.ErrOk
  treeRegs : s.TreeRegsOk
  out : s.OutOk
  draws : s.DrawsOk
  arena : s.ArenaOk
  paths : s.PathsOk

/-- Every byte outside `lo ≤ a < hi` reads in `t` as in `s`. -/
def SameBytesOutside (lo hi : Nat) (s t : State) : Prop := ∀ a, a < lo ∨ hi ≤ a → t.byteAt a = s.byteAt a

/-- The height of a tree: the length of its longest bit path. -/
def CodeTree.height : CodeTree → Nat
  | .leaf _ => 0
  | .node z o => max z.height o.height + 1

/-- The subtree a sequence of branches leads to from the root, 0 to the `zero` child and 1 to the `one` child (R122). -/
def CodeTree.follow : CodeTree → List Bool → Option CodeTree
  | t, [] => some t
  | .leaf _, _ :: _ => none
  | .node z o, b :: p => if b then o.follow p else z.follow p

/-- The weight of a tree: the sum of its leaves' counts (R98). -/
def CodeTree.weight (count : Symbol → Nat) (t : CodeTree) : Nat := (t.leaves.map count).sum

/-- The weighted path length of a tree: each leaf's count times its depth, summed (R103, R127). -/
def CodeTree.cost (count : Symbol → Nat) : CodeTree → Nat
  | .leaf _ => 0
  | .node z o => z.cost count + o.cost count + z.weight count + o.weight count

/-- The host's next operation, if any, keeps the host contract of R69. -/
def State.HostAligned (s : State) : Prop := ∀ op ∈ s.program.head?, op.wellFormed = true

/-- A step that neither faults nor is refused. -/
def Safe (o : Host.Outcome State Fault Refusal) : Prop := ∃ t, o = .next t

end Sys2Proof.Machine
end

