-- ==== Sys2Proof/Certificates/Slice0/Obligations.lean ====
section
/-! DEFINITION. The statements for the provers. Each is one or more of the spec's numbered rules said of this model; the
docstring names the rules. `exec i s` is the completion step of command `i` (R140, R141). -/

open Sys2Proof Sys2Proof.Machine

/-! ### Encoding -/

/-- The seven command words, and one word of each illegal kind, decode as 30_encoding.md writes them (R81, R83, R85; the
words of V17). -/
def Obligations.SpecWordsDecode : Prop :=
  decode 0x00000001 = .command .count ∧ decode 0x00000002 = .command .build ∧ decode 0x00000003 = .command .tenc ∧
  decode 0x00000004 = .command .tdec ∧ decode 0x00000005 = .command .paths ∧ decode 0x00000006 = .command .senc ∧
  decode 0x00000007 = .command .sdec ∧ decode 0x00000000 = .illegal .opZero ∧
  decode 0x00000008 = .illegal .opUnassigned ∧ decode 0x000000FF = .illegal .opUnassigned ∧
  decode 0x00000101 = .illegal .reservedNonzero ∧ decode 0x80000006 = .illegal .reservedNonzero

/-- Decode and encode agree in both directions: a word decodes to a command exactly when it is that command's encoding, so
the encoding of every command decodes to it and no other word does (R81, R85). -/
def Obligations.DecodeAcceptsExactlyTheEncodings : Prop :=
  ∀ (w : Word) (i : Instr), decode w = .command i ↔ w = encode i

/-- R83: every word with RSV ≠ 0, OP = 0x00 or OP from 0x08 to 0xFF is accepted like any other, then completes with
BAD_COMMAND and ERR_INFO = the word, and no other state changes; every other word is one of the seven commands. -/
def Obligations.IllegalWordsCompleteWithBadCommand : Prop :=
  ∀ w : Word,
    (w.extractLsb' 8 24 ≠ 0 ∨ w.extractLsb' 0 8 = 0 ∨ 8 ≤ (w.extractLsb' 0 8).toNat →
      (∀ s : State, s.eng = .idle → s.memWrite 0x010 w = s.accept w) ∧
      ∀ s : State, s.eng = .busy w →
        engineStep s = .next { s with eng := .idle, done := true, errCode := 0x0D, errInfo := w }) ∧
    (¬ (w.extractLsb' 8 24 ≠ 0 ∨ w.extractLsb' 0 8 = 0 ∨ 8 ≤ (w.extractLsb' 0 8).toNat) → ∃ i, w = encode i)

/-! ### Steps -/

/-- A step runs the decoded instruction: when the engine moves with a word accepted that decodes to `i`, the step is
`exec i` on the state with the turn taken off the schedule; a step of the engine is `engineStep` on that state, whatever
is accepted; and `withFetchWord` makes a table word's instruction the one the very next step runs, on the state acceptance
leaves (R138, R139, R140). The schedule and `withFetchWord` are the model's own (log entries 1 and 2). -/
def Obligations.StepRunsTheAcceptedCommand : Prop :=
  (∀ (s : State) (w : Word) (i : Instr), s.eng = .busy w → decode w = .command i → s.nextTurn = .engine →
    step s = exec i { s with turns := s.turns.tail }) ∧
  (∀ s : State, s.nextTurn = .engine → step s = engineStep { s with turns := s.turns.tail }) ∧
  ∀ (s : State) (nbits w : Nat) (i : Instr), decodeTableWord nbits w = some i →
    step (s.withFetchWord nbits w) = exec i (s.accept (tableWord nbits w))

/-- When the host moves, its WR and RD are one MemWrite and one MemRead at an aligned offset: after RD the state is the one
MemRead leaves, with the value read in front of `reads` and nothing else changed;
with `off[1:0] ≠ 0` either is refused (R60, R61, R69, R86). The schedule and the list of values read are the model's own
(log entries 1 and 18). -/
def Obligations.HostAccessesAreOneStep : Prop :=
  ∀ (s : State) (off : Offset) (v : Word) (rest : List HostOp), s.nextTurn = .host →
    (off.toNat % 4 = 0 → s.program = .wr off v :: rest →
      step s = .next ({ s with program := rest, turns := s.turns.tail }.memWrite off.toNat v)) ∧
    (off.toNat % 4 = 0 → s.program = .rd off :: rest →
      step s = .next { ({ s with program := rest, turns := s.turns.tail }.memRead off.toNat).2 with
        reads := ({ s with program := rest, turns := s.turns.tail }.memRead off.toNat).1 :: s.reads }) ∧
    (off.toNat % 4 ≠ 0 → s.program = .wr off v :: rest → step s = .refused .misalignedAccess) ∧
    (off.toNat % 4 ≠ 0 → s.program = .rd off :: rest → step s = .refused .misalignedAccess)

/-- WAIT reads STATUS once a step and ends at the first read with BUSY = 0 (R88); the last part of RUN! reads ERR_CODE and
ends the host program when it is not 0 (R89); GETTEXT reads OUT_LEN and goes on with that many reads of TEXT_OUT (R91).
One read a step is the model's granularity (log entry 16). -/
def Obligations.HostPseudoOperationsStep : Prop :=
  ∀ (s : State) (rest : List HostOp), s.nextTurn = .host →
    (s.program = .waitIdle :: rest →
      step s = .next { s with
        program := if s.busy then s.program else rest, reads := s.statusWord :: s.reads, turns := s.turns.tail }) ∧
    (s.program = .checkErr :: rest →
      step s = .next { s with
        program := if s.errCode = 0 then rest else []
        reads := s.errCode.setWidth 32 :: s.reads, turns := s.turns.tail }) ∧
    (s.program = .getText :: rest →
      step s = .next { s with
        program := (List.range s.outLen.toNat).map (fun i => .rd (BitVec.ofNat 22 (0x200000 + 4 * i))) ++ rest
        reads := s.outLen :: s.reads, turns := s.turns.tail })

/-! ### Command lifecycle and registers -/

/-- R138: a write of `w` to CMD while idle sets CMD, the engine state, DONE, ERR_CODE and ERR_INFO and nothing else,
whatever `w` is; while busy it is dropped. -/
def Obligations.CommandWriteIsAcceptedWhenIdle : Prop :=
  ∀ (s : State) (w : Word),
    (s.eng = .idle →
      s.memWrite 0x010 w = { s with cmd := w, eng := .busy w, done := false, errCode := 0, errInfo := 0 } ∧
      (s.memWrite 0x010 w).busy = true) ∧
    (s.eng ≠ .idle → s.memWrite 0x010 w = { s with wbusy := true })

/-- R32: while busy, a write to any offset but CTRL and STATUS changes nothing but WBUSY, which it sets. -/
def Obligations.BusyWritesAreDropped : Prop :=
  ∀ (s : State) (w v : Word) (off : Nat), s.eng = .busy w → off ≠ 0x008 → off ≠ 0x00C →
    s.memWrite off v = { s with wbusy := true }

/-- STATUS (R26): each bit reads its field, bits 31:6 read 0, ERR is (ERR_CODE ≠ 0); a write, busy or not, clears DONE and
WBUSY where the written bit is 1 and changes nothing else. -/
def Obligations.StatusReadsAndClears : Prop :=
  ∀ (s : State) (v : Word),
    (∀ i, (s.memRead 0x00C).1.getLsbD i =
      ((i == 0 && s.busy) || (i == 1 && s.done) || (i == 2 && s.errCode != 0) || (i == 3 && s.treeValid) ||
        (i == 4 && s.pathsValid) || (i == 5 && s.wbusy))) ∧
    s.memWrite 0x00C v =
      { s with done := s.done && !v.getLsbD 1, wbusy := s.wbusy && !v.getLsbD 5 }

/-- CTRL (R25): a read returns IE in bit 0 and 0 elsewhere; a write with bit 1 clear stores IE and nothing else, busy or
not; with bit 1 set it is the soft reset. -/
def Obligations.CtrlReadsAndWrites : Prop :=
  ∀ (s : State) (v : Word),
    (∀ i, (s.memRead 0x008).1.getLsbD i = (i == 0 && s.ie)) ∧
    (v.getLsbD 1 = false → s.memWrite 0x008 v = { s with ie := v.getLsbD 0 }) ∧
    (v.getLsbD 1 = true → s.memWrite 0x008 v = s.softReset)

/-- Soft reset (R161): every register at its reset value, the engine idle; the bytes of the regions the abandoned command
writes are free values of a new draw (R12's `unspecified`, log entries 4 and 6); every byte of no such region is unchanged;
the capacity constants and the host are untouched. -/
def Obligations.SoftResetAbandonsTheCommand : Prop :=
  ∀ (s : State) (v : Word), v.getLsbD 1 = true →
    ∃ t, s.memWrite 0x008 v = t ∧
      t = { State.reset with
        capText := s.capText, capMsg := s.capMsg, mem := t.mem, epochs := t.epochs, draws := t.draws
        program := s.program, reads := s.reads, turns := s.turns } ∧
      (∀ a r, s.regionOf a = some r → r ∈ s.runningRegions → t.byteAt a = Config.freeByte s.draws a) ∧
      (∀ a, (∀ r ∈ s.runningRegions, r.owns s.capText.toNat s.capMsg.toNat a = false) → t.byteAt a = s.byteAt a) ∧
      s.draws < t.draws ∧
      (s.eng = .idle → s.runningRegions = []) ∧
      (∀ w, s.eng = .busy w → (∀ i, w ≠ encode i) → s.runningRegions = []) ∧
      ∀ i, s.eng = .busy (encode i) → s.runningRegions =
        match i with
        | .count => [Region.freq]
        | .build => [.node]
        | .tenc => [.treeBits, .treeLeaves]
        | .tdec => [.node]
        | .paths => [.codeLen, .codeBits]
        | .senc => [.codeLen, .codeBits, .msgBits]
        | .sdec => [.textOut]

/-- Hardware reset (R160, R45): a step with `rst_n` low leaves the engine idle, every register at its reset value, every
byte of local memory a free value of a new draw, and `irq` = 0. The schedule that says when `rst_n` is low is the model's
own, and so is the host program's survival (log entries 1 and 19). -/
def Obligations.HardwareResetClearsTheBlock : Prop :=
  ∀ s : State, s.nextTurn = .resetPin →
    ∃ t, step s = .next t ∧
      t = { State.reset with
        capText := s.capText, capMsg := s.capMsg, mem := t.mem, epochs := t.epochs, draws := t.draws
        program := s.program, reads := s.reads, turns := s.turns.tail } ∧
      (∀ a r, s.regionOf a = some r → t.byteAt a = Config.freeByte s.draws a) ∧ s.draws < t.draws ∧ t.irq = false

/-- The reset state (R45, first column; the host's reads of V18 row 1): idle, every register 0 but the constants, every
byte of local memory a free value. That this instance has the spec's default parameters (R8) is the model's choice (log
entry 8), and so is the number 0 of the draw (log entry 22). -/
def Obligations.ResetStateReadsAsSpecified : Prop :=
  State.reset.eng = .idle ∧ State.reset.irq = false ∧
  (State.reset.memRead 0x000).1 = 0x48554646 ∧ (State.reset.memRead 0x004).1 = 0x00010000 ∧
  (∀ off, 0x008 ≤ off → off < 0x03C → (State.reset.memRead off).1 = 0) ∧
  (State.reset.memRead 0x03C).1 = 65536 ∧ (State.reset.memRead 0x040).1 = 1048576 ∧
  ∀ a r, State.reset.regionOf a = some r → State.reset.byteAt a = Config.freeByte 0 a

/-- R148: `irq = DONE AND IE`; clearing IE masks it without clearing DONE; it falls when a host write of 1 to STATUS bit 1,
an acceptance or a reset clears DONE; setting IE while DONE = 1 raises it at once; completion sets DONE. -/
def Obligations.InterruptOutput : Prop :=
  ∀ (s : State) (v : Word),
    s.irq = (s.done && s.ie) ∧
    (v.getLsbD 1 = false → v.getLsbD 0 = false →
      (s.memWrite 0x008 v).irq = false ∧ (s.memWrite 0x008 v).done = s.done) ∧
    (v.getLsbD 1 = false → v.getLsbD 0 = true → (s.memWrite 0x008 v).irq = s.done) ∧
    (v.getLsbD 1 = true → (s.memWrite 0x00C v).irq = false ∧ (s.memWrite 0x008 v).irq = false) ∧
    (s.eng = .idle → (s.memWrite 0x010 v).irq = false) ∧ s.hardReset.irq = false ∧
    ∀ i t, exec i s = .next t → t.done = true ∧ t.ie = s.ie

/-- The register page (R22 to R31): what each register's offset reads, CTRL and STATUS as the sums of their bits' values,
and the reserved offsets 0x044 to 0xFFC, which read 0; and no read of the page changes the state. -/
def Obligations.RegisterPageReads : Prop :=
  ∀ s : State,
    (s.memRead 0x000).1 = 0x48554646 ∧ (s.memRead 0x004).1 = 0x00010000 ∧
    (s.memRead 0x008).1.toNat = s.ie.toNat ∧
    (s.memRead 0x00C).1.toNat = s.busy.toNat + 2 * s.done.toNat + 4 * (s.errCode != 0).toNat +
      8 * s.treeValid.toNat + 16 * s.pathsValid.toNat + 32 * s.wbusy.toNat ∧
    (s.memRead 0x010).1 = s.cmd ∧
    (s.memRead 0x014).1.toNat = s.errCode.toNat ∧ (s.memRead 0x018).1 = s.errInfo ∧
    (s.memRead 0x01C).1 = s.textLen ∧ (s.memRead 0x020).1 = s.outLen ∧ (s.memRead 0x024).1 = s.msgLen ∧
    (s.memRead 0x028).1 = s.treeBitsLen ∧ (s.memRead 0x02C).1 = s.treeLeavesLen ∧
    (s.memRead 0x030).1.toNat = s.distinct.toNat ∧ (s.memRead 0x034).1.toNat = s.root.toNat ∧
    (s.memRead 0x038).1.toNat = s.nodeCount.toNat ∧ (s.memRead 0x03C).1 = s.capText ∧
    (s.memRead 0x040).1 = s.capMsg ∧ (∀ off, 0x044 ≤ off → off < 0x1000 → (s.memRead off).1 = 0) ∧
    ∀ off < 0x1000, (s.memRead off).2 = s

/-- Idle writes in the register page (R22, R30): each RW length register stores any 32-bit value, and a write to an RO or
reserved offset changes nothing. -/
def Obligations.RegisterPageWrites : Prop :=
  ∀ (s : State) (v : Word) (off : Nat), s.eng = .idle → off < 0x1000 → off % 4 = 0 →
    off ≠ 0x008 → off ≠ 0x00C → off ≠ 0x010 →
    s.memWrite off v =
      if off = 0x01C then { s with textLen := v }
      else if off = 0x024 then { s with msgLen := v }
      else if off = 0x028 then { s with treeBitsLen := v }
      else if off = 0x02C then { s with treeLeavesLen := v }
      else s

/-! ### Windows -/

/-- R66: an unmapped offset reads 0, an idle write to it changes nothing, and a busy one sets WBUSY and nothing else.
Unmapped are the reserved registers, and every offset of no window: the gaps between windows (0x0027FC among them), and
those of TEXT_IN, TEXT_OUT and MSG_BITS past the configured capacity. -/
def Obligations.UnmappedOffsetsReadZero : Prop :=
  ∀ (s : State), s.CapsOk →
    (∀ (off : Nat) (v : Word), (0x044 ≤ off ∧ off < 0x1000) ∨ (0x1000 ≤ off ∧ s.regionOf off = none) →
      s.memRead off = (0, s) ∧ (s.eng = .idle → s.memWrite off v = s) ∧
        (s.eng ≠ .idle → s.memWrite off v = { s with wbusy := true })) ∧
    (∀ off, (0x1400 ≤ off ∧ off < 0x2000) ∨ (0x27FC ≤ off ∧ off < 0x3000) ∨ (0x3040 ≤ off ∧ off < 0x3400) ∨
      (0x3800 ≤ off ∧ off < 0x4000) ∨ (0x4400 ≤ off ∧ off < 0x8000) ∨ (0xA000 ≤ off ∧ off < 0x100000) →
      s.regionOf off = none) ∧
    (∀ i, s.capText.toNat ≤ i → 0x100000 + 4 * i < 0x200000 → s.regionOf (0x100000 + 4 * i) = none) ∧
    (∀ i, s.capText.toNat ≤ i → 0x200000 + 4 * i < 0x300000 → s.regionOf (0x200000 + 4 * i) = none) ∧
    (∀ i, s.capMsg.toNat / 32 ≤ i → 0x300000 + 4 * i < 0x400000 → s.regionOf (0x300000 + 4 * i) = none)

/-- The windows of R62. The first clause is the address map: which aligned offsets lie in which window. The second: in
every window but NODE, CODE_LEN and CODE_BITS, so in each RW one, an idle read after an idle write returns the word as
written, or in a symbol window its bits 7:0 zero-extended (R63, R65, R71). The third: an idle read at the offset R62 gives
an element returns that element, bit sequences packed as R64 says (its premise MemOk is the model's canonical form, log
entry 5, which every step keeps). -/
def Obligations.WindowReadAfterWrite : Prop :=
  ∀ s : State, s.CapsOk →
    (∀ off, off % 4 = 0 →
      (s.regionOf off = some .freq ↔ 0x001000 ≤ off ∧ off ≤ 0x0013FC) ∧
      (s.regionOf off = some .node ↔ 0x002000 ≤ off ∧ off ≤ 0x0027F8) ∧
      (s.regionOf off = some .treeBits ↔ 0x003000 ≤ off ∧ off ≤ 0x00303C) ∧
      (s.regionOf off = some .treeLeaves ↔ 0x003400 ≤ off ∧ off ≤ 0x0037FC) ∧
      (s.regionOf off = some .codeLen ↔ 0x004000 ≤ off ∧ off ≤ 0x0043FC) ∧
      (s.regionOf off = some .codeBits ↔ 0x008000 ≤ off ∧ off ≤ 0x009FFC) ∧
      (s.regionOf off = some .textIn ↔ 0x100000 ≤ off ∧ off ≤ 0x100000 + 4 * (s.capText.toNat - 1)) ∧
      (s.regionOf off = some .textOut ↔ 0x200000 ≤ off ∧ off ≤ 0x200000 + 4 * (s.capText.toNat - 1)) ∧
      (s.regionOf off = some .msgBits ↔ 0x300000 ≤ off ∧ off ≤ 0x300000 + 4 * (s.capMsg.toNat / 32 - 1))) ∧
    (∀ (off : Nat) (v : Word) (r : Region), s.eng = .idle → off % 4 = 0 → s.regionOf off = some r →
      r ≠ .node → r ≠ .codeLen → r ≠ .codeBits →
      ((s.memWrite off v).memRead off).1 =
        if r = .treeLeaves ∨ r = .textIn ∨ r = .textOut then (v.extractLsb' 0 8).setWidth 32 else v) ∧
    (s.eng = .idle → s.MemOk →
      (∀ i < 256, (s.memRead (0x001000 + 4 * i)).1 = s.freqAt i) ∧
      (∀ i < 511, (s.memRead (0x002000 + 4 * i)).1 = s.nodeAt i) ∧
      (∀ w < 16, ∀ b < 32, (s.memRead (0x003000 + 4 * w)).1.getLsbD b = s.treeBitAt (32 * w + b)) ∧
      (∀ j < 256, (s.memRead (0x003400 + 4 * j)).1 = (s.treeLeafAt j).setWidth 32) ∧
      (∀ i < 256, (s.memRead (0x004000 + 4 * i)).1 = (s.codeLenAt i).setWidth 32) ∧
      (∀ i < 256, ∀ w < 8, ∀ b < 32,
        (s.memRead (0x008000 + 32 * i + 4 * w)).1.getLsbD b = s.codeBitAt i (32 * w + b)) ∧
      (∀ i < s.capText.toNat, (s.memRead (0x100000 + 4 * i)).1 = (s.textInAt i).setWidth 32) ∧
      (∀ i < s.capText.toNat, (s.memRead (0x200000 + 4 * i)).1 = (s.textOutAt i).setWidth 32) ∧
      ∀ w < s.capMsg.toNat / 32, ∀ b < 32, (s.memRead (0x300000 + 4 * w)).1.getLsbD b = s.msgBitAt (32 * w + b))

/-- A write to a window changes that one word and nothing else: the four bytes from its offset in a RW window; no state at
all in an RO window (NODE, CODE_LEN, CODE_BITS) (R63). -/
def Obligations.WindowWriteFrame : Prop :=
  ∀ (s : State) (off : Nat) (v : Word) (r : Region), s.eng = .idle → off % 4 = 0 → 0x1000 ≤ off →
    s.regionOf off = some r →
    (s.memWrite off v = { s with mem := (s.memWrite off v).mem } ∧
      SameBytesOutside off (off + 4) s (s.memWrite off v)) ∧
    (r = .node ∨ r = .codeLen ∨ r = .codeBits → s.memWrite off v = s)

/-- R68: while a command runs, a window read of a region it may write returns a free value, a new one at each read; a
window read of any other region returns its stored word; a register read returns the register's value. The last clause
lists the regions each command's rule says it writes. That the free value is a whole 32-bit word in every window, a symbol
window included, and the counter that tells the draws apart are the model's choice (log entry 7). -/
def Obligations.ReadsWhileBusy : Prop :=
  ∀ (s : State) (w : Word) (off : Nat) (r : Region), s.eng = .busy w →
    (0x1000 ≤ off → s.regionOf off = some r → r ∈ s.runningRegions →
      (s.memRead off).1 = Config.freeWord s.draws ∧ (s.memRead off).2 = { s with draws := s.draws + 1 }) ∧
    (0x1000 ≤ off → s.regionOf off = some r → r ∉ s.runningRegions → s.memRead off = (s.wordAt off, s)) ∧
    (off < 0x1000 → s.memRead off = (s.readReg off, s)) ∧
    ∀ i, w = encode i → s.runningRegions =
      match i with
      | .count => [Region.freq]
      | .build => [.node]
      | .tenc => [.treeBits, .treeLeaves]
      | .tdec => [.node]
      | .paths => [.codeLen, .codeBits]
      | .senc => [.codeLen, .codeBits, .msgBits]
      | .sdec => [.textOut]

/-- No read has a side effect: the state after it differs only in the model's own draw counter, and while idle not at all
(R60, R70). -/
def Obligations.ReadsHaveNoSideEffect : Prop :=
  ∀ (s : State) (off : Nat),
    (s.memRead off).2 = { s with draws := (s.memRead off).2.draws } ∧ (s.eng = .idle → (s.memRead off).2 = s)

/-! ### Check-phase errors, in their order (R142, R143, R144): they change only the status registers -/

/-- BAD_LENGTH comes first: COUNT and SENC with TEXT_LEN > MAX_TEXT, TDEC with TREE_BITS_LEN > 511 and then
TREE_LEAVES_LEN > 256, SDEC with MSG_LEN > MAX_MSG_BITS; ERR_INFO is the register's offset. -/
def Obligations.BadLengthIsReportedFirst : Prop :=
  ∀ s : State,
    (s.capText.toNat < s.textLen.toNat →
      exec .count s = .next { s with eng := .idle, done := true, errCode := 0x0C, errInfo := 0x1C } ∧
      exec .senc s = .next { s with eng := .idle, done := true, errCode := 0x0C, errInfo := 0x1C }) ∧
    (511 < s.treeBitsLen.toNat →
      exec .tdec s = .next { s with eng := .idle, done := true, errCode := 0x0C, errInfo := 0x28 }) ∧
    (s.treeBitsLen.toNat ≤ 511 → 256 < s.treeLeavesLen.toNat →
      exec .tdec s = .next { s with eng := .idle, done := true, errCode := 0x0C, errInfo := 0x2C }) ∧
    (s.capMsg.toNat < s.msgLen.toNat →
      exec .sdec s = .next { s with eng := .idle, done := true, errCode := 0x0C, errInfo := 0x24 })

/-- NO_TREE: TENC and PATHS with TREE_VALID = 0, and SENC and SDEC with their length in range. -/
def Obligations.NoTreeIsReported : Prop :=
  ∀ s : State, s.treeValid = false →
    exec .tenc s = .next { s with eng := .idle, done := true, errCode := 0x06, errInfo := 0 } ∧
    exec .paths s = .next { s with eng := .idle, done := true, errCode := 0x06, errInfo := 0 } ∧
    (s.textLen.toNat ≤ s.capText.toNat →
      exec .senc s = .next { s with eng := .idle, done := true, errCode := 0x06, errInfo := 0 }) ∧
    (s.msgLen.toNat ≤ s.capMsg.toNat →
      exec .sdec s = .next { s with eng := .idle, done := true, errCode := 0x06, errInfo := 0 })

/-- DEGENERATE_TREE: PATHS, SENC and SDEC with a valid tree whose root is a leaf. -/
def Obligations.DegenerateTreeIsReported : Prop :=
  ∀ s : State, s.treeValid = true → (s.nodeAt s.root.toNat).getLsbD 31 = true →
    exec .paths s = .next { s with eng := .idle, done := true, errCode := 0x07, errInfo := 0 } ∧
    (s.textLen.toNat ≤ s.capText.toNat →
      exec .senc s = .next { s with eng := .idle, done := true, errCode := 0x07, errInfo := 0 }) ∧
    (s.msgLen.toNat ≤ s.capMsg.toNat →
      exec .sdec s = .next { s with eng := .idle, done := true, errCode := 0x07, errInfo := 0 })

/-! ### COUNT (R95, R96) -/

/-- COUNT with TEXT_LEN in range completes: FREQ[x] is the number of occurrences of `x` in the text, DISTINCT the number k
of distinct symbols; with k < 2 the error is INVALID_INPUT with detail k, otherwise it succeeds; the tree is untouched. -/
def Obligations.CountCountsTheText : Prop :=
  ∀ s : State, s.CapsOk → s.textLen.toNat ≤ s.capText.toNat →
    ∃ t, exec .count s = .next t ∧
      (∀ x : Symbol, (t.freqAt x.toNat).toNat = s.text.count x) ∧
      t.distinct.toNat = s.text.dedup.length ∧ t.eng = .idle ∧ t.done = true ∧
      t.treeValid = s.treeValid ∧ t.pathsValid = s.pathsValid ∧
      (if s.text.dedup.length < 2 then t.errCode = 0x01 ∧ t.errInfo.toNat = s.text.dedup.length
        else t.errCode = 0 ∧ t.errInfo = 0)

/-- COUNT changes no register but DISTINCT, ERR_CODE, ERR_INFO and STATUS, and no byte outside FREQ. -/
def Obligations.CountFrame : Prop :=
  ∀ s t : State, exec .count s = .next t →
    t = { s with
      eng := .idle, done := true, errCode := t.errCode, errInfo := t.errInfo, distinct := t.distinct
      mem := t.mem } ∧
    SameBytesOutside 0x1000 0x1400 s t

/-! ### BUILD (R97 to R104) -/

/-- BUILD with fewer than two nonzero counts ends in INVALID_INPUT with detail k, DISTINCT = k, the old tree invalid and
NODE unchanged. -/
def Obligations.BuildRejectsFewerThanTwoSymbols : Prop :=
  ∀ (s : State) (k : Nat), k = (List.range 256).countP (fun i => decide (s.freqAt i ≠ 0)) → k < 2 →
    exec .build s = .next { s with
      eng := .idle, done := true, errCode := 0x01, errInfo := BitVec.ofNat 32 k, distinct := BitVec.ofNat 9 k
      treeValid := false, pathsValid := false, root := 0, nodeCount := 0 }

/-- BUILD with k ≥ 2 nonzero counts succeeds: the registers and flags of R101, and NODE[0 .. 2k−2] the leaves of the
present symbols in increasing order followed by the k−1 merges from the working set of their counts. -/
def Obligations.BuildWritesLeavesThenMerges : Prop :=
  ∀ (s : State) (l : List Nat) (q : List QEntry),
    l = (List.range 256).filter (fun i => decide (s.freqAt i ≠ 0)) → 2 ≤ l.length →
    q = queueOf (l.zipIdx.map (fun p => ((s.freqAt p.1).setWidth 40, p.2))) →
    ∃ t, exec .build s = .next t ∧
      t.errCode = 0 ∧ t.errInfo = 0 ∧ t.eng = .idle ∧ t.done = true ∧ t.treeValid = true ∧ t.pathsValid = false ∧
      t.distinct.toNat = l.length ∧ t.root.toNat = 2 * l.length - 2 ∧ t.nodeCount.toNat = 2 * l.length - 1 ∧
      (List.range (2 * l.length - 1)).map t.nodeAt =
        l.map (fun x => 0x80000000 ||| BitVec.ofNat 32 x) ++ mergeNodes (l.length - 1) q l.length

/-- The working set (R98, R99, R100): it holds exactly the elements put in, in the order smaller weight first and smaller
seq first between equal weights, so that the two extracted are the two least; each merge makes the node (zero = first
extracted, one = second) and re-inserts the sum of their weights under the node's own index. No weight wraps in 40 bits:
the set BUILD starts from weighs what its symbols' counts sum to, below 2^40 for at most 256 symbols; and where a set
weighs less than 2^40, the sum a merge re-inserts is exact and the set the merge leaves weighs the same. Keeping the set
as a sorted list is the model's (log entry 21). -/
def Obligations.MergesTakeTheTwoLeast : Prop :=
  (∀ es : List QEntry, (es.map (·.2)).Nodup →
    (queueOf es).Perm es ∧
    (queueOf es).Pairwise (fun a b => a.1.toNat < b.1.toNat ∨ (a.1 = b.1 ∧ a.2 < b.2))) ∧
  (∀ (e : QEntry) (q : List QEntry), ((e :: q).map (·.2)).Nodup →
    q.Pairwise (fun a b => a.1.toNat < b.1.toNat ∨ (a.1 = b.1 ∧ a.2 < b.2)) →
    (queueInsert e q).Perm (e :: q) ∧
    (queueInsert e q).Pairwise (fun a b => a.1.toNat < b.1.toNat ∨ (a.1 = b.1 ∧ a.2 < b.2))) ∧
  (∀ (n m : Nat) (w1 w2 : Weight) (a b : Nat) (q : List QEntry),
    mergeNodes (n + 1) ((w1, a) :: (w2, b) :: q) m =
      (BitVec.ofNat 32 b <<< 16 ||| BitVec.ofNat 32 a) :: mergeNodes n (queueInsert (w1 + w2, m) q) (m + 1)) ∧
  (∀ (freq : Nat → Word) (l : List Nat) (q : List QEntry), l.length ≤ 256 →
    q = queueOf (l.zipIdx.map (fun p => ((freq p.1).setWidth 40, p.2))) →
    (q.map (fun e => e.1.toNat)).sum = (l.map (fun x => (freq x).toNat)).sum ∧
    (q.map (fun e => e.1.toNat)).sum < 2 ^ 40) ∧
  ∀ (w1 w2 : Weight) (a b m : Nat) (q : List QEntry),
    ((((w1, a) :: (w2, b) :: q : List QEntry)).map (fun e => e.1.toNat)).sum < 2 ^ 40 →
    (w1 + w2).toNat = w1.toNat + w2.toNat ∧
    ((queueInsert (w1 + w2, m) q).map (fun e => e.1.toNat)).sum =
      ((((w1, a) :: (w2, b) :: q : List QEntry)).map (fun e => e.1.toNat)).sum

/-- R102: the shape of a successful BUILD: leaves at 0 to k−1 in increasing symbol order, exactly the symbols with a
nonzero count; interior nodes at k to 2k−2, their children at smaller indices; ROOT = 2k−2; a tree of k leaves and k−1
interior nodes, of height at most k−1 ≤ 255. -/
def Obligations.BuildShape : Prop :=
  ∀ s t : State, exec .build s = .next t → t.errCode = 0 →
    (∀ i < t.distinct.toNat, nodeIsLeaf (t.nodeAt i) = true) ∧
    (∀ i j, i < j → j < t.distinct.toNat → (nodeSym (t.nodeAt i)).toNat < (nodeSym (t.nodeAt j)).toNat) ∧
    (∀ x : Symbol, (∃ i < t.distinct.toNat, nodeSym (t.nodeAt i) = x) ↔ s.freqAt x.toNat ≠ 0) ∧
    (∀ i, t.distinct.toNat ≤ i → i < 2 * t.distinct.toNat - 1 →
      nodeIsLeaf (t.nodeAt i) = false ∧ nodeZero (t.nodeAt i) < i ∧ nodeOne (t.nodeAt i) < i) ∧
    t.root.toNat = 2 * t.distinct.toNat - 2 ∧
    ∃ tr, t.currentTree = some tr ∧ tr.leaves.length = t.distinct.toNat ∧ tr.leaves.Nodup ∧
      (∀ x : Symbol, x ∈ tr.leaves ↔ s.freqAt x.toNat ≠ 0) ∧
      tr.size = 2 * t.distinct.toNat - 1 ∧ tr.height ≤ t.distinct.toNat - 1 ∧ t.distinct.toNat ≤ 256

/-- R103: the tree BUILD makes has the least weighted path length of all trees with its leaves. -/
def Obligations.BuildTreeIsOptimal : Prop :=
  ∀ (s t : State) (tr : CodeTree), exec .build s = .next t → t.errCode = 0 → t.currentTree = some tr →
    ∀ u : CodeTree, u.leaves.Perm tr.leaves →
      tr.cost (fun x => (s.freqAt x.toNat).toNat) ≤ u.cost (fun x => (s.freqAt x.toNat).toNat)

/-- BUILD changes no register but DISTINCT, ROOT, NODE_COUNT, ERR_CODE, ERR_INFO and STATUS, and no byte outside
NODE[0 .. 2k−2], k the number of nonzero counts (FREQ among the unchanged). -/
def Obligations.BuildFrame : Prop :=
  ∀ (s t : State) (k : Nat), k = (List.range 256).countP (fun i => decide (s.freqAt i ≠ 0)) →
    exec .build s = .next t →
    t = { s with
      eng := .idle, done := true, errCode := t.errCode, errInfo := t.errInfo, distinct := t.distinct
      root := t.root, nodeCount := t.nodeCount, treeValid := t.treeValid, pathsValid := false
      mem := t.mem } ∧
    SameBytesOutside 0x2000 (0x2000 + 4 * (2 * k - 1)) s t

/-! ### TENC (R110, R111) -/

/-- TENC with a valid tree: TREE_BITS and TREE_LEAVES hold its pre-order bits and leaf symbols, the length registers their
lengths, the unused bits of the last word 0; it succeeds and the tree flags are unchanged. -/
def Obligations.TencFlattensTheTree : Prop :=
  ∀ (s : State) (tr : CodeTree), s.treeValid = true → s.currentTree = some tr →
    ∃ t, exec .tenc s = .next t ∧
      t.treeBitsLen.toNat = tr.bits.length ∧ t.treeLeavesLen.toNat = tr.leaves.length ∧
      t.treeBitSeq = tr.bits ∧ t.treeLeafSeq = tr.leaves ∧
      (∀ i, tr.bits.length ≤ i → i < 32 * ((tr.bits.length + 31) / 32) → t.treeBitAt i = false) ∧
      t.errCode = 0 ∧ t.errInfo = 0 ∧ t.eng = .idle ∧ t.done = true ∧
      t.treeValid = s.treeValid ∧ t.pathsValid = s.pathsValid ∧ t.currentTree = some tr

/-- R111: TENC of a valid tree emits its bits and leaf symbols; a tree of N nodes and k leaves has N bits, k of them 0 and
k−1 of them 1, and k symbols, N = 2k−1; and the two sequences determine the tree, shape and symbols. -/
def Obligations.FlatteningDeterminesTheTree : Prop :=
  (∀ s : State, s.treeValid = true → s.ArenaOk →
    ∃ t tr, exec .tenc s = .next t ∧ s.currentTree = some tr ∧ tr.size = s.nodeCount.toNat ∧
      t.treeBitSeq = tr.bits ∧ t.treeLeafSeq = tr.leaves) ∧
  (∀ t : CodeTree, t.bits.length = t.size ∧ t.bits.count false = t.leaves.length ∧
    t.bits.count true = t.leaves.length - 1 ∧ t.size = 2 * t.leaves.length - 1 ∧ 1 ≤ t.leaves.length) ∧
  ∀ t u : CodeTree, t.bits = u.bits → t.leaves = u.leaves → t = u

/-- TENC changes no register but TREE_BITS_LEN, TREE_LEAVES_LEN, ERR_CODE, ERR_INFO and STATUS, and no byte outside the
words of TREE_BITS and the entries of TREE_LEAVES its output takes; with no valid tree it changes no byte. -/
def Obligations.TencFrame : Prop :=
  ∀ s t : State, exec .tenc s = .next t →
    t = { s with
      eng := .idle, done := true, errCode := t.errCode, errInfo := t.errInfo
      treeBitsLen := t.treeBitsLen, treeLeavesLen := t.treeLeavesLen, mem := t.mem } ∧
    (∀ (tr : CodeTree) (a : Nat), s.currentTree = some tr →
      (a < 0x3000 ∨ 0x3000 + 4 * ((tr.bits.length + 31) / 32) ≤ a) →
      (a < 0x3400 ∨ 0x3400 + 4 * tr.leaves.length ≤ a) → t.byteAt a = s.byteAt a) ∧
    (s.treeValid = false → ∀ a, t.byteAt a = s.byteAt a)

/-! ### TDEC (R115 to R120) -/

/-- TDEC rebuilds every flattened tree: when TREE_BITS and TREE_LEAVES hold the flattening of a tree with at most 256
leaves, all distinct, it succeeds and that tree is the current one, its root at 0 and its nodes numbered in pre-order
(R115, R117). -/
def Obligations.TdecRebuildsAFlattenedTree : Prop :=
  ∀ (s : State) (tr : CodeTree), tr.leaves.Nodup → tr.leaves.length ≤ 256 →
    s.treeBitSeq = tr.bits → s.treeLeafSeq = tr.leaves →
    ∃ t, exec .tdec s = .next t ∧ t.errCode = 0 ∧ t.errInfo = 0 ∧ t.eng = .idle ∧ t.done = true ∧
      t.treeValid = true ∧ t.pathsValid = false ∧ t.root = 0 ∧ t.nodeCount.toNat = tr.bits.length ∧
      t.currentTree = some tr ∧ t.indicesAt 511 0 = List.range tr.bits.length

/-- TDEC accepts nothing else: when it succeeds, the two sequences are the flattening of one tree with distinct leaves,
of at most 256 leaves, 511 nodes and height 255 (R116, R120). -/
def Obligations.TdecAcceptsOnlyFlattenedTrees : Prop :=
  ∀ s t : State, exec .tdec s = .next t → t.errCode = 0 →
    ∃ tr : CodeTree, s.treeBitSeq = tr.bits ∧ s.treeLeafSeq = tr.leaves ∧ tr.leaves.Nodup ∧
      t.currentTree = some tr ∧ tr.leaves.length ≤ 256 ∧ tr.size ≤ 511 ∧ tr.height ≤ 255

/-- TDEC names the first defect (R116, R143), for sequences made from any tree `tr` by one defect: bits cut off after n
(TREE_BITS_UNDERRUN, n); symbols cut off after j (TREE_LEAVES_UNDERRUN, the position of leaf bit j); the symbol of leaf j
one of the earlier ones (DUPLICATE_SYMBOL, (j << 16) | that position); bits or symbols left over (TREE_TRAILING,
(leaves << 16) | bits). -/
def Obligations.TdecNamesTheFirstDefect : Prop :=
  ∀ (s : State) (tr : CodeTree), s.treeBitsLen.toNat ≤ 511 → s.treeLeavesLen.toNat ≤ 256 →
    (∀ n < tr.bits.length, tr.leaves.Nodup → s.treeBitSeq = tr.bits.take n → s.treeLeafSeq = tr.leaves →
      ∃ t, exec .tdec s = .next t ∧ t.errCode = 0x02 ∧ t.errInfo = BitVec.ofNat 32 n) ∧
    (∀ j < tr.leaves.length, tr.leaves.Nodup → s.treeBitSeq = tr.bits → s.treeLeafSeq = tr.leaves.take j →
      ∃ t p, exec .tdec s = .next t ∧ t.errCode = 0x03 ∧ t.errInfo = BitVec.ofNat 32 p ∧
        tr.bits[p]? = some false ∧ (tr.bits.take p).count false = j) ∧
    (∀ j x, (tr.leaves.take j).Nodup → tr.leaves[j]? = some x → x ∈ tr.leaves.take j →
      s.treeBitSeq = tr.bits → s.treeLeafSeq = tr.leaves →
      ∃ t p, exec .tdec s = .next t ∧ t.errCode = 0x05 ∧
        t.errInfo = BitVec.ofNat 32 j <<< 16 ||| BitVec.ofNat 32 p ∧
        tr.bits[p]? = some false ∧ (tr.bits.take p).count false = j) ∧
    (∀ (bs : List Bool) (xs : List Symbol), tr.leaves.Nodup → (bs ≠ [] ∨ xs ≠ []) →
      s.treeBitSeq = tr.bits ++ bs → s.treeLeafSeq = tr.leaves ++ xs →
      ∃ t, exec .tdec s = .next t ∧ t.errCode = 0x04 ∧
        t.errInfo = BitVec.ofNat 32 tr.leaves.length <<< 16 ||| BitVec.ofNat 32 tr.bits.length)

/-- R118: after a TDEC data error (codes 0x02 to 0x05) the whole arena is unspecified, each byte a free value of a new
draw; TREE_VALID, PATHS_VALID, ROOT and NODE_COUNT are 0; TREE_BITS, TREE_LEAVES and their lengths, and every other byte,
are unchanged. -/
def Obligations.TdecDataErrorState : Prop :=
  ∀ (s : State) (e : CmdError), s.treeBitsLen.toNat ≤ 511 → s.treeLeavesLen.toNat ≤ 256 →
    parseTree s.treeBitSeq s.treeLeafSeq = .error e →
    ∃ t, exec .tdec s = .next t ∧
      t = { s with
        eng := .idle, done := true, errCode := e.code.code, errInfo := e.info, treeValid := false
        pathsValid := false, root := 0, nodeCount := 0, mem := t.mem, epochs := t.epochs, draws := t.draws } ∧
      2 ≤ t.errCode.toNat ∧ t.errCode.toNat ≤ 5 ∧
      (∀ a, 0x2000 ≤ a → a < 0x27FC → t.byteAt a = Config.freeByte s.draws a) ∧
      SameBytesOutside 0x2000 0x27FC s t ∧ t.treeBitSeq = s.treeBitSeq ∧ t.treeLeafSeq = s.treeLeafSeq

/-- TDEC changes no register but ROOT, NODE_COUNT, ERR_CODE, ERR_INFO and STATUS, and no byte outside NODE; on success none
outside NODE[0 .. NODE_COUNT−1]. -/
def Obligations.TdecFrame : Prop :=
  ∀ s t : State, exec .tdec s = .next t →
    t = { s with
      eng := .idle, done := true, errCode := t.errCode, errInfo := t.errInfo, root := t.root
      nodeCount := t.nodeCount, treeValid := t.treeValid, pathsValid := t.pathsValid, mem := t.mem
      epochs := t.epochs, draws := t.draws } ∧
    SameBytesOutside 0x2000 0x27FC s t ∧
    (t.errCode = 0 → SameBytesOutside 0x2000 (0x2000 + 4 * t.nodeCount.toNat) s t)

/-- R119: from a state with a valid tree, TENC followed by TDEC succeeds and leaves the same tree, leaf symbols and
branching. -/
def Obligations.FlattenThenUnflattenKeepsTheTree : Prop :=
  ∀ s : State, s.treeValid = true → s.ArenaOk →
    ∃ s1 s2 tr, s.currentTree = some tr ∧ exec .tenc s = .next s1 ∧ exec .tdec s1 = .next s2 ∧
      s1.errCode = 0 ∧ s2.errCode = 0 ∧ s2.treeValid = true ∧ s2.currentTree = some tr

/-! ### PATHS (R122 to R124) -/

/-- PATHS with a valid tree whose root is interior: the whole table holds the bit paths, 0 where a symbol has no leaf and
past each path's end; PATHS_VALID is set, TREE_VALID unchanged. -/
def Obligations.PathsBuildsTheTable : Prop :=
  ∀ (s : State) (tr : CodeTree), s.treeValid = true → s.rootIsLeaf = false → s.currentTree = some tr →
    ∃ t, exec .paths s = .next t ∧ t.errCode = 0 ∧ t.errInfo = 0 ∧ t.eng = .idle ∧ t.done = true ∧
      t.pathsValid = true ∧ t.treeValid = true ∧ t.currentTree = some tr ∧
      ∀ x : Symbol, (t.codeLenAt x.toNat).toNat = (tr.code x).length ∧
        ∀ j < 256, t.codeBitAt x.toNat j = (tr.code x).getD j false

/-- R122: the bit path of a symbol is the sequence of branches that leads from the root to its leaf, first edge first. -/
def Obligations.BitPathLeadsToTheLeaf : Prop :=
  ∀ (t : CodeTree) (x : Symbol) (p : List Bool), t.leaves.Nodup →
    (t.pathOf x = some p ↔ t.follow p = some (.leaf x))

/-- R105: in a tree with distinct leaves a symbol has a path exactly when it has a leaf, and where the root is
interior that path is not empty and at most 255 long in a tree of at most 511 nodes; no path is a prefix of another
symbol's; the sum of 2^(−length) over the leaves is exactly 1, here with every term multiplied by 2^h, h the tree's
height. -/
def Obligations.CodesArePrefixFreeAndComplete : Prop :=
  ∀ t : CodeTree, t.leaves.Nodup →
    (∀ x, (t.pathOf x).isSome = true ↔ x ∈ t.leaves) ∧
    (2 ≤ t.size → t.size ≤ 511 → ∀ x ∈ t.leaves, t.code x ≠ [] ∧ (t.code x).length ≤ 255) ∧
    (∀ x ∈ t.leaves, ∀ y ∈ t.leaves, x ≠ y → ¬ (t.code x <+: t.code y)) ∧
    (t.leaves.map (fun x => 2 ^ (t.height - (t.code x).length))).sum = 2 ^ t.height

/-- R124: after the path stage, which PATHS runs on success and SENC runs unless a check-phase error stops it, CODE_LEN is
not 0 exactly for the symbols that have a leaf; no code is a prefix of another symbol's: of two leaf symbols' codes one
has a bit, within both lengths, that differs; and the sum over leaf symbols of 2^(−CODE_LEN) is exactly 1, here with every
term multiplied by 2^255. -/
def Obligations.PathTableProperties : Prop :=
  ∀ (i : Instr) (s t : State), i = .paths ∨ i = .senc → exec i s = .next t →
    t.errCode ≠ 0x06 → t.errCode ≠ 0x07 → t.errCode ≠ 0x0C →
    ∃ tr, s.currentTree = some tr ∧
      (∀ x : Symbol, t.codeLenAt x.toNat ≠ 0 ↔ x ∈ tr.leaves) ∧
      (∀ x ∈ tr.leaves, ∀ y ∈ tr.leaves, x ≠ y →
        ∃ j, j < (t.codeLenAt x.toNat).toNat ∧ j < (t.codeLenAt y.toNat).toNat ∧
          t.codeBitAt x.toNat j ≠ t.codeBitAt y.toNat j) ∧
      (tr.leaves.map (fun x => 2 ^ (255 - (t.codeLenAt x.toNat).toNat))).sum = 2 ^ 255

/-- PATHS changes no register but ERR_CODE, ERR_INFO and STATUS, and no byte outside CODE_LEN and CODE_BITS. -/
def Obligations.PathsFrame : Prop :=
  ∀ s t : State, exec .paths s = .next t →
    t = { s with
      eng := .idle, done := true, errCode := t.errCode, errInfo := t.errInfo, pathsValid := t.pathsValid
      mem := t.mem } ∧
    ∀ a, (a < 0x4000 ∨ 0x4400 ≤ a) → (a < 0x8000 ∨ 0xA000 ≤ a) → t.byteAt a = s.byteAt a

/-! ### SENC (R125 to R127) -/

/-- SENC with TEXT_LEN in range, a valid tree with interior root, every text symbol a leaf, and the message within
MAX_MSG_BITS: MSG_BITS holds the codes of the text in order, MSG_LEN their total length, the unused bits of the last word
0; the path table is built as PATHS builds it. -/
def Obligations.SencEncodesTheText : Prop :=
  ∀ (s : State) (tr : CodeTree), s.textLen.toNat ≤ s.capText.toNat → s.treeValid = true → s.rootIsLeaf = false →
    s.currentTree = some tr → (∀ x ∈ s.text, x ∈ tr.leaves) →
    (s.text.flatMap tr.code).length ≤ s.capMsg.toNat →
    ∃ t, exec .senc s = .next t ∧ t.errCode = 0 ∧ t.errInfo = 0 ∧ t.eng = .idle ∧ t.done = true ∧
      t.pathsValid = true ∧ t.treeValid = true ∧ t.currentTree = some tr ∧
      t.message = s.text.flatMap tr.code ∧ t.msgLen.toNat = (s.text.flatMap tr.code).length ∧
      (∀ i, t.msgLen.toNat ≤ i → i < 32 * ((t.msgLen.toNat + 31) / 32) → t.msgBitAt i = false) ∧
      ∀ x : Symbol, (t.codeLenAt x.toNat).toNat = (tr.code x).length ∧
        ∀ j < 256, t.codeBitAt x.toNat j = (tr.code x).getD j false

/-- SENC's data errors (R125, R126, R143): at the first text index i whose symbol has no leaf the error is
UNENCODABLE_SYMBOL, and at the first whose code would pass MAX_MSG_BITS it is MSG_OVERFLOW, the detail i; then MSG_LEN = 0,
every byte of MSG_BITS is a free value of a new draw, the path table and PATHS_VALID = 1 are as the path stage left them,
and every other byte and register is unchanged. -/
def Obligations.SencDataErrors : Prop :=
  ∀ (s : State) (tr : CodeTree) (done rest : List Symbol) (x : Symbol),
    s.textLen.toNat ≤ s.capText.toNat → s.treeValid = true → s.rootIsLeaf = false → s.currentTree = some tr →
    s.text = done ++ x :: rest → (∀ y ∈ done, y ∈ tr.leaves) → (done.flatMap tr.code).length ≤ s.capMsg.toNat →
    (x ∉ tr.leaves ∨ s.capMsg.toNat < ((done ++ [x]).flatMap tr.code).length) →
    ∃ t, exec .senc s = .next t ∧
      t = { s with
        eng := .idle, done := true, errCode := if x ∈ tr.leaves then 0x0A else 0x08
        errInfo := BitVec.ofNat 32 done.length, msgLen := 0, pathsValid := true, mem := t.mem
        epochs := t.epochs, draws := t.draws } ∧
      (∀ a, s.regionOf a = some .msgBits → t.byteAt a = Config.freeByte s.draws a) ∧
      (∀ a, (a < 0x4000 ∨ 0x4400 ≤ a) → (a < 0x8000 ∨ 0xA000 ≤ a) →
        Region.owns s.capText.toNat s.capMsg.toNat .msgBits a = false → t.byteAt a = s.byteAt a) ∧
      ∀ y : Symbol, (t.codeLenAt y.toNat).toNat = (tr.code y).length ∧
        ∀ j < 256, t.codeBitAt y.toNat j = (tr.code y).getD j false

/-- R127: on success MSG_LEN is the sum of the code lengths of the text's symbols; where FREQ holds the text's counts, it
is the tree's weighted path length. -/
def Obligations.MessageLengthIsTheWeightedPathLength : Prop :=
  ∀ (s t : State) (tr : CodeTree), exec .senc s = .next t → t.errCode = 0 → s.currentTree = some tr →
    t.msgLen.toNat = (s.text.map (fun x => (t.codeLenAt x.toNat).toNat)).sum ∧
    ((∀ x : Symbol, (s.freqAt x.toNat).toNat = s.text.count x) →
      t.msgLen.toNat =
        ((List.range 256).map (fun i => (s.freqAt i).toNat * (t.codeLenAt i).toNat)).sum ∧
      t.msgLen.toNat = tr.cost (fun x => (s.freqAt x.toNat).toNat))

/-- SENC changes no register but MSG_LEN, ERR_CODE, ERR_INFO and STATUS, and no byte outside CODE_LEN, CODE_BITS and
MSG_BITS; on success, of MSG_BITS only the words the message takes; on a check-phase error none. -/
def Obligations.SencFrame : Prop :=
  ∀ s t : State, exec .senc s = .next t →
    t = { s with
      eng := .idle, done := true, errCode := t.errCode, errInfo := t.errInfo, msgLen := t.msgLen
      pathsValid := t.pathsValid, mem := t.mem, epochs := t.epochs, draws := t.draws } ∧
    (∀ a, (a < 0x4000 ∨ 0x4400 ≤ a) → (a < 0x8000 ∨ 0xA000 ≤ a) → a < 0x300000 → t.byteAt a = s.byteAt a) ∧
    (t.errCode = 0 → ∀ a, 0x300000 + 4 * ((t.msgLen.toNat + 31) / 32) ≤ a → t.byteAt a = s.byteAt a) ∧
    (t.errCode = 0x06 ∨ t.errCode = 0x07 ∨ t.errCode = 0x0C → ∀ a, t.byteAt a = s.byteAt a)

/-! ### SDEC (R132, R133) -/

/-- SDEC with MSG_LEN in range, a valid tree with interior root, and a message that is the codes of at most MAX_TEXT leaf
symbols: TEXT_OUT holds those symbols in order and OUT_LEN their number; the tree flags are unchanged. -/
def Obligations.SdecDecodesTheMessage : Prop :=
  ∀ (s : State) (tr : CodeTree) (text : List Symbol), s.msgLen.toNat ≤ s.capMsg.toNat → s.treeValid = true →
    s.rootIsLeaf = false → s.currentTree = some tr → (∀ x ∈ text, x ∈ tr.leaves) →
    text.length ≤ s.capText.toNat → s.message = text.flatMap tr.code →
    ∃ t, exec .sdec s = .next t ∧ t.errCode = 0 ∧ t.errInfo = 0 ∧ t.eng = .idle ∧ t.done = true ∧
      t.treeValid = s.treeValid ∧ t.pathsValid = s.pathsValid ∧ t.output = text ∧ t.outLen.toNat = text.length

/-- SDEC's data errors (R132, R133): a message that ends inside a path gives PARTIAL_CODE with the index of the path's
first bit; one whose symbol number MAX_TEXT + 1 completes gives TEXT_OVERFLOW with the index of the bit that completes it;
then OUT_LEN = 0, every entry of TEXT_OUT is a free value of a new draw, and every other register and byte is unchanged. -/
def Obligations.SdecDataErrors : Prop :=
  ∀ (s : State) (tr : CodeTree) (text : List Symbol), s.msgLen.toNat ≤ s.capMsg.toNat → s.treeValid = true →
    s.ArenaOk → s.rootIsLeaf = false → s.currentTree = some tr → (∀ x ∈ text, x ∈ tr.leaves) →
    text.length ≤ s.capText.toNat →
    (∀ (p : List Bool) (z o : CodeTree), p ≠ [] → tr.follow p = some (.node z o) →
      s.message = text.flatMap tr.code ++ p →
      ∃ t, exec .sdec s = .next t ∧
        t = { s with
          eng := .idle, done := true, errCode := 0x09
          errInfo := BitVec.ofNat 32 (text.flatMap tr.code).length, outLen := 0, mem := t.mem
          epochs := t.epochs, draws := t.draws } ∧
        (∀ a, s.regionOf a = some .textOut → t.byteAt a = Config.freeByte s.draws a) ∧
        ∀ a, Region.owns s.capText.toNat s.capMsg.toNat .textOut a = false → t.byteAt a = s.byteAt a) ∧
    (∀ (x : Symbol) (bs : List Bool), x ∈ tr.leaves → text.length = s.capText.toNat →
      s.message = (text ++ [x]).flatMap tr.code ++ bs →
      ∃ t, exec .sdec s = .next t ∧
        t = { s with
          eng := .idle, done := true, errCode := 0x0B
          errInfo := BitVec.ofNat 32 (((text ++ [x]).flatMap tr.code).length - 1), outLen := 0, mem := t.mem
          epochs := t.epochs, draws := t.draws } ∧
        (∀ a, s.regionOf a = some .textOut → t.byteAt a = Config.freeByte s.draws a) ∧
        ∀ a, Region.owns s.capText.toNat s.capMsg.toNat .textOut a = false → t.byteAt a = s.byteAt a)

/-- SDEC changes no register but OUT_LEN, ERR_CODE, ERR_INFO and STATUS, and no byte outside TEXT_OUT; on success none past
TEXT_OUT[OUT_LEN−1]. -/
def Obligations.SdecFrame : Prop :=
  ∀ s t : State, exec .sdec s = .next t →
    t = { s with
      eng := .idle, done := true, errCode := t.errCode, errInfo := t.errInfo, outLen := t.outLen, mem := t.mem
      epochs := t.epochs, draws := t.draws } ∧
    (∀ a, (a < 0x200000 ∨ 0x200000 + 4 * s.capText.toNat ≤ a) → t.byteAt a = s.byteAt a) ∧
    (t.errCode = 0 → SameBytesOutside 0x200000 (0x200000 + 4 * t.outLen.toNat) s t)

/-! ### The whole codec -/

/-- R134: for a text with TEXT_LEN ≤ MAX_TEXT and at least two distinct symbols, COUNT and BUILD succeed; SENC succeeds or
reports MSG_OVERFLOW, and cannot report it where 255 bits a symbol fit; and where it succeeds, TENC, TDEC and SDEC succeed
and TEXT_OUT[0 .. OUT_LEN−1] equals the text. -/
def Obligations.CompressThenDecompressGivesTheText : Prop :=
  ∀ s : State, s.CapsOk → s.textLen.toNat ≤ s.capText.toNat → 2 ≤ s.text.dedup.length →
    ∃ s1 s2 s3, exec .count s = .next s1 ∧ s1.errCode = 0 ∧ exec .build s1 = .next s2 ∧ s2.errCode = 0 ∧
      exec .senc s2 = .next s3 ∧ (s3.errCode = 0 ∨ s3.errCode = 0x0A) ∧
      (255 * s.textLen.toNat ≤ s.capMsg.toNat → s3.errCode = 0) ∧
      (s3.errCode = 0 →
        ∃ s4 s5 s6, exec .tenc s3 = .next s4 ∧ s4.errCode = 0 ∧ exec .tdec s4 = .next s5 ∧ s5.errCode = 0 ∧
          exec .sdec s5 = .next s6 ∧ s6.errCode = 0 ∧ s6.output = s.text ∧ s6.outLen = s.textLen)

/-! ### Invariants -/

/-- The state right after reset meets every invariant. This is said of the instance with R8's default parameters, the
model's choice (log entry 8); that its memory list is in canonical form (log entry 5) and its draw numbers are in order
(log entries 6 and 22) are facts about the model's own fields; the registers are R45's and R160's. -/
def Obligations.ResetMeetsTheInvariants : Prop := State.reset.Inv

/-- Every step keeps: the parameters within their bounds (R8); while busy, CMD the accepted word and DONE, ERR_CODE and
ERR_INFO 0 (R33, R138); ERR_CODE 0 or a code of R142, ERR_INFO 0 where it is 0 (R29); ROOT and NODE_COUNT 0 while
TREE_VALID = 0, DISTINCT at most 256 (R31); OUT_LEN at most MAX_TEXT (R132); and, of the model's own draw numbers, that no
region's is one still to be drawn (DrawsOk, log entries 6 and 22). -/
def Obligations.StepKeepsTheRegisterInvariants : Prop :=
  ∀ s t : State, s.Inv → step s = .next t →
    t.CapsOk ∧ t.EngOk ∧ t.ErrOk ∧ t.TreeRegsOk ∧ t.OutOk ∧ t.DrawsOk

/-- Every step keeps the memory list in canonical form (the model's own form: log entry 5). -/
def Obligations.StepKeepsMemoryCanonical : Prop :=
  ∀ s t : State, s.Inv → step s = .next t → t.MemOk

/-- Every step keeps R37: while TREE_VALID = 1 the arena entries below NODE_COUNT form one tree under ROOT, each reached
exactly once, no symbol in two leaves, in the forms of R36. -/
def Obligations.StepKeepsTheCurrentTree : Prop :=
  ∀ s t : State, s.Inv → step s = .next t → t.ArenaOk

/-- Every step keeps the path table true of the current tree while PATHS_VALID = 1 (R38, R26). -/
def Obligations.StepKeepsThePathTable : Prop :=
  ∀ s t : State, s.Inv → step s = .next t → t.PathsOk

/-- No state of the block is stuck (R139). In a state that meets R37 no step faults, whoever moves; a step is refused only
where the host moves and its own next operation carries a misaligned offset; so a step of the engine or of the reset pin,
and a host step with an aligned operation or none, answers a next state. That an idle engine and a host with no operation
left take a step that changes nothing is log entry 15 (R157, R172); that `rst_n` low is a step of its own is log entry 19
(R160); the schedule that says who moves is log entry 1; the one fault, which R37 excludes, is log entry 10, and the one
refusal log entry 9 (R69). -/
def Obligations.NoStepIsStuck : Prop :=
  ∀ s : State, s.ArenaOk →
    (∀ f, step s ≠ .fault f) ∧
    (∀ r, step s = .refused r →
      r = .misalignedAccess ∧ s.nextTurn = .host ∧ ∃ op ∈ s.program.head?, op.wellFormed = false) ∧
    (s.nextTurn ≠ .host ∨ s.HostAligned → Safe (step s))
end

