-- ==== Sys2Proof/Laws/State.lean ====
section
/-! SUPPORT. For each shared operation on the state, what it leaves in each field: true by rfl, so that no later proof
unfolds a record update. -/

namespace Sys2Proof.Machine

/-! ### State.complete -/

@[simp] theorem State.complete_eng (s : State) :
    (s.complete).eng =
      .idle := rfl
@[simp] theorem State.complete_ie (s : State) :
    (s.complete).ie =
      s.ie := rfl
@[simp] theorem State.complete_done (s : State) :
    (s.complete).done =
      true := rfl
@[simp] theorem State.complete_treeValid (s : State) :
    (s.complete).treeValid =
      s.treeValid := rfl
@[simp] theorem State.complete_pathsValid (s : State) :
    (s.complete).pathsValid =
      s.pathsValid := rfl
@[simp] theorem State.complete_wbusy (s : State) :
    (s.complete).wbusy =
      s.wbusy := rfl
@[simp] theorem State.complete_cmd (s : State) :
    (s.complete).cmd =
      s.cmd := rfl
@[simp] theorem State.complete_errCode (s : State) :
    (s.complete).errCode =
      0 := rfl
@[simp] theorem State.complete_errInfo (s : State) :
    (s.complete).errInfo =
      0 := rfl
@[simp] theorem State.complete_textLen (s : State) :
    (s.complete).textLen =
      s.textLen := rfl
@[simp] theorem State.complete_outLen (s : State) :
    (s.complete).outLen =
      s.outLen := rfl
@[simp] theorem State.complete_msgLen (s : State) :
    (s.complete).msgLen =
      s.msgLen := rfl
@[simp] theorem State.complete_treeBitsLen (s : State) :
    (s.complete).treeBitsLen =
      s.treeBitsLen := rfl
@[simp] theorem State.complete_treeLeavesLen (s : State) :
    (s.complete).treeLeavesLen =
      s.treeLeavesLen := rfl
@[simp] theorem State.complete_distinct (s : State) :
    (s.complete).distinct =
      s.distinct := rfl
@[simp] theorem State.complete_root (s : State) :
    (s.complete).root =
      s.root := rfl
@[simp] theorem State.complete_nodeCount (s : State) :
    (s.complete).nodeCount =
      s.nodeCount := rfl
@[simp] theorem State.complete_capText (s : State) :
    (s.complete).capText =
      s.capText := rfl
@[simp] theorem State.complete_capMsg (s : State) :
    (s.complete).capMsg =
      s.capMsg := rfl
@[simp] theorem State.complete_mem (s : State) :
    (s.complete).mem =
      s.mem := rfl
@[simp] theorem State.complete_epochs (s : State) :
    (s.complete).epochs =
      s.epochs := rfl
@[simp] theorem State.complete_draws (s : State) :
    (s.complete).draws =
      s.draws := rfl
@[simp] theorem State.complete_program (s : State) :
    (s.complete).program =
      s.program := rfl
@[simp] theorem State.complete_reads (s : State) :
    (s.complete).reads =
      s.reads := rfl
@[simp] theorem State.complete_turns (s : State) :
    (s.complete).turns =
      s.turns := rfl

/-! ### State.fail -/

@[simp] theorem State.fail_eng (s : State) (e : CmdError) :
    (s.fail e).eng =
      .idle := rfl
@[simp] theorem State.fail_ie (s : State) (e : CmdError) :
    (s.fail e).ie =
      s.ie := rfl
@[simp] theorem State.fail_done (s : State) (e : CmdError) :
    (s.fail e).done =
      true := rfl
@[simp] theorem State.fail_treeValid (s : State) (e : CmdError) :
    (s.fail e).treeValid =
      s.treeValid := rfl
@[simp] theorem State.fail_pathsValid (s : State) (e : CmdError) :
    (s.fail e).pathsValid =
      s.pathsValid := rfl
@[simp] theorem State.fail_wbusy (s : State) (e : CmdError) :
    (s.fail e).wbusy =
      s.wbusy := rfl
@[simp] theorem State.fail_cmd (s : State) (e : CmdError) :
    (s.fail e).cmd =
      s.cmd := rfl
@[simp] theorem State.fail_errCode (s : State) (e : CmdError) :
    (s.fail e).errCode =
      e.code.code := rfl
@[simp] theorem State.fail_errInfo (s : State) (e : CmdError) :
    (s.fail e).errInfo =
      e.info := rfl
@[simp] theorem State.fail_textLen (s : State) (e : CmdError) :
    (s.fail e).textLen =
      s.textLen := rfl
@[simp] theorem State.fail_outLen (s : State) (e : CmdError) :
    (s.fail e).outLen =
      s.outLen := rfl
@[simp] theorem State.fail_msgLen (s : State) (e : CmdError) :
    (s.fail e).msgLen =
      s.msgLen := rfl
@[simp] theorem State.fail_treeBitsLen (s : State) (e : CmdError) :
    (s.fail e).treeBitsLen =
      s.treeBitsLen := rfl
@[simp] theorem State.fail_treeLeavesLen (s : State) (e : CmdError) :
    (s.fail e).treeLeavesLen =
      s.treeLeavesLen := rfl
@[simp] theorem State.fail_distinct (s : State) (e : CmdError) :
    (s.fail e).distinct =
      s.distinct := rfl
@[simp] theorem State.fail_root (s : State) (e : CmdError) :
    (s.fail e).root =
      s.root := rfl
@[simp] theorem State.fail_nodeCount (s : State) (e : CmdError) :
    (s.fail e).nodeCount =
      s.nodeCount := rfl
@[simp] theorem State.fail_capText (s : State) (e : CmdError) :
    (s.fail e).capText =
      s.capText := rfl
@[simp] theorem State.fail_capMsg (s : State) (e : CmdError) :
    (s.fail e).capMsg =
      s.capMsg := rfl
@[simp] theorem State.fail_mem (s : State) (e : CmdError) :
    (s.fail e).mem =
      s.mem := rfl
@[simp] theorem State.fail_epochs (s : State) (e : CmdError) :
    (s.fail e).epochs =
      s.epochs := rfl
@[simp] theorem State.fail_draws (s : State) (e : CmdError) :
    (s.fail e).draws =
      s.draws := rfl
@[simp] theorem State.fail_program (s : State) (e : CmdError) :
    (s.fail e).program =
      s.program := rfl
@[simp] theorem State.fail_reads (s : State) (e : CmdError) :
    (s.fail e).reads =
      s.reads := rfl
@[simp] theorem State.fail_turns (s : State) (e : CmdError) :
    (s.fail e).turns =
      s.turns := rfl

/-! ### State.putRun -/

@[simp] theorem State.putRun_eng (s : State) (a k : Nat) (bs : List Byte) :
    (s.putRun a k bs).eng =
      s.eng := rfl
@[simp] theorem State.putRun_ie (s : State) (a k : Nat) (bs : List Byte) :
    (s.putRun a k bs).ie =
      s.ie := rfl
@[simp] theorem State.putRun_done (s : State) (a k : Nat) (bs : List Byte) :
    (s.putRun a k bs).done =
      s.done := rfl
@[simp] theorem State.putRun_treeValid (s : State) (a k : Nat) (bs : List Byte) :
    (s.putRun a k bs).treeValid =
      s.treeValid := rfl
@[simp] theorem State.putRun_pathsValid (s : State) (a k : Nat) (bs : List Byte) :
    (s.putRun a k bs).pathsValid =
      s.pathsValid := rfl
@[simp] theorem State.putRun_wbusy (s : State) (a k : Nat) (bs : List Byte) :
    (s.putRun a k bs).wbusy =
      s.wbusy := rfl
@[simp] theorem State.putRun_cmd (s : State) (a k : Nat) (bs : List Byte) :
    (s.putRun a k bs).cmd =
      s.cmd := rfl
@[simp] theorem State.putRun_errCode (s : State) (a k : Nat) (bs : List Byte) :
    (s.putRun a k bs).errCode =
      s.errCode := rfl
@[simp] theorem State.putRun_errInfo (s : State) (a k : Nat) (bs : List Byte) :
    (s.putRun a k bs).errInfo =
      s.errInfo := rfl
@[simp] theorem State.putRun_textLen (s : State) (a k : Nat) (bs : List Byte) :
    (s.putRun a k bs).textLen =
      s.textLen := rfl
@[simp] theorem State.putRun_outLen (s : State) (a k : Nat) (bs : List Byte) :
    (s.putRun a k bs).outLen =
      s.outLen := rfl
@[simp] theorem State.putRun_msgLen (s : State) (a k : Nat) (bs : List Byte) :
    (s.putRun a k bs).msgLen =
      s.msgLen := rfl
@[simp] theorem State.putRun_treeBitsLen (s : State) (a k : Nat) (bs : List Byte) :
    (s.putRun a k bs).treeBitsLen =
      s.treeBitsLen := rfl
@[simp] theorem State.putRun_treeLeavesLen (s : State) (a k : Nat) (bs : List Byte) :
    (s.putRun a k bs).treeLeavesLen =
      s.treeLeavesLen := rfl
@[simp] theorem State.putRun_distinct (s : State) (a k : Nat) (bs : List Byte) :
    (s.putRun a k bs).distinct =
      s.distinct := rfl
@[simp] theorem State.putRun_root (s : State) (a k : Nat) (bs : List Byte) :
    (s.putRun a k bs).root =
      s.root := rfl
@[simp] theorem State.putRun_nodeCount (s : State) (a k : Nat) (bs : List Byte) :
    (s.putRun a k bs).nodeCount =
      s.nodeCount := rfl
@[simp] theorem State.putRun_capText (s : State) (a k : Nat) (bs : List Byte) :
    (s.putRun a k bs).capText =
      s.capText := rfl
@[simp] theorem State.putRun_capMsg (s : State) (a k : Nat) (bs : List Byte) :
    (s.putRun a k bs).capMsg =
      s.capMsg := rfl
theorem State.putRun_mem (s : State) (a k : Nat) (bs : List Byte) :
    (s.putRun a k bs).mem =
      Memory.replace a (a + k * bs.length) (Memory.run a k bs) s.mem := rfl
@[simp] theorem State.putRun_epochs (s : State) (a k : Nat) (bs : List Byte) :
    (s.putRun a k bs).epochs =
      s.epochs := rfl
@[simp] theorem State.putRun_draws (s : State) (a k : Nat) (bs : List Byte) :
    (s.putRun a k bs).draws =
      s.draws := rfl
@[simp] theorem State.putRun_program (s : State) (a k : Nat) (bs : List Byte) :
    (s.putRun a k bs).program =
      s.program := rfl
@[simp] theorem State.putRun_reads (s : State) (a k : Nat) (bs : List Byte) :
    (s.putRun a k bs).reads =
      s.reads := rfl
@[simp] theorem State.putRun_turns (s : State) (a k : Nat) (bs : List Byte) :
    (s.putRun a k bs).turns =
      s.turns := rfl

/-! ### State.putWords -/

@[simp] theorem State.putWords_eng (s : State) (a : Nat) (ws : List Word) :
    (s.putWords a ws).eng =
      s.eng := rfl
@[simp] theorem State.putWords_ie (s : State) (a : Nat) (ws : List Word) :
    (s.putWords a ws).ie =
      s.ie := rfl
@[simp] theorem State.putWords_done (s : State) (a : Nat) (ws : List Word) :
    (s.putWords a ws).done =
      s.done := rfl
@[simp] theorem State.putWords_treeValid (s : State) (a : Nat) (ws : List Word) :
    (s.putWords a ws).treeValid =
      s.treeValid := rfl
@[simp] theorem State.putWords_pathsValid (s : State) (a : Nat) (ws : List Word) :
    (s.putWords a ws).pathsValid =
      s.pathsValid := rfl
@[simp] theorem State.putWords_wbusy (s : State) (a : Nat) (ws : List Word) :
    (s.putWords a ws).wbusy =
      s.wbusy := rfl
@[simp] theorem State.putWords_cmd (s : State) (a : Nat) (ws : List Word) :
    (s.putWords a ws).cmd =
      s.cmd := rfl
@[simp] theorem State.putWords_errCode (s : State) (a : Nat) (ws : List Word) :
    (s.putWords a ws).errCode =
      s.errCode := rfl
@[simp] theorem State.putWords_errInfo (s : State) (a : Nat) (ws : List Word) :
    (s.putWords a ws).errInfo =
      s.errInfo := rfl
@[simp] theorem State.putWords_textLen (s : State) (a : Nat) (ws : List Word) :
    (s.putWords a ws).textLen =
      s.textLen := rfl
@[simp] theorem State.putWords_outLen (s : State) (a : Nat) (ws : List Word) :
    (s.putWords a ws).outLen =
      s.outLen := rfl
@[simp] theorem State.putWords_msgLen (s : State) (a : Nat) (ws : List Word) :
    (s.putWords a ws).msgLen =
      s.msgLen := rfl
@[simp] theorem State.putWords_treeBitsLen (s : State) (a : Nat) (ws : List Word) :
    (s.putWords a ws).treeBitsLen =
      s.treeBitsLen := rfl
@[simp] theorem State.putWords_treeLeavesLen (s : State) (a : Nat) (ws : List Word) :
    (s.putWords a ws).treeLeavesLen =
      s.treeLeavesLen := rfl
@[simp] theorem State.putWords_distinct (s : State) (a : Nat) (ws : List Word) :
    (s.putWords a ws).distinct =
      s.distinct := rfl
@[simp] theorem State.putWords_root (s : State) (a : Nat) (ws : List Word) :
    (s.putWords a ws).root =
      s.root := rfl
@[simp] theorem State.putWords_nodeCount (s : State) (a : Nat) (ws : List Word) :
    (s.putWords a ws).nodeCount =
      s.nodeCount := rfl
@[simp] theorem State.putWords_capText (s : State) (a : Nat) (ws : List Word) :
    (s.putWords a ws).capText =
      s.capText := rfl
@[simp] theorem State.putWords_capMsg (s : State) (a : Nat) (ws : List Word) :
    (s.putWords a ws).capMsg =
      s.capMsg := rfl
theorem State.putWords_mem (s : State) (a : Nat) (ws : List Word) :
    (s.putWords a ws).mem =
      (s.putRun a 1 (ws.flatMap wordBytes)).mem := rfl
@[simp] theorem State.putWords_epochs (s : State) (a : Nat) (ws : List Word) :
    (s.putWords a ws).epochs =
      s.epochs := rfl
@[simp] theorem State.putWords_draws (s : State) (a : Nat) (ws : List Word) :
    (s.putWords a ws).draws =
      s.draws := rfl
@[simp] theorem State.putWords_program (s : State) (a : Nat) (ws : List Word) :
    (s.putWords a ws).program =
      s.program := rfl
@[simp] theorem State.putWords_reads (s : State) (a : Nat) (ws : List Word) :
    (s.putWords a ws).reads =
      s.reads := rfl
@[simp] theorem State.putWords_turns (s : State) (a : Nat) (ws : List Word) :
    (s.putWords a ws).turns =
      s.turns := rfl

/-! ### State.unspecified -/

@[simp] theorem State.unspecified_eng (s : State) (rs : List Region) :
    (s.unspecified rs).eng =
      s.eng := rfl
@[simp] theorem State.unspecified_ie (s : State) (rs : List Region) :
    (s.unspecified rs).ie =
      s.ie := rfl
@[simp] theorem State.unspecified_done (s : State) (rs : List Region) :
    (s.unspecified rs).done =
      s.done := rfl
@[simp] theorem State.unspecified_treeValid (s : State) (rs : List Region) :
    (s.unspecified rs).treeValid =
      s.treeValid := rfl
@[simp] theorem State.unspecified_pathsValid (s : State) (rs : List Region) :
    (s.unspecified rs).pathsValid =
      s.pathsValid := rfl
@[simp] theorem State.unspecified_wbusy (s : State) (rs : List Region) :
    (s.unspecified rs).wbusy =
      s.wbusy := rfl
@[simp] theorem State.unspecified_cmd (s : State) (rs : List Region) :
    (s.unspecified rs).cmd =
      s.cmd := rfl
@[simp] theorem State.unspecified_errCode (s : State) (rs : List Region) :
    (s.unspecified rs).errCode =
      s.errCode := rfl
@[simp] theorem State.unspecified_errInfo (s : State) (rs : List Region) :
    (s.unspecified rs).errInfo =
      s.errInfo := rfl
@[simp] theorem State.unspecified_textLen (s : State) (rs : List Region) :
    (s.unspecified rs).textLen =
      s.textLen := rfl
@[simp] theorem State.unspecified_outLen (s : State) (rs : List Region) :
    (s.unspecified rs).outLen =
      s.outLen := rfl
@[simp] theorem State.unspecified_msgLen (s : State) (rs : List Region) :
    (s.unspecified rs).msgLen =
      s.msgLen := rfl
@[simp] theorem State.unspecified_treeBitsLen (s : State) (rs : List Region) :
    (s.unspecified rs).treeBitsLen =
      s.treeBitsLen := rfl
@[simp] theorem State.unspecified_treeLeavesLen (s : State) (rs : List Region) :
    (s.unspecified rs).treeLeavesLen =
      s.treeLeavesLen := rfl
@[simp] theorem State.unspecified_distinct (s : State) (rs : List Region) :
    (s.unspecified rs).distinct =
      s.distinct := rfl
@[simp] theorem State.unspecified_root (s : State) (rs : List Region) :
    (s.unspecified rs).root =
      s.root := rfl
@[simp] theorem State.unspecified_nodeCount (s : State) (rs : List Region) :
    (s.unspecified rs).nodeCount =
      s.nodeCount := rfl
@[simp] theorem State.unspecified_capText (s : State) (rs : List Region) :
    (s.unspecified rs).capText =
      s.capText := rfl
@[simp] theorem State.unspecified_capMsg (s : State) (rs : List Region) :
    (s.unspecified rs).capMsg =
      s.capMsg := rfl
theorem State.unspecified_mem (s : State) (rs : List Region) :
    (s.unspecified rs).mem =
      s.mem.filter (fun c => !(rs.any (fun r => r.owns s.capText.toNat s.capMsg.toNat c.1))) := rfl
theorem State.unspecified_epochs (s : State) (rs : List Region) :
    (s.unspecified rs).epochs =
      rs.foldl (fun e r => e.set s.draws r) s.epochs := rfl
@[simp] theorem State.unspecified_draws (s : State) (rs : List Region) :
    (s.unspecified rs).draws =
      s.draws + 1 := rfl
@[simp] theorem State.unspecified_program (s : State) (rs : List Region) :
    (s.unspecified rs).program =
      s.program := rfl
@[simp] theorem State.unspecified_reads (s : State) (rs : List Region) :
    (s.unspecified rs).reads =
      s.reads := rfl
@[simp] theorem State.unspecified_turns (s : State) (rs : List Region) :
    (s.unspecified rs).turns =
      s.turns := rfl

/-! ### State.accept -/

@[simp] theorem State.accept_eng (s : State) (w : Word) :
    (s.accept w).eng =
      .busy w := rfl
@[simp] theorem State.accept_ie (s : State) (w : Word) :
    (s.accept w).ie =
      s.ie := rfl
@[simp] theorem State.accept_done (s : State) (w : Word) :
    (s.accept w).done =
      false := rfl
@[simp] theorem State.accept_treeValid (s : State) (w : Word) :
    (s.accept w).treeValid =
      s.treeValid := rfl
@[simp] theorem State.accept_pathsValid (s : State) (w : Word) :
    (s.accept w).pathsValid =
      s.pathsValid := rfl
@[simp] theorem State.accept_wbusy (s : State) (w : Word) :
    (s.accept w).wbusy =
      s.wbusy := rfl
@[simp] theorem State.accept_cmd (s : State) (w : Word) :
    (s.accept w).cmd =
      w := rfl
@[simp] theorem State.accept_errCode (s : State) (w : Word) :
    (s.accept w).errCode =
      0 := rfl
@[simp] theorem State.accept_errInfo (s : State) (w : Word) :
    (s.accept w).errInfo =
      0 := rfl
@[simp] theorem State.accept_textLen (s : State) (w : Word) :
    (s.accept w).textLen =
      s.textLen := rfl
@[simp] theorem State.accept_outLen (s : State) (w : Word) :
    (s.accept w).outLen =
      s.outLen := rfl
@[simp] theorem State.accept_msgLen (s : State) (w : Word) :
    (s.accept w).msgLen =
      s.msgLen := rfl
@[simp] theorem State.accept_treeBitsLen (s : State) (w : Word) :
    (s.accept w).treeBitsLen =
      s.treeBitsLen := rfl
@[simp] theorem State.accept_treeLeavesLen (s : State) (w : Word) :
    (s.accept w).treeLeavesLen =
      s.treeLeavesLen := rfl
@[simp] theorem State.accept_distinct (s : State) (w : Word) :
    (s.accept w).distinct =
      s.distinct := rfl
@[simp] theorem State.accept_root (s : State) (w : Word) :
    (s.accept w).root =
      s.root := rfl
@[simp] theorem State.accept_nodeCount (s : State) (w : Word) :
    (s.accept w).nodeCount =
      s.nodeCount := rfl
@[simp] theorem State.accept_capText (s : State) (w : Word) :
    (s.accept w).capText =
      s.capText := rfl
@[simp] theorem State.accept_capMsg (s : State) (w : Word) :
    (s.accept w).capMsg =
      s.capMsg := rfl
@[simp] theorem State.accept_mem (s : State) (w : Word) :
    (s.accept w).mem =
      s.mem := rfl
@[simp] theorem State.accept_epochs (s : State) (w : Word) :
    (s.accept w).epochs =
      s.epochs := rfl
@[simp] theorem State.accept_draws (s : State) (w : Word) :
    (s.accept w).draws =
      s.draws := rfl
@[simp] theorem State.accept_program (s : State) (w : Word) :
    (s.accept w).program =
      s.program := rfl
@[simp] theorem State.accept_reads (s : State) (w : Word) :
    (s.accept w).reads =
      s.reads := rfl
@[simp] theorem State.accept_turns (s : State) (w : Word) :
    (s.accept w).turns =
      s.turns := rfl

/-! ### State.resetRegisters -/

@[simp] theorem State.resetRegisters_eng (s : State) :
    (s.resetRegisters).eng =
      .idle := rfl
@[simp] theorem State.resetRegisters_ie (s : State) :
    (s.resetRegisters).ie =
      false := rfl
@[simp] theorem State.resetRegisters_done (s : State) :
    (s.resetRegisters).done =
      false := rfl
@[simp] theorem State.resetRegisters_treeValid (s : State) :
    (s.resetRegisters).treeValid =
      false := rfl
@[simp] theorem State.resetRegisters_pathsValid (s : State) :
    (s.resetRegisters).pathsValid =
      false := rfl
@[simp] theorem State.resetRegisters_wbusy (s : State) :
    (s.resetRegisters).wbusy =
      false := rfl
@[simp] theorem State.resetRegisters_cmd (s : State) :
    (s.resetRegisters).cmd =
      0 := rfl
@[simp] theorem State.resetRegisters_errCode (s : State) :
    (s.resetRegisters).errCode =
      0 := rfl
@[simp] theorem State.resetRegisters_errInfo (s : State) :
    (s.resetRegisters).errInfo =
      0 := rfl
@[simp] theorem State.resetRegisters_textLen (s : State) :
    (s.resetRegisters).textLen =
      0 := rfl
@[simp] theorem State.resetRegisters_outLen (s : State) :
    (s.resetRegisters).outLen =
      0 := rfl
@[simp] theorem State.resetRegisters_msgLen (s : State) :
    (s.resetRegisters).msgLen =
      0 := rfl
@[simp] theorem State.resetRegisters_treeBitsLen (s : State) :
    (s.resetRegisters).treeBitsLen =
      0 := rfl
@[simp] theorem State.resetRegisters_treeLeavesLen (s : State) :
    (s.resetRegisters).treeLeavesLen =
      0 := rfl
@[simp] theorem State.resetRegisters_distinct (s : State) :
    (s.resetRegisters).distinct =
      0 := rfl
@[simp] theorem State.resetRegisters_root (s : State) :
    (s.resetRegisters).root =
      0 := rfl
@[simp] theorem State.resetRegisters_nodeCount (s : State) :
    (s.resetRegisters).nodeCount =
      0 := rfl
@[simp] theorem State.resetRegisters_capText (s : State) :
    (s.resetRegisters).capText =
      s.capText := rfl
@[simp] theorem State.resetRegisters_capMsg (s : State) :
    (s.resetRegisters).capMsg =
      s.capMsg := rfl
@[simp] theorem State.resetRegisters_mem (s : State) :
    (s.resetRegisters).mem =
      s.mem := rfl
@[simp] theorem State.resetRegisters_epochs (s : State) :
    (s.resetRegisters).epochs =
      s.epochs := rfl
@[simp] theorem State.resetRegisters_draws (s : State) :
    (s.resetRegisters).draws =
      s.draws := rfl
@[simp] theorem State.resetRegisters_program (s : State) :
    (s.resetRegisters).program =
      s.program := rfl
@[simp] theorem State.resetRegisters_reads (s : State) :
    (s.resetRegisters).reads =
      s.reads := rfl
@[simp] theorem State.resetRegisters_turns (s : State) :
    (s.resetRegisters).turns =
      s.turns := rfl

/-! ### State.pathStage -/

@[simp] theorem State.pathStage_eng (s : State) (t : CodeTree) :
    (s.pathStage t).eng =
      s.eng := rfl
@[simp] theorem State.pathStage_ie (s : State) (t : CodeTree) :
    (s.pathStage t).ie =
      s.ie := rfl
@[simp] theorem State.pathStage_done (s : State) (t : CodeTree) :
    (s.pathStage t).done =
      s.done := rfl
@[simp] theorem State.pathStage_treeValid (s : State) (t : CodeTree) :
    (s.pathStage t).treeValid =
      s.treeValid := rfl
@[simp] theorem State.pathStage_pathsValid (s : State) (t : CodeTree) :
    (s.pathStage t).pathsValid =
      true := rfl
@[simp] theorem State.pathStage_wbusy (s : State) (t : CodeTree) :
    (s.pathStage t).wbusy =
      s.wbusy := rfl
@[simp] theorem State.pathStage_cmd (s : State) (t : CodeTree) :
    (s.pathStage t).cmd =
      s.cmd := rfl
@[simp] theorem State.pathStage_errCode (s : State) (t : CodeTree) :
    (s.pathStage t).errCode =
      s.errCode := rfl
@[simp] theorem State.pathStage_errInfo (s : State) (t : CodeTree) :
    (s.pathStage t).errInfo =
      s.errInfo := rfl
@[simp] theorem State.pathStage_textLen (s : State) (t : CodeTree) :
    (s.pathStage t).textLen =
      s.textLen := rfl
@[simp] theorem State.pathStage_outLen (s : State) (t : CodeTree) :
    (s.pathStage t).outLen =
      s.outLen := rfl
@[simp] theorem State.pathStage_msgLen (s : State) (t : CodeTree) :
    (s.pathStage t).msgLen =
      s.msgLen := rfl
@[simp] theorem State.pathStage_treeBitsLen (s : State) (t : CodeTree) :
    (s.pathStage t).treeBitsLen =
      s.treeBitsLen := rfl
@[simp] theorem State.pathStage_treeLeavesLen (s : State) (t : CodeTree) :
    (s.pathStage t).treeLeavesLen =
      s.treeLeavesLen := rfl
@[simp] theorem State.pathStage_distinct (s : State) (t : CodeTree) :
    (s.pathStage t).distinct =
      s.distinct := rfl
@[simp] theorem State.pathStage_root (s : State) (t : CodeTree) :
    (s.pathStage t).root =
      s.root := rfl
@[simp] theorem State.pathStage_nodeCount (s : State) (t : CodeTree) :
    (s.pathStage t).nodeCount =
      s.nodeCount := rfl
@[simp] theorem State.pathStage_capText (s : State) (t : CodeTree) :
    (s.pathStage t).capText =
      s.capText := rfl
@[simp] theorem State.pathStage_capMsg (s : State) (t : CodeTree) :
    (s.pathStage t).capMsg =
      s.capMsg := rfl
theorem State.pathStage_mem (s : State) (t : CodeTree) :
    (s.pathStage t).mem =
      ((s.putRun 0x004000 4 (codeLens t)).putRun 0x008000 1 (codeBitBytes t)).mem := rfl
@[simp] theorem State.pathStage_epochs (s : State) (t : CodeTree) :
    (s.pathStage t).epochs =
      s.epochs := rfl
@[simp] theorem State.pathStage_draws (s : State) (t : CodeTree) :
    (s.pathStage t).draws =
      s.draws := rfl
@[simp] theorem State.pathStage_program (s : State) (t : CodeTree) :
    (s.pathStage t).program =
      s.program := rfl
@[simp] theorem State.pathStage_reads (s : State) (t : CodeTree) :
    (s.pathStage t).reads =
      s.reads := rfl
@[simp] theorem State.pathStage_turns (s : State) (t : CodeTree) :
    (s.pathStage t).turns =
      s.turns := rfl

/-! ### State.popTurn -/

@[simp] theorem State.popTurn_eng (s : State) :
    (s.popTurn).eng =
      s.eng := rfl
@[simp] theorem State.popTurn_ie (s : State) :
    (s.popTurn).ie =
      s.ie := rfl
@[simp] theorem State.popTurn_done (s : State) :
    (s.popTurn).done =
      s.done := rfl
@[simp] theorem State.popTurn_treeValid (s : State) :
    (s.popTurn).treeValid =
      s.treeValid := rfl
@[simp] theorem State.popTurn_pathsValid (s : State) :
    (s.popTurn).pathsValid =
      s.pathsValid := rfl
@[simp] theorem State.popTurn_wbusy (s : State) :
    (s.popTurn).wbusy =
      s.wbusy := rfl
@[simp] theorem State.popTurn_cmd (s : State) :
    (s.popTurn).cmd =
      s.cmd := rfl
@[simp] theorem State.popTurn_errCode (s : State) :
    (s.popTurn).errCode =
      s.errCode := rfl
@[simp] theorem State.popTurn_errInfo (s : State) :
    (s.popTurn).errInfo =
      s.errInfo := rfl
@[simp] theorem State.popTurn_textLen (s : State) :
    (s.popTurn).textLen =
      s.textLen := rfl
@[simp] theorem State.popTurn_outLen (s : State) :
    (s.popTurn).outLen =
      s.outLen := rfl
@[simp] theorem State.popTurn_msgLen (s : State) :
    (s.popTurn).msgLen =
      s.msgLen := rfl
@[simp] theorem State.popTurn_treeBitsLen (s : State) :
    (s.popTurn).treeBitsLen =
      s.treeBitsLen := rfl
@[simp] theorem State.popTurn_treeLeavesLen (s : State) :
    (s.popTurn).treeLeavesLen =
      s.treeLeavesLen := rfl
@[simp] theorem State.popTurn_distinct (s : State) :
    (s.popTurn).distinct =
      s.distinct := rfl
@[simp] theorem State.popTurn_root (s : State) :
    (s.popTurn).root =
      s.root := rfl
@[simp] theorem State.popTurn_nodeCount (s : State) :
    (s.popTurn).nodeCount =
      s.nodeCount := rfl
@[simp] theorem State.popTurn_capText (s : State) :
    (s.popTurn).capText =
      s.capText := rfl
@[simp] theorem State.popTurn_capMsg (s : State) :
    (s.popTurn).capMsg =
      s.capMsg := rfl
@[simp] theorem State.popTurn_mem (s : State) :
    (s.popTurn).mem =
      s.mem := rfl
@[simp] theorem State.popTurn_epochs (s : State) :
    (s.popTurn).epochs =
      s.epochs := rfl
@[simp] theorem State.popTurn_draws (s : State) :
    (s.popTurn).draws =
      s.draws := rfl
@[simp] theorem State.popTurn_program (s : State) :
    (s.popTurn).program =
      s.program := rfl
@[simp] theorem State.popTurn_reads (s : State) :
    (s.popTurn).reads =
      s.reads := rfl
@[simp] theorem State.popTurn_turns (s : State) :
    (s.popTurn).turns =
      s.turns.tail := rfl

end Sys2Proof.Machine
end

