-- ==== Sys2Proof/Laws/Memory.lean ====
section
/-! SUPPORT. What the memory operations do, byte by byte, and that each keeps the canonical form: the lemmas a proof
cites instead of unfolding `Memory.replace`, `State.putRun` or `State.unspecified`. -/

namespace Sys2Proof.Machine

/-! ### Looking a list up -/

@[simp] theorem Memory.lookup_nil (a : Nat) : Memory.lookup [] a = none := rfl

theorem Memory.lookup_cons (c : Host.Cell) (m : List Host.Cell) (a : Nat) :
    Memory.lookup (c :: m) a = if c.1 = a then some c.2 else Memory.lookup m a := by
  have hb : Nat.beq c.1 a = decide (c.1 = a) := by
    rw [Bool.eq_iff_iff, Nat.beq_eq, decide_eq_true_eq]
  by_cases h : c.1 = a <;> simp [Memory.lookup, hb, h]

theorem Memory.lookup_append (m m' : List Host.Cell) (a : Nat) :
    Memory.lookup (m ++ m') a = (Memory.lookup m a).or (Memory.lookup m' a) := by
  induction m with
  | nil => rfl
  | cons c m ih =>
    simp only [List.cons_append, Memory.lookup_cons, ih]
    split <;> rfl

/-- Filtering by address keeps exactly the addresses that pass. -/
theorem Memory.lookup_filter (q : Nat → Bool) (m : List Host.Cell) (a : Nat) :
    Memory.lookup (m.filter (fun c => q c.1)) a = if q a then Memory.lookup m a else none := by
  induction m with
  | nil => simp
  | cons c m ih =>
    simp only [List.filter_cons, Memory.lookup_cons]
    by_cases h : c.1 = a
    · subst h
      by_cases hq : q c.1 <;> simp_all [Memory.lookup_cons]
    · by_cases hq : q c.1 <;> simp_all [Memory.lookup_cons]

/-- An address none of the cells has is not found. -/
theorem Memory.lookup_eq_none {m : List Host.Cell} {a : Nat} (h : ∀ c ∈ m, c.1 ≠ a) :
    Memory.lookup m a = none := by
  induction m with
  | nil => rfl
  | cons c m ih =>
    simp only [List.mem_cons, forall_eq_or_imp] at h
    simp [Memory.lookup_cons, h.1, ih h.2]

/-- Every address of a run is the base plus a multiple of the stride, inside the run's range. -/
theorem Memory.mem_run {a k : Nat} {bs : List Byte} {c : Host.Cell} (h : c ∈ Memory.run a k bs) :
    ∃ i < bs.length, c.1 = a + k * i := by
  induction bs generalizing a with
  | nil => simp [Memory.run] at h
  | cons b bs ih =>
    simp only [Memory.run, List.mem_cons] at h
    rcases h with rfl | h
    · exact ⟨0, by simp, by simp⟩
    · obtain ⟨i, hi, e⟩ := ih h
      exact ⟨i + 1, by simpa using hi, by rw [e]; ring⟩

/-- Element `i` of a run is found at the base plus `i` strides. -/
theorem Memory.lookup_run {k : Nat} (hk : 0 < k) (bs : List Byte) (a i : Nat) :
    Memory.lookup (Memory.run a k bs) (a + k * i) = bs[i]? := by
  induction bs generalizing a i with
  | nil => simp [Memory.run]
  | cons b bs ih =>
    cases i with
    | zero => simp [Memory.run, Memory.lookup_cons]
    | succ i =>
      have h : a + k * (i + 1) = (a + k) + k * i := by ring
      have hne : a ≠ a + k * (i + 1) := by
        have := Nat.mul_pos hk (Nat.succ_pos i)
        omega
      rw [Memory.run, Memory.lookup_cons, if_neg hne, h, ih, List.getElem?_cons_succ]

/-- Between the elements of a run nothing is found. -/
theorem Memory.lookup_run_between {k : Nat} (bs : List Byte) (a x : Nat) (h : ∀ i < bs.length, x ≠ a + k * i) :
    Memory.lookup (Memory.run a k bs) x = none :=
  Memory.lookup_eq_none fun c hc e => by
    obtain ⟨i, hi, e'⟩ := Memory.mem_run hc
    exact h i hi (by rw [← e, e'])

/-- Replacing a range leaves every address outside it alone. -/
theorem Memory.lookup_replace_outside {lo hi : Nat} {cells m : List Host.Cell} {x : Nat}
    (hc : ∀ c ∈ cells, lo ≤ c.1 ∧ c.1 < hi) (hx : x < lo ∨ hi ≤ x) (hle : lo ≤ hi) :
    Memory.lookup (Memory.replace lo hi cells m) x = Memory.lookup m x := by
  have hn : Memory.lookup cells x = none := Memory.lookup_eq_none fun c h => by
    have := hc c h
    omega
  have h1 := Memory.lookup_filter (fun a => decide (a < lo)) m x
  have h2 := Memory.lookup_filter (fun a => decide (hi ≤ a)) m x
  simp only [Memory.replace, Memory.lookup_append, h1, h2, hn]
  rcases hx with hx | hx
  · have : ¬ hi ≤ x := by omega
    simp [hx, this]
  · have : ¬ x < lo := by omega
    simp [hx, this]

/-- Inside the replaced range only the new cells are found. -/
theorem Memory.lookup_replace_inside {lo hi : Nat} {cells m : List Host.Cell} {x : Nat} (h1 : lo ≤ x) (h2 : x < hi) :
    Memory.lookup (Memory.replace lo hi cells m) x = Memory.lookup cells x := by
  have e1 := Memory.lookup_filter (fun a => decide (a < lo)) m x
  have e2 := Memory.lookup_filter (fun a => decide (hi ≤ a)) m x
  have n1 : ¬ x < lo := by omega
  have n2 : ¬ hi ≤ x := by omega
  simp [Memory.replace, Memory.lookup_append, e1, e2, n1, n2]

/-! ### Bytes -/

/-- A byte depends on the memory list, the draws and the capacities alone. -/
theorem State.byteAt_congr {s t : State} (hm : t.mem = s.mem) (he : t.epochs = s.epochs) (h1 : t.capText = s.capText)
    (h2 : t.capMsg = s.capMsg) (a : Nat) : t.byteAt a = s.byteAt a := by
  simp [State.byteAt, State.regionOf, hm, he, h1, h2]

@[simp] theorem State.byteAt_complete (s : State) (a : Nat) : s.complete.byteAt a = s.byteAt a := rfl
@[simp] theorem State.byteAt_fail (s : State) (e : CmdError) (a : Nat) : (s.fail e).byteAt a = s.byteAt a := rfl
@[simp] theorem State.byteAt_accept (s : State) (w : Word) (a : Nat) : (s.accept w).byteAt a = s.byteAt a := rfl
@[simp] theorem State.byteAt_popTurn (s : State) (a : Nat) : s.popTurn.byteAt a = s.byteAt a := rfl
@[simp] theorem State.byteAt_resetRegisters (s : State) (a : Nat) : s.resetRegisters.byteAt a = s.byteAt a := rfl

theorem Memory.run_bounds {a k : Nat} {bs : List Byte} {c : Host.Cell} (hk : 0 < k) (h : c ∈ Memory.run a k bs) :
    a ≤ c.1 ∧ c.1 < a + k * bs.length := by
  obtain ⟨i, hi, e⟩ := Memory.mem_run h
  have := Nat.mul_lt_mul_of_pos_left hi hk
  omega

/-- A run leaves every byte outside its range as it was. -/
theorem State.byteAt_putRun_outside {s : State} {a k : Nat} {bs : List Byte} {x : Nat} (hk : 0 < k)
    (hx : x < a ∨ a + k * bs.length ≤ x) : (s.putRun a k bs).byteAt x = s.byteAt x := by
  have h : Memory.lookup (s.putRun a k bs).mem x = Memory.lookup s.mem x :=
    Memory.lookup_replace_outside (fun c hc => Memory.run_bounds hk hc) hx (Nat.le_add_right _ _)
  simp only [State.byteAt, h]
  rfl

/-- Element `i` of a run reads back. -/
theorem State.byteAt_putRun {s : State} {a k : Nat} {bs : List Byte} {i : Nat} (hk : 0 < k) (hi : i < bs.length) :
    (s.putRun a k bs).byteAt (a + k * i) = bs[i] := by
  have h2 : a + k * i < a + k * bs.length := by
    have := Nat.mul_lt_mul_of_pos_left hi hk
    omega
  have h : Memory.lookup (s.putRun a k bs).mem (a + k * i) = some bs[i] := by
    rw [State.putRun_mem, Memory.lookup_replace_inside (Nat.le_add_right _ _) h2, Memory.lookup_run hk]
    simp [hi]
  simp [State.byteAt, h]

/-- Where a run's range holds no element of it, the byte is one that nothing has written. -/
theorem State.byteAt_putRun_between {s : State} {a k : Nat} {bs : List Byte} {x : Nat} (h1 : a ≤ x)
    (h2 : x < a + k * bs.length) (h : ∀ i < bs.length, x ≠ a + k * i) :
    (s.putRun a k bs).byteAt x =
      match s.regionOf x with
      | some r => Config.freeByte (s.epochs.get r) x
      | none => 0 := by
  have hn : Memory.lookup (s.putRun a k bs).mem x = none := by
    rw [State.putRun_mem, Memory.lookup_replace_inside h1 h2, Memory.lookup_run_between bs a x h]
  simp only [State.byteAt, hn]
  rfl

/-! ### Words -/

@[simp] theorem wordBytes_length (w : Word) : (wordBytes w).length = 4 := rfl

theorem flatMap_wordBytes_length (ws : List Word) : (ws.flatMap wordBytes).length = 4 * ws.length := by
  induction ws with
  | nil => rfl
  | cons w ws ih => simp [ih]; ring

theorem flatMap_wordBytes_get (ws : List Word) (i j : Nat) (hj : j < 4) :
    (ws.flatMap wordBytes)[4 * i + j]? = ws[i]?.bind (fun w => (wordBytes w)[j]?) := by
  induction ws generalizing i with
  | nil => simp
  | cons w ws ih =>
    cases i with
    | zero =>
      simp only [List.flatMap_cons, Nat.mul_zero, Nat.zero_add]
      rw [List.getElem?_append_left (by simpa using hj)]
      simp
    | succ i =>
      simp only [List.flatMap_cons]
      rw [List.getElem?_append_right (by simp; omega)]
      have : 4 * (i + 1) + j - (wordBytes w).length = 4 * i + j := by simp; omega
      rw [this, ih]
      simp

theorem wordBytes_join (w : Word) :
    (w.extractLsb' 24 8 ++ w.extractLsb' 16 8 ++ w.extractLsb' 8 8 ++ w.extractLsb' 0 8 : BitVec 32) = w := by
  apply BitVec.eq_of_getLsbD_eq
  intro i hi
  simp only [BitVec.getLsbD_append, BitVec.getLsbD_extractLsb']
  by_cases h0 : i < 8
  · simp [h0]
  · by_cases h1 : i < 16
    · simp [h0, show i - 8 < 8 by omega, show 8 + (i - 8) = i by omega]
    · by_cases h2 : i < 24
      · simp [h0, show ¬ i - 8 < 8 by omega, show i - 8 - 8 < 8 by omega, show 16 + (i - 8 - 8) = i by omega]
      · simp [h0, show ¬ i - 8 < 8 by omega, show ¬ i - 8 - 8 < 8 by omega, show i - 8 - 8 - 8 < 8 by omega,
          show 24 + (i - 8 - 8 - 8) = i by omega]

/-- Word `i` of a run of words reads back. -/
theorem State.wordAt_putWords {s : State} {a : Nat} {ws : List Word} {i : Nat} (hi : i < ws.length) :
    (s.putWords a ws).wordAt (a + 4 * i) = ws[i] := by
  have len := flatMap_wordBytes_length ws
  have key : ∀ j (hj : j < 4), (s.putWords a ws).byteAt (a + (4 * i + j)) = (wordBytes ws[i])[j]'(by simpa using hj) := by
    intro j hj
    have hlt : 4 * i + j < (ws.flatMap wordBytes).length := by omega
    have h := State.byteAt_putRun (s := s) (a := a) (k := 1) (bs := ws.flatMap wordBytes) (by omega) hlt
    rw [Nat.one_mul] at h
    rw [State.putWords, h]
    have g := flatMap_wordBytes_get ws i j hj
    rw [List.getElem?_eq_getElem hlt, List.getElem?_eq_getElem hi] at g
    rw [Option.bind_some, List.getElem?_eq_getElem (by simpa using hj)] at g
    exact Option.some.inj g
  have k0 := key 0 (by omega)
  have k1 := key 1 (by omega)
  have k2 := key 2 (by omega)
  have k3 := key 3 (by omega)
  simp only [State.wordAt]
  rw [show a + 4 * i + 3 = a + (4 * i + 3) by ring, show a + 4 * i + 2 = a + (4 * i + 2) by ring,
    show a + 4 * i + 1 = a + (4 * i + 1) by ring, show a + 4 * i = a + (4 * i + 0) by ring, k0, k1, k2, k3]
  exact wordBytes_join ws[i]

/-- A run of words leaves every byte outside its range as it was. -/
theorem State.byteAt_putWords_outside {s : State} {a : Nat} {ws : List Word} {x : Nat}
    (hx : x < a ∨ a + 4 * ws.length ≤ x) : (s.putWords a ws).byteAt x = s.byteAt x := by
  refine State.byteAt_putRun_outside (by omega) ?_
  rw [flatMap_wordBytes_length]
  omega

/-- Two states with the same four bytes hold the same word. -/
theorem State.wordAt_congr {s t : State} {a : Nat} (h : ∀ j < 4, t.byteAt (a + j) = s.byteAt (a + j)) :
    t.wordAt a = s.wordAt a := by
  have h0 := h 0 (by omega)
  have h1 := h 1 (by omega)
  have h2 := h 2 (by omega)
  have h3 := h 3 (by omega)
  simp only [Nat.add_zero] at h0
  simp [State.wordAt, h0, h1, h2, h3]

/-! ### Regions that become unspecified -/

theorem Region.mem_all (r : Region) : r ∈ Region.all := by cases r <;> simp [Region.all]

/-- The region of a byte owns it. -/
theorem State.owns_of_regionOf {s : State} {a : Nat} {r : Region} (h : s.regionOf a = some r) :
    r.owns s.capText.toNat s.capMsg.toNat a = true := by
  simpa using List.find?_some h

theorem Epochs.get_set_self (e : Epochs) (n : Nat) (r : Region) : (e.set n r).get r = n := by cases r <;> rfl

theorem Epochs.get_set_ne (e : Epochs) (n : Nat) {r r' : Region} (h : r ≠ r') : (e.set n r).get r' = e.get r' := by
  cases r <;> cases r' <;> first | rfl | exact absurd rfl h

theorem Epochs.get_foldl (rs : List Region) (n : Nat) (e : Epochs) (r : Region) :
    (rs.foldl (fun e r => e.set n r) e).get r = if r ∈ rs then n else e.get r := by
  induction rs generalizing e with
  | nil => simp
  | cons x rs ih =>
    simp only [List.foldl_cons, ih, List.mem_cons]
    by_cases h : r ∈ rs
    · simp [h]
    · by_cases hx : r = x
      · subst hx; simp [h, Epochs.get_set_self]
      · simp [h, hx, Epochs.get_set_ne _ _ (Ne.symm hx)]

/-- A byte no unspecified region owns stays as it was. -/
theorem State.byteAt_unspecified_outside {s : State} {rs : List Region} {a : Nat}
    (h : ∀ r ∈ rs, r.owns s.capText.toNat s.capMsg.toNat a = false) : (s.unspecified rs).byteAt a = s.byteAt a := by
  have hl : Memory.lookup (s.unspecified rs).mem a = Memory.lookup s.mem a := by
    rw [State.unspecified_mem]
    have := Memory.lookup_filter (fun x => !(rs.any (fun r => r.owns s.capText.toNat s.capMsg.toNat x))) s.mem a
    rw [this]
    have : rs.any (fun r => r.owns s.capText.toNat s.capMsg.toNat a) = false := by
      simpa [List.any_eq_false] using h
    simp [this]
  have hr : (s.unspecified rs).regionOf a = s.regionOf a := rfl
  simp only [State.byteAt, hl, hr]
  cases hm : Memory.lookup s.mem a with
  | some b => rfl
  | none =>
    cases hg : s.regionOf a with
    | none => rfl
    | some r =>
      have ho := State.owns_of_regionOf hg
      have hn : r ∉ rs := fun hmem => by simp [h r hmem] at ho
      simp [State.unspecified_epochs, Epochs.get_foldl, hn]

/-- A byte of an unspecified region is a free value of a draw never used before. -/
theorem State.byteAt_unspecified {s : State} {rs : List Region} {a : Nat} {r : Region} (hr : s.regionOf a = some r)
    (hmem : r ∈ rs) : (s.unspecified rs).byteAt a = Config.freeByte s.draws a := by
  have ho := State.owns_of_regionOf hr
  have hl : Memory.lookup (s.unspecified rs).mem a = none := by
    rw [State.unspecified_mem]
    have := Memory.lookup_filter (fun x => !(rs.any (fun r => r.owns s.capText.toNat s.capMsg.toNat x))) s.mem a
    rw [this]
    have : rs.any (fun r => r.owns s.capText.toNat s.capMsg.toNat a) = true := by
      simp only [List.any_eq_true]
      exact ⟨r, hmem, ho⟩
    simp [this]
  have hr' : (s.unspecified rs).regionOf a = some r := hr
  simp [State.byteAt, hl, hr', State.unspecified_epochs, Epochs.get_foldl, hmem]

/-! ### The canonical form -/

theorem Memory.rising_iff (m : List Host.Cell) : Memory.rising m = true ↔ m.Pairwise (fun c d => c.1 < d.1) := by
  induction m with
  | nil => simp [Memory.rising]
  | cons c m ih => simp [Memory.rising, ih, List.pairwise_cons]

theorem Memory.rising_run (k : Nat) (hk : 0 < k) (bs : List Byte) (a : Nat) :
    Memory.rising (Memory.run a k bs) = true := by
  induction bs generalizing a with
  | nil => rfl
  | cons b bs ih =>
    simp only [Memory.run, Memory.rising, Bool.and_eq_true, ih, and_true, List.all_eq_true, decide_eq_true_eq]
    intro c hc
    have := (Memory.run_bounds hk hc).1
    omega

theorem Memory.rising_replace {lo hi : Nat} {cells m : List Host.Cell} (hm : Memory.rising m = true)
    (hcells : Memory.rising cells = true) (hb : ∀ c ∈ cells, lo ≤ c.1 ∧ c.1 < hi) (hle : lo ≤ hi) :
    Memory.rising (Memory.replace lo hi cells m) = true := by
  rw [Memory.rising_iff] at *
  simp only [Memory.replace, List.pairwise_append, List.mem_append, List.mem_filter, decide_eq_true_eq]
  refine ⟨⟨hm.filter _, hcells, ?_⟩, hm.filter _, ?_⟩
  · rintro c ⟨-, h⟩ d hd
    have := (hb d hd).1
    omega
  · rintro c (⟨-, h⟩ | h) d ⟨-, hd⟩
    · omega
    · have := (hb c h).2
      omega

/-- A run keeps the canonical form where each of its elements is storage. -/
theorem State.memWf_putRun {s : State} {a k : Nat} {bs : List Byte} (h : s.memWf = true) (hk : 0 < k)
    (ho : ∀ i < bs.length, (s.regionOf (a + k * i)).isSome) : (s.putRun a k bs).memWf = true := by
  simp only [State.memWf, Bool.and_eq_true, List.all_eq_true] at *
  refine ⟨Memory.rising_replace h.1 (Memory.rising_run k hk bs a) (fun c hc => Memory.run_bounds hk hc)
    (Nat.le_add_right _ _), ?_⟩
  intro c hc
  have hr : (s.putRun a k bs).regionOf c.1 = s.regionOf c.1 := rfl
  rw [hr]
  simp only [State.putRun_mem, Memory.replace, List.mem_append, List.mem_filter] at hc
  rcases hc with (⟨hc, -⟩ | hc) | ⟨hc, -⟩
  · exact h.2 c hc
  · obtain ⟨i, hi, e⟩ := Memory.mem_run hc
    rw [e]; exact ho i hi
  · exact h.2 c hc

/-- A region that becomes unspecified keeps the canonical form. -/
theorem State.memWf_unspecified {s : State} (rs : List Region) (h : s.memWf = true) :
    (s.unspecified rs).memWf = true := by
  simp only [State.memWf, Bool.and_eq_true, List.all_eq_true] at *
  refine ⟨?_, ?_⟩
  · rw [Memory.rising_iff] at *
    exact h.1.filter _
  · intro c hc
    have hr : (s.unspecified rs).regionOf c.1 = s.regionOf c.1 := rfl
    rw [hr]
    simp only [State.unspecified_mem, List.mem_filter] at hc
    exact h.2 c hc.1

/-- Nothing is listed at reset, which is canonical. -/
theorem State.memWf_reset : State.reset.memWf = true := rfl

end Sys2Proof.Machine
end

