-- ==== Sys2Proof/Laws/Pack.lean ====
section
/-! SUPPORT. Packing a bit sequence into bytes and reading its bits back (rule R64), and reading back a run of symbols. -/

namespace Sys2Proof.Machine

theorem bitsToNat_lt (bs : List Bool) : bitsToNat bs < 2 ^ bs.length := by
  induction bs with
  | nil => simp [bitsToNat]
  | cons b bs ih =>
    simp only [bitsToNat, List.length_cons, pow_succ]
    cases b <;> simp <;> omega

/-- Bit `i` of the number is element `i` of the sequence. -/
theorem bitsToNat_testBit (bs : List Bool) (i : Nat) : (bitsToNat bs).testBit i = bs.getD i false := by
  induction bs generalizing i with
  | nil => simp [bitsToNat]
  | cons b bs ih =>
    cases i with
    | zero => cases b <;> simp [bitsToNat, Nat.testBit_zero]
    | succ i =>
      have h : bitsToNat (b :: bs) / 2 = bitsToNat bs := by cases b <;> simp [bitsToNat]; omega
      rw [Nat.testBit_succ, h, ih]
      simp

@[simp] theorem packBytes_length (n : Nat) (bits : List Bool) : (packBytes n bits).length = n := by
  induction n generalizing bits with
  | zero => rfl
  | succ n ih => simp [packBytes, ih]

/-- Bit `j` of packed byte `i` is element `8·i + j` of the sequence, 0 past its end. -/
theorem packBytes_bit (n : Nat) (bits : List Bool) (i j : Nat) (hi : i < n) (hj : j < 8) :
    ((packBytes n bits)[i]'(by simpa using hi)).getLsbD j = bits.getD (8 * i + j) false := by
  induction n generalizing bits i with
  | zero => omega
  | succ n ih =>
    cases i with
    | zero =>
      simp only [packBytes, List.getElem_cons_zero, BitVec.getLsbD_ofNat, hj, decide_true, Bool.true_and,
        bitsToNat_testBit]
      simp [List.getD_eq_getElem?_getD, hj]
    | succ i =>
      simp only [packBytes, List.getElem_cons_succ]
      rw [ih (bits.drop 8) i (by omega)]
      simp only [List.getD_eq_getElem?_getD, List.getElem?_drop]
      congr 2
      ring

theorem packWords_length (bits : List Bool) : (packWords bits).length = packedBytes bits.length := by
  simp [packWords]

/-- The bits of a packed run read back, 0 past the end of the sequence. -/
theorem State.bitAt_putRun_packBytes {s : State} {base n i : Nat} {bits : List Bool} (hi : i < 8 * n) :
    (s.putRun base 1 (packBytes n bits)).bitAt base i = bits.getD i false := by
  have hn : i / 8 < n := by omega
  have hb := State.byteAt_putRun (s := s) (a := base) (k := 1) (bs := packBytes n bits) (i := i / 8) (by omega)
    (by simpa using hn)
  rw [Nat.one_mul] at hb
  rw [State.bitAt, hb, packBytes_bit n bits (i / 8) (i % 8) hn (by omega)]
  congr 1
  omega

/-- Every bit of the packed words of a sequence reads back, 0 in the unused bits of the last word. -/
theorem State.bitAt_putRun_packWords {s : State} {base i : Nat} {bits : List Bool}
    (hi : i < 32 * ((bits.length + 31) / 32)) :
    (s.putRun base 1 (packWords bits)).bitAt base i = bits.getD i false :=
  State.bitAt_putRun_packBytes (by rw [packedBytes]; omega)

/-- The whole sequence reads back. -/
theorem State.bits_putRun_packWords (s : State) (base : Nat) (bits : List Bool) :
    (List.range bits.length).map ((s.putRun base 1 (packWords bits)).bitAt base) = bits := by
  apply List.ext_getElem
  · simp
  · intro i h1 h2
    simp only [List.length_map, List.length_range] at h1
    simp only [List.getElem_map, List.getElem_range]
    rw [State.bitAt_putRun_packWords (by omega)]
    simp [List.getD_eq_getElem?_getD, h1]

/-- A run of symbols reads back. -/
theorem State.bytes_putRun (s : State) (base k : Nat) (hk : 0 < k) (bs : List Byte) :
    (List.range bs.length).map (fun i => (s.putRun base k bs).byteAt (base + k * i)) = bs := by
  apply List.ext_getElem
  · simp
  · intro i h1 h2
    simp only [List.length_map, List.length_range] at h1
    simp only [List.getElem_map, List.getElem_range]
    exact State.byteAt_putRun hk h1

/-- A bit of another place is untouched by a change that leaves its byte alone. -/
theorem State.bitAt_congr {s t : State} {base i : Nat} (h : t.byteAt (base + i / 8) = s.byteAt (base + i / 8)) :
    t.bitAt base i = s.bitAt base i := by
  rw [State.bitAt, State.bitAt, h]

end Sys2Proof.Machine
end

