-- ==== Sys2Proof/Laws/Trees.lean ====
section
/-! SUPPORT. The tree functions (rules R13, R110, R122), the NODE words (rule R36), and the tree the arena holds. -/

namespace Sys2Proof.Machine

/-! ### Trees -/

theorem CodeTree.size_pos (t : CodeTree) : 1 ≤ t.size := by cases t <;> simp [CodeTree.size]

theorem CodeTree.leaves_pos (t : CodeTree) : 1 ≤ t.leaves.length := by
  induction t with
  | leaf s => simp [CodeTree.leaves]
  | node z o hz ho => simp [CodeTree.leaves]; omega

theorem CodeTree.bits_length (t : CodeTree) : t.bits.length = t.size := by
  induction t with
  | leaf s => rfl
  | node z o hz ho => simp [CodeTree.bits, CodeTree.size, hz, ho]

/-- A tree of k leaves has 2k−1 nodes. -/
theorem CodeTree.size_eq (t : CodeTree) : t.size + 1 = 2 * t.leaves.length := by
  induction t with
  | leaf s => rfl
  | node z o hz ho => simp [CodeTree.size, CodeTree.leaves]; omega

theorem CodeTree.height_le (t : CodeTree) : 2 * t.height + 1 ≤ t.size := by
  induction t with
  | leaf s => simp [CodeTree.height, CodeTree.size]
  | node z o hz ho =>
    have := z.size_pos
    have := o.size_pos
    simp only [CodeTree.height, CodeTree.size]
    omega

theorem CodeTree.pathOf_isSome (t : CodeTree) (x : Symbol) : (t.pathOf x).isSome = true ↔ x ∈ t.leaves := by
  induction t with
  | leaf s => simp only [CodeTree.pathOf, CodeTree.leaves, List.mem_singleton]; split <;> simp_all [eq_comm]
  | node z o hz ho =>
    simp only [CodeTree.pathOf, CodeTree.leaves, List.mem_append, ← hz, ← ho]
    cases hz' : z.pathOf x <;> cases ho' : o.pathOf x <;> simp

theorem CodeTree.code_of_not_mem {t : CodeTree} {x : Symbol} (h : x ∉ t.leaves) : t.code x = [] := by
  have : t.pathOf x = none := by
    rw [← Option.not_isSome_iff_eq_none, CodeTree.pathOf_isSome]
    exact h
  simp [CodeTree.code, this]

theorem CodeTree.pathOf_eq_code {t : CodeTree} {x : Symbol} (h : x ∈ t.leaves) : t.pathOf x = some (t.code x) := by
  have := (t.pathOf_isSome x).mpr h
  obtain ⟨p, hp⟩ := Option.isSome_iff_exists.mp this
  simp [CodeTree.code, hp]

/-- The code of a symbol of the zero subtree. -/
theorem CodeTree.code_zero {z o : CodeTree} {x : Symbol} (h : x ∈ z.leaves) : (CodeTree.node z o).code x = false :: z.code x := by
  have hp := CodeTree.pathOf_eq_code h
  rw [CodeTree.code, CodeTree.pathOf, hp, Option.getD_some]

/-- The code of a symbol of the one subtree only. -/
theorem CodeTree.code_one {z o : CodeTree} {x : Symbol} (hz : x ∉ z.leaves) (ho : x ∈ o.leaves) :
    (CodeTree.node z o).code x = true :: o.code x := by
  have : z.pathOf x = none := by
    rw [← Option.not_isSome_iff_eq_none, CodeTree.pathOf_isSome]
    exact hz
  have hp := CodeTree.pathOf_eq_code ho
  rw [CodeTree.code, CodeTree.pathOf, this, hp, Option.getD_some]

theorem CodeTree.code_length_le (t : CodeTree) (x : Symbol) : (t.code x).length ≤ t.height := by
  induction t with
  | leaf s => simp only [CodeTree.code, CodeTree.pathOf, CodeTree.height]; split <;> simp
  | node z o hz ho =>
    by_cases h1 : x ∈ z.leaves
    · rw [CodeTree.code_zero h1]; simp only [List.length_cons, CodeTree.height]; omega
    · by_cases h2 : x ∈ o.leaves
      · rw [CodeTree.code_one h1 h2]; simp only [List.length_cons, CodeTree.height]; omega
      · rw [CodeTree.code_of_not_mem (by simp [CodeTree.leaves, h1, h2])]; simp

/-! ### NODE words -/

@[simp] theorem nodeIsLeaf_leafWord (x : Symbol) : nodeIsLeaf (leafWord x) = true := by
  simp [nodeIsLeaf, leafWord]

@[simp] theorem nodeSym_leafWord (x : Symbol) : nodeSym (leafWord x) = x := by
  apply BitVec.eq_of_getLsbD_eq
  intro i hi
  have h : (0x80000000#32).getLsbD i = false := by
    interval_cases i <;> rfl
  simp only [nodeSym, leafWord, BitVec.getLsbD_extractLsb', BitVec.getLsbD_or, BitVec.getLsbD_setWidth, Nat.zero_add]
  rw [show (2147483648 : Word).getLsbD i = false from h]
  simp only [hi, show i < 32 by omega, decide_true, Bool.true_and, Bool.false_or]

theorem interiorWord_toNat {z o : Nat} (hz : z < 512) (ho : o < 512) : (interiorWord z o).toNat = o * 65536 + z := by
  have h1 : (BitVec.ofNat 32 o <<< 16).toNat = o * 65536 := by
    simp [BitVec.toNat_shiftLeft, Nat.shiftLeft_eq]
    omega
  have h2 : (BitVec.ofNat 32 z).toNat = z := by
    simp; omega
  rw [interiorWord, BitVec.toNat_or, h1, h2, show o * 65536 = 2 ^ 16 * o by ring, Nat.two_pow_add_eq_or_of_lt (by omega)]

theorem nodeIsLeaf_interiorWord {z o : Nat} (hz : z < 512) (ho : o < 512) : nodeIsLeaf (interiorWord z o) = false := by
  rw [nodeIsLeaf, BitVec.getLsbD, interiorWord_toNat hz ho]
  exact Nat.testBit_lt_two_pow (by omega)

theorem nodeZero_interiorWord {z o : Nat} (hz : z < 512) (ho : o < 512) : nodeZero (interiorWord z o) = z := by
  simp [nodeZero, interiorWord_toNat hz ho]
  omega

theorem nodeOne_interiorWord {z o : Nat} (hz : z < 512) (ho : o < 512) : nodeOne (interiorWord z o) = o := by
  simp [nodeOne, interiorWord_toNat hz ho, Nat.shiftRight_eq_div_pow]
  omega

theorem nodeForm_leafWord (x : Symbol) : nodeForm (leafWord x) := by
  left
  refine ⟨nodeIsLeaf_leafWord x, ?_⟩
  apply BitVec.eq_of_getLsbD_eq
  intro i hi
  have h : (0x80000000#32).getLsbD (8 + i) = false := by
    interval_cases i <;> rfl
  have : (BitVec.ofNat 32 0x80000000).getLsbD (8 + i) = false := h
  simp only [leafWord, BitVec.getLsbD_extractLsb', BitVec.getLsbD_or, BitVec.getLsbD_setWidth]
  simp [hi, this]

theorem nodeForm_interiorWord {z o : Nat} (hz : z < 512) (ho : o < 512) : nodeForm (interiorWord z o) := by
  right
  refine ⟨nodeIsLeaf_interiorWord hz ho, ?_, ?_⟩
  · apply BitVec.eq_of_toNat_eq
    simp [interiorWord_toNat hz ho, Nat.shiftRight_eq_div_pow]
    omega
  · apply BitVec.eq_of_toNat_eq
    simp [interiorWord_toNat hz ho, Nat.shiftRight_eq_div_pow]
    omega

theorem nodeZero_lt (w : Word) : nodeZero w < 512 := (w.extractLsb' 0 9).isLt
theorem nodeOne_lt (w : Word) : nodeOne w < 512 := (w.extractLsb' 16 9).isLt

/-! ### The tree in the arena -/

theorem State.treeAt_succ (s : State) (fuel i : Nat) :
    s.treeAt (fuel + 1) i =
      if nodeIsLeaf (s.nodeAt i) then some (.leaf (nodeSym (s.nodeAt i)))
      else
        match s.treeAt fuel (nodeZero (s.nodeAt i)), s.treeAt fuel (nodeOne (s.nodeAt i)) with
        | some z, some o => some (.node z o)
        | _, _ => none := rfl

/-- What it is for the arena to hold a leaf under an index. -/
theorem State.treeAt_leaf {s : State} {fuel i : Nat} (h : nodeIsLeaf (s.nodeAt i) = true) :
    s.treeAt (fuel + 1) i = some (.leaf (nodeSym (s.nodeAt i))) := by
  simp [State.treeAt_succ, h]

/-- What it is for the arena to hold an interior node under an index. -/
theorem State.treeAt_node_iff {s : State} {fuel i : Nat} {z o : CodeTree} :
    s.treeAt (fuel + 1) i = some (.node z o) ↔
      nodeIsLeaf (s.nodeAt i) = false ∧ s.treeAt fuel (nodeZero (s.nodeAt i)) = some z ∧
        s.treeAt fuel (nodeOne (s.nodeAt i)) = some o := by
  rw [State.treeAt_succ]
  cases h : nodeIsLeaf (s.nodeAt i)
  · cases h1 : s.treeAt fuel (nodeZero (s.nodeAt i)) <;> cases h2 : s.treeAt fuel (nodeOne (s.nodeAt i)) <;> simp
  · simp

/-- More levels do not change the tree that is found. -/
theorem State.treeAt_mono {s : State} {fuel fuel' i : Nat} {t : CodeTree} (h : s.treeAt fuel i = some t)
    (hle : fuel ≤ fuel') : s.treeAt fuel' i = some t := by
  induction fuel generalizing fuel' i t with
  | zero => simp [State.treeAt] at h
  | succ fuel ih =>
    obtain ⟨f', rfl⟩ : ∃ f', fuel' = f' + 1 := ⟨fuel' - 1, by omega⟩
    cases t with
    | leaf x =>
      rw [State.treeAt_succ] at h ⊢
      split at h
      · rename_i hl
        rw [if_pos hl]; exact h
      · split at h <;> simp at h
    | node z o =>
      rw [State.treeAt_node_iff] at h ⊢
      exact ⟨h.1, ih h.2.1 (by omega), ih h.2.2 (by omega)⟩

/-- The tree depends on the arena words alone. -/
theorem State.treeAt_congr {s t : State} (h : ∀ i < 512, t.nodeAt i = s.nodeAt i) (fuel i : Nat) (hi : i < 512) :
    t.treeAt fuel i = s.treeAt fuel i := by
  induction fuel generalizing i with
  | zero => rfl
  | succ fuel ih =>
    simp only [State.treeAt_succ, h i hi]
    rw [ih _ (nodeZero_lt _), ih _ (nodeOne_lt _)]

/-- A traversal meets one index per node of the tree it reads. -/
theorem State.indicesAt_length {s : State} {fuel i : Nat} {t : CodeTree} (h : s.treeAt fuel i = some t) :
    (s.indicesAt fuel i).length = t.size := by
  induction fuel generalizing i t with
  | zero => simp [State.treeAt] at h
  | succ fuel ih =>
    cases t with
    | leaf x =>
      rw [State.treeAt_succ] at h
      split at h
      · simp_all [State.indicesAt, CodeTree.size]
      · split at h <;> simp at h
    | node z o =>
      rw [State.treeAt_node_iff] at h
      simp [State.indicesAt, h.1, CodeTree.size, ih h.2.1, ih h.2.2]

/-- What `currentTree` answers. -/
theorem State.currentTree_iff {s : State} {t : CodeTree} :
    s.currentTree = some t ↔
      s.treeAt Config.maxNodes s.root.toNat = some t ∧ t.size ≤ Config.maxNodes ∧ t.leaves.Nodup := by
  rw [State.currentTree]
  cases h : s.treeAt Config.maxNodes s.root.toNat with
  | none => simp
  | some u =>
    by_cases hu : u.size ≤ Config.maxNodes ∧ u.leaves.Nodup
    · simp only [hu, and_self, if_true, Option.some.injEq]
      constructor
      · rintro rfl; exact ⟨rfl, hu⟩
      · exact fun h => h.1
    · simp only [hu, if_false, Option.some.injEq]
      constructor
      · intro h; simp at h
      · rintro ⟨rfl, h⟩; exact absurd h hu

/-- A state that meets R37 has a current tree, of NODE_COUNT nodes. -/
theorem State.ArenaOk.currentTree {s : State} (h : s.ArenaOk) (hv : s.treeValid = true) :
    ∃ t, s.currentTree = some t ∧ t.size = s.nodeCount.toNat := by
  obtain ⟨⟨t, ht, hn⟩, hp, -⟩ := h hv
  have hs : t.size = s.nodeCount.toNat := by
    rw [← State.indicesAt_length ht, hp.length_eq, List.length_range]
  refine ⟨t, State.currentTree_iff.mpr ⟨ht, ?_, hn⟩, hs⟩
  have := s.nodeCount.isLt
  simp only [Config.maxNodes]
  omega

end Sys2Proof.Machine
end

