-- ==== Sys2Proof/Laws/Commands.lean ====
section
/-! SUPPORT. For each command, every way its completion step can end: the one place where a proof takes a meaning apart.
COUNT, BUILD, TDEC and SDEC always answer a next state; TENC, PATHS and SENC fault only with TREE_VALID = 1 and no
current tree. -/

namespace Sys2Proof.Machine

/-- How COUNT ends (R95). -/
theorem execCount_next {s t : State} (h : execCount s = .next t) :
    (s.capText.toNat < s.textLen.toNat ∧ t = s.fail ⟨.badLength, 0x1C⟩) ∨
    (s.textLen.toNat ≤ s.capText.toNat ∧ t = s.countText (countTable s.text)) := by
  simp only [execCount, Host.Outcome.next.injEq] at h
  split at h
  · exact .inl ⟨by assumption, h.symm⟩
  · exact .inr ⟨by omega, h.symm⟩

/-- How BUILD ends (R101). -/
theorem execBuild_next {s t : State} (h : execBuild s = .next t) : t = s.buildTree s.presentSymbols := by
  simpa [execBuild, eq_comm] using h

/-- How TENC ends (R110). -/
theorem execTenc_next {s t : State} (h : execTenc s = .next t) :
    (s.treeValid = false ∧ t = s.fail ⟨.noTree, 0⟩) ∨
    (s.treeValid = true ∧ ∃ tr, s.currentTree = some tr ∧ t = s.flattenTree tr) := by
  simp only [execTenc] at h
  split at h
  · split at h
    · exact .inr ⟨by assumption, _, by assumption, by simpa [eq_comm] using h⟩
    · simp at h
  · exact .inl ⟨by simpa using ‹¬ s.treeValid = true›, by simpa [eq_comm] using h⟩

/-- How TDEC ends (R117). -/
theorem execTdec_next {s t : State} (h : execTdec s = .next t) :
    (511 < s.treeBitsLen.toNat ∧ t = s.fail ⟨.badLength, 0x28⟩) ∨
    (s.treeBitsLen.toNat ≤ 511 ∧ 256 < s.treeLeavesLen.toNat ∧ t = s.fail ⟨.badLength, 0x2C⟩) ∨
    (s.treeBitsLen.toNat ≤ 511 ∧ s.treeLeavesLen.toNat ≤ 256 ∧
      t = s.rebuildTree (parseTree s.treeBitSeq s.treeLeafSeq)) := by
  simp only [execTdec, Host.Outcome.next.injEq] at h
  split at h
  · rename_i h1
    exact .inl ⟨h1, h.symm⟩
  · rename_i h1
    have h1' : s.treeBitsLen.toNat ≤ 511 := Nat.le_of_not_lt h1
    split at h
    · rename_i h2
      exact .inr (.inl ⟨h1', h2, h.symm⟩)
    · rename_i h2
      exact .inr (.inr ⟨h1', Nat.le_of_not_lt h2, h.symm⟩)

/-- How PATHS ends (R123). -/
theorem execPaths_next {s t : State} (h : execPaths s = .next t) :
    (s.treeValid = false ∧ t = s.fail ⟨.noTree, 0⟩) ∨
    (s.treeValid = true ∧ s.rootIsLeaf = true ∧ t = s.fail ⟨.degenerateTree, 0⟩) ∨
    (s.treeValid = true ∧ s.rootIsLeaf = false ∧ ∃ tr, s.currentTree = some tr ∧ t = (s.pathStage tr).complete) := by
  simp only [execPaths] at h
  split at h
  · split at h
    · exact .inr (.inl ⟨by assumption, by assumption, by simpa [eq_comm] using h⟩)
    · split at h
      · exact .inr (.inr ⟨by assumption, by simpa using ‹¬ s.rootIsLeaf = true›, _, by assumption,
          by simpa [eq_comm] using h⟩)
      · simp at h
  · exact .inl ⟨by simpa using ‹¬ s.treeValid = true›, by simpa [eq_comm] using h⟩

/-- How SENC ends (R125). -/
theorem execSenc_next {s t : State} (h : execSenc s = .next t) :
    (s.capText.toNat < s.textLen.toNat ∧ t = s.fail ⟨.badLength, 0x1C⟩) ∨
    (s.textLen.toNat ≤ s.capText.toNat ∧ s.treeValid = false ∧ t = s.fail ⟨.noTree, 0⟩) ∨
    (s.textLen.toNat ≤ s.capText.toNat ∧ s.treeValid = true ∧ s.rootIsLeaf = true ∧
      t = s.fail ⟨.degenerateTree, 0⟩) ∨
    (s.textLen.toNat ≤ s.capText.toNat ∧ s.treeValid = true ∧ s.rootIsLeaf = false ∧
      ∃ tr, s.currentTree = some tr ∧
        t = (s.pathStage tr).storeMessage (encodeText tr s.capMsg.toNat s.text 0 0)) := by
  simp only [execSenc] at h
  split at h
  · exact .inl ⟨by assumption, by simpa [eq_comm] using h⟩
  · have hle : s.textLen.toNat ≤ s.capText.toNat := by omega
    split at h
    · split at h
      · exact .inr (.inr (.inl ⟨hle, by assumption, by assumption, by simpa [eq_comm] using h⟩))
      · split at h
        · exact .inr (.inr (.inr ⟨hle, by assumption, by simpa using ‹¬ s.rootIsLeaf = true›, _, by assumption,
            by simpa [eq_comm] using h⟩))
        · simp at h
    · exact .inr (.inl ⟨hle, by simpa using ‹¬ s.treeValid = true›, by simpa [eq_comm] using h⟩)

/-- How SDEC ends (R132). -/
theorem execSdec_next {s t : State} (h : execSdec s = .next t) :
    (s.capMsg.toNat < s.msgLen.toNat ∧ t = s.fail ⟨.badLength, 0x24⟩) ∨
    (s.msgLen.toNat ≤ s.capMsg.toNat ∧ s.treeValid = false ∧ t = s.fail ⟨.noTree, 0⟩) ∨
    (s.msgLen.toNat ≤ s.capMsg.toNat ∧ s.treeValid = true ∧ s.rootIsLeaf = true ∧
      t = s.fail ⟨.degenerateTree, 0⟩) ∨
    (s.msgLen.toNat ≤ s.capMsg.toNat ∧ s.treeValid = true ∧ s.rootIsLeaf = false ∧
      t = s.storeOutput (s.decodeBits s.message 0 s.root.toNat 0 0)) := by
  simp only [execSdec, Host.Outcome.next.injEq] at h
  split at h
  · exact .inl ⟨by assumption, h.symm⟩
  · have hle : s.msgLen.toNat ≤ s.capMsg.toNat := by omega
    split at h
    · split at h
      · exact .inr (.inr (.inl ⟨hle, by assumption, by assumption, h.symm⟩))
      · exact .inr (.inr (.inr ⟨hle, by assumption, by simpa using ‹¬ s.rootIsLeaf = true›, h.symm⟩))
    · exact .inr (.inl ⟨hle, by simpa using ‹¬ s.treeValid = true›, h.symm⟩)

/-- Whatever a command does, it ends idle with DONE = 1 and leaves CTRL, CMD, the length registers it only reads, the
constants, the host and the schedule alone (R140, R141). -/
theorem exec_next_shared {i : Instr} {s t : State} (h : exec i s = .next t) :
    t.eng = .idle ∧ t.done = true ∧ t.ie = s.ie ∧ t.wbusy = s.wbusy ∧ t.cmd = s.cmd ∧ t.textLen = s.textLen ∧
      t.capText = s.capText ∧ t.capMsg = s.capMsg ∧ t.program = s.program ∧ t.reads = s.reads ∧ t.turns = s.turns := by
  cases i with
  | count =>
    rcases execCount_next h with ⟨-, rfl⟩ | ⟨-, rfl⟩
    · simp
    · simp only [State.countText]; split <;> simp
  | build =>
    have := execBuild_next h
    subst this
    simp only [State.buildTree]; split <;> simp
  | tenc =>
    rcases execTenc_next h with ⟨-, rfl⟩ | ⟨-, tr, -, rfl⟩
    · simp
    · simp [State.flattenTree]
  | tdec =>
    rcases execTdec_next h with ⟨-, rfl⟩ | ⟨-, -, rfl⟩ | ⟨-, -, rfl⟩
    · simp
    · simp
    · simp only [State.rebuildTree]; split <;> simp
  | paths =>
    rcases execPaths_next h with ⟨-, rfl⟩ | ⟨-, -, rfl⟩ | ⟨-, -, tr, -, rfl⟩ <;> simp
  | senc =>
    rcases execSenc_next h with ⟨-, rfl⟩ | ⟨-, -, rfl⟩ | ⟨-, -, -, rfl⟩ | ⟨-, -, -, tr, -, rfl⟩
    · simp
    · simp
    · simp
    · simp only [State.storeMessage]; split <;> simp
  | sdec =>
    rcases execSdec_next h with ⟨-, rfl⟩ | ⟨-, -, rfl⟩ | ⟨-, -, -, rfl⟩ | ⟨-, -, -, rfl⟩
    · simp
    · simp
    · simp
    · simp only [State.storeOutput]; split <;> simp

end Sys2Proof.Machine
end

