-- ==== Sys2Proof/Laws/PathStage.lean ====
section
/-! SUPPORT. The path stage, the one operation PATHS and SENC share (rule R123): what the table holds after it, what it
leaves unchanged, and that memory stays in canonical form. Also the one way to show that a byte is storage. -/

namespace Sys2Proof.Machine

/-- A byte some region owns is storage. -/
theorem State.regionOf_isSome {s : State} {a : Nat} (r : Region) (h : r.owns s.capText.toNat s.capMsg.toNat a = true) :
    (s.regionOf a).isSome = true := by
  rw [State.regionOf, List.find?_isSome]
  exact ⟨r, Region.mem_all r, h⟩

/-- Which bytes a region owns (R62, R65). -/
theorem Region.owns_iff {ct cm : Nat} {r : Region} {a : Nat} :
    r.owns ct cm a = true ↔ (r.base ≤ a ∧ a < r.base + r.span ct cm) ∧ (r.byteWide = true → a % 4 = 0) := by
  cases h : r.byteWide <;> simp [Region.owns, h]

theorem codeLens_length (t : CodeTree) : (codeLens t).length = 256 := by simp [codeLens, Config.nsym]

theorem flatMap_fixed_length {α β : Type} (f : α → List β) (n : Nat) (hf : ∀ x, (f x).length = n) (l : List α) :
    (l.flatMap f).length = n * l.length := by
  induction l with
  | nil => rfl
  | cons x l ih => simp [ih, hf, Nat.mul_succ, Nat.add_comm]

theorem flatMap_fixed_get {α β : Type} (f : α → List β) (n : Nat) (hf : ∀ x, (f x).length = n) (l : List α) (i j : Nat)
    (hj : j < n) : (l.flatMap f)[n * i + j]? = l[i]?.bind (fun x => (f x)[j]?) := by
  induction l generalizing i with
  | nil => simp
  | cons x l ih =>
    rw [List.flatMap_cons]
    cases i with
    | zero =>
      rw [List.getElem?_append_left (by rw [hf]; omega)]
      simp
    | succ i =>
      rw [List.getElem?_append_right (by rw [hf, Nat.mul_succ]; omega), hf,
        show n * (i + 1) + j - n = n * i + j by rw [Nat.mul_succ]; omega, ih]
      simp

theorem codeBitBytes_length (t : CodeTree) : (codeBitBytes t).length = 8192 := by
  rw [codeBitBytes, flatMap_fixed_length _ 32 (fun i => by simp)]
  simp [Config.nsym]

/-- The path stage writes nothing outside CODE_LEN and CODE_BITS (R123). -/
theorem State.byteAt_pathStage_outside {s : State} {t : CodeTree} {a : Nat} (h1 : a < 0x4000 ∨ 0x4400 ≤ a)
    (h2 : a < 0x8000 ∨ 0xA000 ≤ a) : (s.pathStage t).byteAt a = s.byteAt a := by
  have e2 : ((s.putRun 0x004000 4 (codeLens t)).putRun 0x008000 1 (codeBitBytes t)).byteAt a =
      (s.putRun 0x004000 4 (codeLens t)).byteAt a :=
    State.byteAt_putRun_outside (by omega) (by rw [codeBitBytes_length]; omega)
  have e1 : (s.putRun 0x004000 4 (codeLens t)).byteAt a = s.byteAt a :=
    State.byteAt_putRun_outside (by omega) (by rw [codeLens_length]; omega)
  exact e2.trans e1

/-- CODE_LEN after the path stage (R123). -/
theorem State.codeLenAt_pathStage (s : State) (t : CodeTree) {i : Nat} (hi : i < 256) :
    (s.pathStage t).codeLenAt i = BitVec.ofNat 8 (t.code (BitVec.ofNat 8 i)).length := by
  have e2 : ((s.putRun 0x004000 4 (codeLens t)).putRun 0x008000 1 (codeBitBytes t)).byteAt (0x004000 + 4 * i) =
      (s.putRun 0x004000 4 (codeLens t)).byteAt (0x004000 + 4 * i) :=
    State.byteAt_putRun_outside (by omega) (by omega)
  have e1 := State.byteAt_putRun (s := s) (a := 0x004000) (k := 4) (bs := codeLens t) (i := i) (by omega)
    (by rw [codeLens_length]; exact hi)
  refine (e2.trans e1).trans ?_
  simp [codeLens]

/-- CODE_BITS after the path stage: the path, 0 past its end (R123, R38). -/
theorem State.codeBitAt_pathStage (s : State) (t : CodeTree) {i j : Nat} (hi : i < 256) (hj : j < 256) :
    (s.pathStage t).codeBitAt i j = (t.code (BitVec.ofNat 8 i)).getD j false := by
  have hlt : 32 * i + j / 8 < (codeBitBytes t).length := by rw [codeBitBytes_length]; omega
  have e1 := State.byteAt_putRun (s := s.putRun 0x004000 4 (codeLens t)) (a := 0x008000) (k := 1) (bs := codeBitBytes t)
    (i := 32 * i + j / 8) (by omega) hlt
  have hg := flatMap_fixed_get (fun i => packBytes 32 (t.code (BitVec.ofNat 8 i))) 32 (fun i => by simp)
    (List.range Config.nsym) i (j / 8) (by omega)
  have hr : (List.range Config.nsym)[i]? = some i := by
    rw [List.getElem?_range]; exact hi
  have hb : j / 8 < (packBytes 32 (t.code (BitVec.ofNat 8 i))).length := by simp; omega
  rw [hr, Option.bind_some, List.getElem?_eq_getElem hb] at hg
  have hv : (codeBitBytes t)[32 * i + j / 8] = (packBytes 32 (t.code (BitVec.ofNat 8 i)))[j / 8] := by
    have h' : (codeBitBytes t)[32 * i + j / 8]? = some (packBytes 32 (t.code (BitVec.ofNat 8 i)))[j / 8] := hg
    rw [List.getElem?_eq_getElem hlt] at h'
    exact Option.some.inj h'
  have ha : 0x008000 + 1 * (32 * i + j / 8) = 0x008000 + 32 * i + j / 8 := by omega
  rw [ha] at e1
  have : (s.pathStage t).codeBitAt i j = ((codeBitBytes t)[32 * i + j / 8]).getLsbD (j % 8) :=
    congrArg (fun b : Byte => b.getLsbD (j % 8)) e1
  rw [this, hv, packBytes_bit 32 _ (j / 8) (j % 8) (by omega) (by omega)]
  congr 1
  omega

/-- The path stage keeps the canonical form. -/
theorem State.memWf_pathStage {s : State} (t : CodeTree) (h : s.memWf = true) : (s.pathStage t).memWf = true := by
  have h1 : (s.putRun 0x004000 4 (codeLens t)).memWf = true :=
    State.memWf_putRun h (by omega) fun i hi => State.regionOf_isSome .codeLen (by
      rw [codeLens_length] at hi
      rw [Region.owns_iff]
      simp only [Region.base, Region.span, Region.byteWide]
      omega)
  exact State.memWf_putRun h1 (by omega) fun i hi => State.regionOf_isSome .codeBits (by
    rw [codeBitBytes_length] at hi
    rw [Region.owns_iff]
    simp only [Region.base, Region.span, Region.byteWide]
    exact ⟨by omega, fun h => absurd h Bool.false_ne_true⟩)

end Sys2Proof.Machine
end

