-- ==== Sys2Proof/Laws/PerInstr.lean ====
section
/-! SUPPORT. Statements made once per command, about the command as syntax. -/

namespace Sys2Proof.Laws.Encoding

/-- A command is well formed, its one word has RSV = 0 and its own operation code, and that word decodes to it (R80, R81,
R85). -/
def Statement (i : Instr) : Prop :=
  i.wellFormed = true ∧ fieldRSV (encode i) = 0 ∧ fieldOP (encode i) = opcode i ∧ decode (encode i) = .command i

theorem count : Statement .count := ⟨rfl, by decide, by decide, by decide⟩
theorem build : Statement .build := ⟨rfl, by decide, by decide, by decide⟩
theorem tenc : Statement .tenc := ⟨rfl, by decide, by decide, by decide⟩
theorem tdec : Statement .tdec := ⟨rfl, by decide, by decide, by decide⟩
theorem paths : Statement .paths := ⟨rfl, by decide, by decide, by decide⟩
theorem senc : Statement .senc := ⟨rfl, by decide, by decide, by decide⟩
theorem sdec : Statement .sdec := ⟨rfl, by decide, by decide, by decide⟩

end Sys2Proof.Laws.Encoding
end

