-- ==== Sys2Proof/Laws/Windows.lean ====
section
/-! SUPPORT. The windows of the address map: no two overlap, so a byte's region is the one region that owns it; and a
word's bits are its bytes' bits. -/

namespace Sys2Proof.Machine

/-- Within the bounds of R8 a byte belongs to a region exactly when that region owns it: the windows are disjoint (R62). -/
theorem State.regionOf_iff {s : State} (hc : s.CapsOk) {a : Nat} {r : Region} :
    s.regionOf a = some r ↔ r.owns s.capText.toNat s.capMsg.toNat a = true := by
  refine ⟨State.owns_of_regionOf, fun h => ?_⟩
  obtain ⟨⟨-, c2⟩, -, c4, -⟩ := hc
  obtain ⟨r', hr'⟩ := Option.isSome_iff_exists.mp (State.regionOf_isSome r h)
  have h' := (Region.owns_iff.mp (State.owns_of_regionOf hr')).1
  have h := (Region.owns_iff.mp h).1
  rw [hr']
  cases r <;> cases r' <;> first | rfl | (exfalso; simp only [Region.base, Region.span] at h h'; omega)

/-- Bit `b` of a word is bit `b mod 8` of its byte `b div 8` (log entry 3). -/
theorem State.wordAt_getLsbD (s : State) (a : Nat) {b : Nat} (hb : b < 32) :
    (s.wordAt a).getLsbD b = (s.byteAt (a + b / 8)).getLsbD (b % 8) := by
  simp only [State.wordAt, BitVec.getLsbD_append]
  obtain h | h | h | h : b / 8 = 0 ∨ b / 8 = 1 ∨ b / 8 = 2 ∨ b / 8 = 3 := by omega
  · simp [h, show b < 8 by omega, show b % 8 = b by omega]
  · simp [h, show ¬ b < 8 by omega, show b - 8 < 8 by omega, show b % 8 = b - 8 by omega]
  · simp [h, show ¬ b < 8 by omega, show ¬ b - 8 < 8 by omega, show b - 8 - 8 < 8 by omega,
      show b % 8 = b - 8 - 8 by omega]
  · simp [h, show ¬ b < 8 by omega, show ¬ b - 8 < 8 by omega, show ¬ b - 8 - 8 < 8 by omega,
      show b % 8 = b - 8 - 8 - 8 by omega]

/-- A bit buffer's element is a bit of the buffer's words (R64). -/
theorem State.wordAt_bitAt (s : State) (base w : Nat) {b : Nat} (hb : b < 32) :
    (s.wordAt (base + 4 * w)).getLsbD b = s.bitAt base (32 * w + b) := by
  rw [State.wordAt_getLsbD s _ hb, State.bitAt, show base + 4 * w + b / 8 = base + (32 * w + b) / 8 by omega,
    show (32 * w + b) % 8 = b % 8 by omega]

/-- In canonical memory a byte of no region reads 0 (R65, R66). -/
theorem State.byteAt_of_regionOf_none {s : State} (hm : s.memWf = true) {a : Nat} (h : s.regionOf a = none) :
    s.byteAt a = 0 := by
  have : Memory.lookup s.mem a = none := Memory.lookup_eq_none fun c hc e => by
    simp only [State.memWf, Bool.and_eq_true, List.all_eq_true] at hm
    simpa [e, h] using hm.2 c hc
  simp [State.byteAt, this, h]

end Sys2Proof.Machine
end

