-- ==== Sys2Proof/Tests/Slice0.lean ====
section
/-! SUPPORT. Small tests, each about one step, with results taken from the spec's examples and test vectors
(95_test_vectors.md), and for every obligation with hypotheses a state and operands that meet them. -/

namespace Sys2Proof.Tests

open Sys2Proof.Machine

/-! ### States to test on -/

/-- A next state with a property. -/
def after (o : Host.Outcome State Fault Refusal) (p : State → Bool) : Bool :=
  match o with
  | .next t => p t
  | .fault _ => false
  | .refused _ => false

theorem of_after {o : Host.Outcome State Fault Refusal} {p : State → Bool} (h : after o p = true) :
    ∃ t, o = .next t ∧ p t = true := by
  cases o with
  | next t => exact ⟨t, rfl, h⟩
  | fault f => simp [after] at h
  | refused r => simp [after] at h

/-- `s` with a text in TEXT_IN. -/
def withText (s : State) (text : List Symbol) : State :=
  { s.putRun 0x100000 4 text with textLen := BitVec.ofNat 32 text.length }

/-- `s` with a flattened tree in TREE_BITS and TREE_LEAVES. -/
def withTreeSeq (s : State) (bits : List Bool) (leaves : List Symbol) : State :=
  { (s.putRun 0x003000 1 (packWords bits)).putRun 0x003400 4 leaves with
    treeBitsLen := BitVec.ofNat 32 bits.length, treeLeavesLen := BitVec.ofNat 32 leaves.length }

/-- `s` with a valid tree in the arena. -/
def withTree (s : State) (nodes : List Word) (root : Nat) : State :=
  { s.putWords 0x002000 nodes with
    treeValid := true, root := BitVec.ofNat 9 root, nodeCount := BitVec.ofNat 9 nodes.length }

/-- `s` with a message in MSG_BITS. -/
def withMessage (s : State) (bits : List Bool) : State :=
  { s.putRun 0x300000 1 (packWords bits) with msgLen := BitVec.ofNat 32 bits.length }

/-- The arena of R117's example, the tree of the source's scenario (V1). -/
def exampleNodes : List Word :=
  [0x00020001, 0x80000054, 0x00060003, 0x00050004, 0x80000052, 0x80000053, 0x80000045]

/-- That tree: T = 0, R = 100, S = 101, E = 11 (V1). -/
def exampleTree : CodeTree := .node (.leaf 0x54) (.node (.node (.leaf 0x52) (.leaf 0x53)) (.leaf 0x45))

/-- A state that holds that tree. -/
def treeState : State := withTree State.reset exampleNodes 0

/-- The degenerate tree of one leaf (R117). -/
def leafState : State := withTree State.reset [0x80000061] 0

/-- "STREETTEST" (V8). -/
def streetTest : List Symbol := [0x53, 0x54, 0x52, 0x45, 0x45, 0x54, 0x54, 0x45, 0x53, 0x54]

/-- The counts of "STREETTEST" (R95). -/
def streetCounts : List Word :=
  (List.range 256).map (fun i =>
    if i = 0x45 then 3 else if i = 0x52 then 1 else if i = 0x53 then 2 else if i = 0x54 then 4 else 0)

/-- A state whose FREQ holds a table of counts. -/
def withCounts (table : List Word) : State := State.reset.putWords 0x001000 table

theorem freqAt_withCounts {table : List Word} {i : Nat} (h : i < table.length) : (withCounts table).freqAt i = table[i] :=
  State.wordAt_putWords h

theorem presentSymbols_withCounts {table : List Word} (h : table.length = 256) :
    (withCounts table).presentSymbols = (List.range 256).filter (fun i => table[i]? != some 0) := by
  rw [State.presentSymbols]
  apply List.filter_congr
  intro i hi
  have hi' : i < table.length := by rw [h]; exact List.mem_range.mp hi
  rw [freqAt_withCounts hi', List.getElem?_eq_getElem hi', Bool.eq_iff_iff]
  simp

/-! ### Decoding: words written out from R80 and R81 -/

theorem test_decode_count : decode 0b0000000000000000_00000000_00000001 = .command .count := by decide
theorem test_decode_build : decode 0b0000000000000000_00000000_00000010 = .command .build := by decide
theorem test_decode_tenc : decode 0b0000000000000000_00000000_00000011 = .command .tenc := by decide
theorem test_decode_tdec : decode 0b0000000000000000_00000000_00000100 = .command .tdec := by decide
theorem test_decode_paths : decode 0b0000000000000000_00000000_00000101 = .command .paths := by decide
theorem test_decode_senc : decode 0b0000000000000000_00000000_00000110 = .command .senc := by decide
theorem test_decode_sdec : decode 0b0000000000000000_00000000_00000111 = .command .sdec := by decide

/-- The illegal words of R83 at their boundaries. -/
theorem test_decode_illegal :
    decode 0x00000000 = .illegal .opZero ∧ decode 0x00000008 = .illegal .opUnassigned ∧
      decode 0x000000FF = .illegal .opUnassigned ∧ decode 0x00000100 = .illegal .reservedNonzero ∧
      decode 0x80000001 = .illegal .reservedNonzero ∧ decode 0xFFFFFFFF = .illegal .reservedNonzero := by decide

/-! ### WellFormed: the only check is the alignment of a host access (R60, R69) -/

theorem test_wellFormed_commands :
    ([Instr.count, .build, .tenc, .tdec, .paths, .senc, .sdec].all Instr.wellFormed) = true := by decide
theorem test_wellFormed_aligned :
    (HostOp.wr 0x01C 3).wellFormed = true ∧ (HostOp.rd 0x3FFFFC).wellFormed = true ∧
      HostOp.waitIdle.wellFormed = true ∧ HostOp.checkErr.wellFormed = true ∧ HostOp.getText.wellFormed = true := by decide
theorem test_wellFormed_refuses_misaligned_write :
    (HostOp.wr 0x01D 3).wellFormed = false ∧ (HostOp.wr 0x01E 3).wellFormed = false ∧
      (HostOp.wr 0x01F 3).wellFormed = false := by decide
theorem test_wellFormed_refuses_misaligned_read : (HostOp.rd 0x100002).wellFormed = false := by decide

/-! ### Commands -/

/-- COUNT of "STREETTEST" (R95, example). -/
theorem test_count : after (exec .count (withText State.reset streetTest)) (fun t =>
    t.freqAt 0x45 == 3 && t.freqAt 0x52 == 1 && t.freqAt 0x53 == 2 && t.freqAt 0x54 == 4 && t.freqAt 0 == 0 &&
      t.distinct == 4 && t.errCode == 0) = true := by decide +kernel

/-- COUNT of "aaaa": INVALID_INPUT with detail 1, the counts written (R95). -/
theorem test_count_one_symbol : after (exec .count (withText State.reset [0x61, 0x61, 0x61, 0x61])) (fun t =>
    t.freqAt 0x61 == 4 && t.distinct == 1 && t.errCode == 0x01 && t.errInfo == 1 && t.done) = true := by decide +kernel

/-- BUILD over those counts (R101, example). -/
theorem test_build : after (.next ((withCounts streetCounts).buildTree [0x45, 0x52, 0x53, 0x54])) (fun t =>
    (List.range 7).map t.nodeAt ==
        [0x80000045, 0x80000052, 0x80000053, 0x80000054, 0x00020001, 0x00040000, 0x00050003] &&
      t.root == 6 && t.nodeCount == 7 && t.treeValid && t.errCode == 0) = true := by decide +kernel

/-- BUILD reads every present symbol, in increasing order (R97). -/
theorem test_build_symbols : (withCounts streetCounts).presentSymbols = [0x45, 0x52, 0x53, 0x54] := by
  rw [presentSymbols_withCounts (by simp [streetCounts])]
  decide +kernel

/-- TENC of the tree BUILD makes there: word 0 is 0x15 and its other bits are written 0, word 1 is untouched
(R110, example). -/
theorem test_tenc : after (exec .tenc (withTree (State.reset.putWords 0x003000 [0xFFFFFFFF, 0x12345678])
      [0x80000045, 0x80000052, 0x80000053, 0x80000054, 0x00020001, 0x00040000, 0x00050003] 6)) (fun t =>
    t.wordAt 0x003000 == 0x15 && t.wordAt 0x003004 == 0x12345678 && t.treeLeafSeq == [0x54, 0x45, 0x52, 0x53] &&
      t.treeBitsLen == 7 && t.treeLeavesLen == 4) = true := by decide +kernel

/-- TENC of the degenerate tree (R110). -/
theorem test_tenc_degenerate : after (exec .tenc leafState) (fun t =>
    t.wordAt 0x003000 == 0 && t.treeBitsLen == 1 && t.treeLeavesLen == 1 && t.treeLeafSeq == [0x61]) = true := by decide +kernel

/-- TDEC (R117, example). -/
theorem test_tdec : after (exec .tdec
      (withTreeSeq State.reset [true, false, true, true, false, false, false] [0x54, 0x52, 0x53, 0x45])) (fun t =>
    (List.range 7).map t.nodeAt == exampleNodes && t.root == 0 && t.nodeCount == 7 && t.treeValid && t.done) = true := by
  decide +kernel

/-- TDEC of bits "100" with leaves "aa": DUPLICATE_SYMBOL with detail 0x00010002 (R117). -/
theorem test_tdec_duplicate : after (exec .tdec (withTreeSeq treeState [true, false, false] [0x61, 0x61])) (fun t =>
    t.errCode == 0x05 && t.errInfo == 0x00010002 && !t.treeValid && t.root == 0 && t.nodeCount == 0) = true := by
  decide +kernel

/-- PATHS: lengths and bits of R123's example. -/
theorem test_paths : after (exec .paths treeState) (fun t =>
    t.codeLenAt 0x54 == 1 && t.codeLenAt 0x45 == 2 && t.codeLenAt 0x52 == 3 && t.codeLenAt 0x53 == 3 &&
      t.codeLenAt 0 == 0 && t.wordAt (0x8000 + 32 * 0x45) == 3 && t.pathsValid) = true := by decide +kernel

/-- PATHS refuses the degenerate tree (R123). -/
theorem test_paths_degenerate : after (exec .paths leafState) (fun t =>
    t.errCode == 0x07 && t.errInfo == 0 && t.treeValid && !t.pathsValid) = true := by decide +kernel

/-- SENC of "SET" (R125, example). -/
theorem test_senc : after (exec .senc (withText treeState [0x53, 0x45, 0x54])) (fun t =>
    t.wordAt 0x300000 == 0x1D && t.msgLen == 6 && t.pathsValid && t.errCode == 0) = true := by decide +kernel

/-- SENC of a text whose second symbol has no leaf: UNENCODABLE_SYMBOL with detail 1 (R125, R126). -/
theorem test_senc_unencodable : after (exec .senc (withText treeState [0x53, 0x58, 0x54])) (fun t =>
    t.errCode == 0x08 && t.errInfo == 1 && t.msgLen == 0 && t.pathsValid) = true := by decide +kernel

/-- SDEC of that message (R132, example). -/
theorem test_sdec : after (exec .sdec (withMessage treeState [true, false, true, true, true, false])) (fun t =>
    t.output == [0x53, 0x45, 0x54] && t.errCode == 0 && t.outLen == 3) = true := by decide +kernel

/-- SDEC of "010": PARTIAL_CODE at bit 1 (P6). -/
theorem test_sdec_partial : after (exec .sdec (withMessage treeState [false, true, false])) (fun t =>
    t.errCode == 0x09 && t.errInfo == 1 && t.outLen == 0) = true := by decide +kernel

/-! ### The host port and the life of a command -/

/-- P7, outcome a: a write while busy is dropped and sets WBUSY (R32). -/
theorem test_busy_write : after (step { State.reset.accept 0x00000001 with
      program := [.wr 0x01C 3], turns := [.host] }) (fun t => t.textLen == 0 && t.wbusy && t.busy) = true := by decide
/-- An illegal word completes with BAD_COMMAND and the word (V17, P4). -/
theorem test_bad_command : after (step (State.reset.accept 0x00000008)) (fun t =>
    t.errCode == 0x0D && t.errInfo == 8 && t.done && !t.busy && t.cmd == 8) = true := by decide
/-- COUNT of an empty text is the first step after a table word is placed at reset (R95, R162). -/
theorem test_first_step : after (step (State.reset.withFetchWord 32 1)) (fun t =>
    t.errCode == 0x01 && t.errInfo == 0 && t.cmd == 1) = true := by decide +kernel
/-- IE and DONE make `irq`; a STATUS write of 2 clears it (P6). -/
theorem test_irq : after (step { State.reset.accept 0x00000008 with ie := true }) (fun t =>
    t.irq && !(t.memWrite 0x00C 2).irq) = true := by decide
/-- A symbol window stores bits 7:0 (R65). -/
theorem test_symbol_window : ((State.reset.memWrite 0x100000 0x12345678).memRead 0x100000).1 = 0x00000078 := by decide
/-- A misaligned access is refused (R69). -/
theorem test_misaligned : step { State.reset with program := [.rd 0x002] } = .refused .misalignedAccess := rfl
/-- COMPRESS is the four words of P1. -/
theorem test_compress_words : hostCompress =
    [.wr 0x010 1, .waitIdle, .checkErr, .wr 0x010 2, .waitIdle, .checkErr, .wr 0x010 3, .waitIdle, .checkErr,
      .wr 0x010 6, .waitIdle, .checkErr] := by decide
/-- PUTBITS packs "1011000" into the word 0x0D (P3). -/
theorem test_put_tree_bits : hostPutTreeBits [true, false, true, true, false, false, false] =
    [.wr 0x003000 0x0000000D, .wr 0x028 7] := by decide

/-! ### Witnesses: states and operands that meet the hypotheses of the obligations -/

/-- A state with the counts of "STREETTEST" in FREQ: four symbols are present. -/
def countsState : State := withCounts streetCounts

theorem build_countsState : exec .build countsState = .next (countsState.buildTree [0x45, 0x52, 0x53, 0x54]) :=
  congrArg (fun l => Host.Outcome.next (countsState.buildTree l)) test_build_symbols

/-- No symbol, and one symbol, in FREQ. -/
def oneCount : State := withCounts ((List.range 256).map (fun i => if i = 0x61 then 4 else 0))

theorem presentSymbols_oneCount : oneCount.presentSymbols = [0x61] := by
  rw [oneCount, presentSymbols_withCounts (by simp)]
  decide +kernel

theorem resetCaps : State.reset.CapsOk := by simp only [State.CapsOk]; decide

theorem treeState_tree : treeState.currentTree = some exampleTree := by decide +kernel

/-- What a state must hold for R37 to be met with the example tree in TDEC's layout. -/
theorem arena_example {s : State} (ht : s.treeAt Config.maxNodes s.root.toNat = some exampleTree)
    (e : s.indicesAt Config.maxNodes s.root.toNat = List.range 7) (hc : s.nodeCount.toNat = 7)
    (h : ∀ i < 7, (s.nodeAt i = exampleNodes.getD i 0)) : s.ArenaOk := by
  intro _
  have hf : ∀ w ∈ exampleNodes, nodeForm w := by simp [exampleNodes, nodeForm]
  rw [hc, e]
  refine ⟨⟨exampleTree, ht, by decide⟩, List.Perm.refl _, fun i hi => ?_⟩
  rw [h i hi, List.getD_eq_getElem _ _ (by simpa [exampleNodes] using hi)]
  exact hf _ (List.getElem_mem _)

theorem treeState_arena : treeState.ArenaOk :=
  arena_example (by decide +kernel) (by decide +kernel) (by decide +kernel) (by decide +kernel)

/-- A state in which every invariant says something: a valid tree and a valid path table. -/
def invState : State := treeState.pathStage exampleTree

theorem nodeAt_invState (i : Nat) (hi : i < 512) : invState.nodeAt i = treeState.nodeAt i :=
  State.wordAt_congr fun j hj => State.byteAt_pathStage_outside (by omega) (by omega)

theorem treeAt_invState (fuel i : Nat) (hi : i < 512) : invState.treeAt fuel i = treeState.treeAt fuel i :=
  State.treeAt_congr nodeAt_invState fuel i hi

theorem indicesAt_invState (fuel i : Nat) (hi : i < 512) : invState.indicesAt fuel i = treeState.indicesAt fuel i := by
  induction fuel generalizing i with
  | zero => rfl
  | succ fuel ih =>
    simp only [State.indicesAt, nodeAt_invState i hi, ih _ (nodeZero_lt _), ih _ (nodeOne_lt _)]

theorem invState_tree : invState.currentTree = some exampleTree := by
  have := State.currentTree_iff.mp treeState_tree
  rw [State.currentTree_iff]
  exact ⟨(treeAt_invState _ 0 (by omega)).trans this.1, this.2⟩

theorem invState_arena : invState.ArenaOk := by
  intro _
  obtain ⟨⟨t, ht, hn⟩, hp, hf⟩ := treeState_arena rfl
  refine ⟨⟨t, (treeAt_invState _ 0 (by omega)).trans ht, hn⟩, ?_, ?_⟩
  · have : invState.indicesAt Config.maxNodes invState.root.toNat =
        treeState.indicesAt Config.maxNodes treeState.root.toNat := indicesAt_invState _ 0 (by omega)
    rw [this]
    exact hp
  · intro i hi
    have hi' : i < 7 := hi
    rw [nodeAt_invState i (by omega)]
    exact hf i hi

theorem treeState_memWf : treeState.memWf = true := by decide +kernel

/-- The hypothesis of the invariants' statements, in a state where each invariant has something to hold of. -/
theorem witness_Inv : invState.Inv where
  caps := resetCaps
  mem := State.memWf_pathStage exampleTree treeState_memWf
  eng := fun _ h => by cases h
  err := ⟨by decide, fun _ => rfl⟩
  treeRegs := ⟨fun h => (Bool.false_ne_true h.symm).elim, by decide⟩
  out := by show (0 : Nat) ≤ _; omega
  draws := fun r => by cases r <;> decide
  arena := invState_arena
  paths := fun _ => ⟨rfl, by decide +kernel, exampleTree, invState_tree, fun i hi => by
    refine ⟨?_, fun j hj => State.codeBitAt_pathStage treeState exampleTree hi hj⟩
    have hle := exampleTree.code_length_le (BitVec.ofNat 8 i)
    have h3 : exampleTree.height = 3 := rfl
    have := State.codeLenAt_pathStage treeState exampleTree hi
    rw [invState, this, BitVec.toNat_ofNat, Nat.mod_eq_of_lt (by omega)]⟩

/-- IllegalWordsCompleteWithBadCommand: each kind of illegal word at its boundaries, a legal word, and the two states. -/
theorem witness_IllegalWords :
    ((0x00000100 : Word).extractLsb' 8 24 ≠ 0 ∧ (0x80000000 : Word).extractLsb' 8 24 ≠ 0) ∧
      (0x00000000 : Word).extractLsb' 0 8 = 0 ∧ 8 ≤ ((0x00000008 : Word).extractLsb' 0 8).toNat ∧
      8 ≤ ((0x000000FF : Word).extractLsb' 0 8).toNat ∧
      ((0x00000007 : Word).extractLsb' 8 24 = 0 ∧ (0x00000007 : Word).extractLsb' 0 8 ≠ 0 ∧
        ((0x00000007 : Word).extractLsb' 0 8).toNat < 8) ∧
      State.reset.eng = .idle ∧ (State.reset.accept 8).eng = .busy 8 ∧ (State.reset.accept 8).nextTurn = .engine := by
  decide

/-- StepRunsTheAcceptedCommand: an accepted command with the engine to move, and a table word that decodes. -/
theorem witness_StepRuns :
    (State.reset.accept 7).eng = .busy 7 ∧ decode 7 = .command .sdec ∧ (State.reset.accept 7).nextTurn = .engine ∧
      decodeTableWord 32 1 = some .count ∧ decodeTableWord 8 7 = some .sdec := by decide

/-- A state in which the host is to perform `op`. -/
def hostState (op : HostOp) : State := { State.reset with program := [op] }

/-- HostAccessesAreOneStep: an aligned and a misaligned access of each kind, the host to move. -/
theorem witness_HostAccesses :
    (hostState (.wr 0x3FFFFC 1)).nextTurn = .host ∧ (hostState (.wr 0x3FFFFC 1)).program = .wr 0x3FFFFC 1 :: [] ∧
      (0x3FFFFC : Offset).toNat % 4 = 0 ∧ (hostState (.rd 0)).program = .rd 0 :: [] ∧ (0 : Offset).toNat % 4 = 0 ∧
      (hostState (.wr 3 1)).program = .wr 3 1 :: [] ∧ (3 : Offset).toNat % 4 ≠ 0 ∧
      (hostState (.rd 0x3FFFFD)).program = .rd 0x3FFFFD :: [] ∧ (0x3FFFFD : Offset).toNat % 4 ≠ 0 := by decide

/-- HostPseudoOperationsStep: each of the three operations first in the program, the host to move. -/
theorem witness_HostPseudoOperations :
    (hostState .waitIdle).nextTurn = .host ∧ (hostState .waitIdle).program = .waitIdle :: [] ∧
      (hostState .checkErr).nextTurn = .host ∧ (hostState .checkErr).program = .checkErr :: [] ∧
      (hostState .getText).nextTurn = .host ∧ (hostState .getText).program = .getText :: [] := by decide

/-- CommandWriteIsAcceptedWhenIdle and BusyWritesAreDropped: an idle state, a busy one, and offsets beside CTRL and
STATUS. -/
theorem witness_CommandAndBusyWrites :
    State.reset.eng = .idle ∧ (State.reset.accept 1).eng ≠ .idle ∧ (State.reset.accept 1).eng = .busy 1 ∧
      (0x004 : Nat) ≠ 0x008 ∧ (0x004 : Nat) ≠ 0x00C ∧ (0x010 : Nat) ≠ 0x008 ∧ (0x010 : Nat) ≠ 0x00C := by decide

/-- CtrlReadsAndWrites, SoftResetAbandonsTheCommand, InterruptOutput: each value of bits 1 and 0 they ask for. -/
theorem witness_CtrlBits :
    (0x1 : Word).getLsbD 1 = false ∧ (0x1 : Word).getLsbD 0 = true ∧ (0x0 : Word).getLsbD 1 = false ∧
      (0x0 : Word).getLsbD 0 = false ∧ (0x2 : Word).getLsbD 1 = true ∧ (0xFFFFFFFF : Word).getLsbD 1 = true := by decide

/-- SoftResetAbandonsTheCommand: a byte of a running command's region, a byte of no such region, each command and an
illegal word accepted. -/
theorem witness_SoftReset :
    (State.reset.accept 1).regionOf 0x1000 = some .freq ∧ (State.reset.accept 1).regionOf 0x13FF = some .freq ∧
      .freq ∈ (State.reset.accept 1).runningRegions ∧
      (∀ r ∈ (State.reset.accept 1).runningRegions,
        r.owns (State.reset.accept 1).capText.toNat (State.reset.accept 1).capMsg.toNat 0x1400 = false) ∧
      (State.reset.accept 8).eng = .busy 8 ∧ (∀ i, (8 : Word) ≠ encode i) ∧
      ∀ i, (State.reset.accept (encode i)).eng = .busy (encode i) :=
  ⟨by decide, by decide, by decide, by decide, rfl, fun i => by cases i <;> decide, fun _ => rfl⟩

/-- HardwareResetClearsTheBlock: a step with `rst_n` low, and a byte of a local memory. -/
theorem witness_HardwareReset :
    ({ State.reset.accept 1 with turns := [.resetPin] } : State).nextTurn = .resetPin ∧
      ({ State.reset.accept 1 with turns := [.resetPin] } : State).regionOf 0x3FFFFF = none ∧
      ({ State.reset.accept 1 with turns := [.resetPin] } : State).regionOf 0x300000 = some .msgBits := by decide

/-- ResetStateReadsAsSpecified: a byte of the first and the last window. -/
theorem witness_ResetState :
    State.reset.regionOf 0x1000 = some .freq ∧ State.reset.regionOf (0x300000 + 4 * 32768 - 1) = some .msgBits := by
  decide

/-- InterruptOutput: a command that answers a next state. -/
theorem witness_InterruptOutput : ∃ t, exec .count State.reset = .next t := ⟨_, rfl⟩

/-- RegisterPageWrites: the offsets of each of its cases, at the ends of the page too. -/
theorem witness_RegisterPageWrites :
    State.reset.eng = .idle ∧
      ∀ off ∈ [0x000, 0x01C, 0x020, 0x024, 0x028, 0x02C, 0x030, 0x044, 0xFFC],
        off < 0x1000 ∧ off % 4 = 0 ∧ off ≠ 0x008 ∧ off ≠ 0x00C ∧ off ≠ 0x010 := by decide

/-- UnmappedOffsetsReadZero: parameters within bounds, and an offset of each kind at the ends of its range. -/
theorem witness_UnmappedOffsets :
    State.reset.CapsOk ∧ (0x044 ≤ 0x044 ∧ 0x044 < 0x1000) ∧ State.reset.regionOf 0x27FC = none ∧
      State.reset.regionOf 0x9FFFC = none ∧ State.reset.eng = .idle ∧ (State.reset.accept 1).eng ≠ .idle ∧
      (State.reset.capText.toNat ≤ 65536 ∧ 0x100000 + 4 * 65536 < 0x200000) ∧
      (State.reset.capText.toNat ≤ 262143 ∧ 0x200000 + 4 * 262143 < 0x300000) ∧
      (State.reset.capMsg.toNat / 32 ≤ 32768 ∧ 0x300000 + 4 * 32768 < 0x400000) :=
  ⟨resetCaps, by decide, by decide, by decide, by decide, by decide, by decide, by decide, by decide⟩

/-- WindowReadAfterWrite and WindowWriteFrame: a word of a full-width window, of a symbol window, and of an RO window, at
the last word of each; and canonical memory. -/
theorem witness_Windows :
    State.reset.CapsOk ∧ State.reset.MemOk ∧ State.reset.eng = .idle ∧
      (0x303C % 4 = 0 ∧ State.reset.regionOf 0x303C = some .treeBits ∧ Region.treeBits ≠ .node ∧
        Region.treeBits ≠ .codeLen ∧ Region.treeBits ≠ .codeBits) ∧
      (0x37FC % 4 = 0 ∧ State.reset.regionOf 0x37FC = some .treeLeaves ∧ Region.treeLeaves ≠ .node ∧
        Region.treeLeaves ≠ .codeLen ∧ Region.treeLeaves ≠ .codeBits) ∧
      (0x27F8 % 4 = 0 ∧ State.reset.regionOf 0x27F8 = some .node) ∧
      State.reset.regionOf 0x43FC = some .codeLen ∧ State.reset.regionOf 0x9FFC = some .codeBits :=
  ⟨resetCaps, rfl, rfl, by decide, by decide, by decide, by decide, by decide⟩

/-- ReadsWhileBusy: a window the running command writes, one it does not, a register, and each command's word. -/
theorem witness_ReadsWhileBusy :
    (State.reset.accept 1).eng = .busy 1 ∧ (State.reset.accept 1).regionOf 0x13FC = some .freq ∧
      .freq ∈ (State.reset.accept 1).runningRegions ∧ (State.reset.accept 1).regionOf 0x2000 = some .node ∧
      .node ∉ (State.reset.accept 1).runningRegions ∧ (0xFFC : Nat) < 0x1000 ∧ (1 : Word) = encode .count := by decide

/-- BadLengthIsReportedFirst: each length one past its bound, and the lengths at their bound that its third clause
takes. -/
theorem witness_BadLength :
    ({ State.reset with textLen := 65537 } : State).capText.toNat <
        ({ State.reset with textLen := 65537 } : State).textLen.toNat ∧
      511 < ({ State.reset with treeBitsLen := 512 } : State).treeBitsLen.toNat ∧
      (({ State.reset with treeBitsLen := 511, treeLeavesLen := 257 } : State).treeBitsLen.toNat ≤ 511 ∧
        256 < ({ State.reset with treeBitsLen := 511, treeLeavesLen := 257 } : State).treeLeavesLen.toNat) ∧
      ({ State.reset with msgLen := 1048577 } : State).capMsg.toNat <
        ({ State.reset with msgLen := 1048577 } : State).msgLen.toNat := by decide

/-- NoTreeIsReported: no tree, and both lengths at their bound. -/
theorem witness_NoTree :
    ({ State.reset with textLen := 65536, msgLen := 1048576 } : State).treeValid = false ∧
      ({ State.reset with textLen := 65536, msgLen := 1048576 } : State).textLen.toNat ≤ State.reset.capText.toNat ∧
      ({ State.reset with textLen := 65536, msgLen := 1048576 } : State).msgLen.toNat ≤ State.reset.capMsg.toNat := by
  decide

/-- DegenerateTreeIsReported: a valid tree of one leaf. -/
theorem witness_DegenerateTree :
    leafState.treeValid = true ∧ (leafState.nodeAt leafState.root.toNat).getLsbD 31 = true ∧
      leafState.textLen.toNat ≤ leafState.capText.toNat ∧ leafState.msgLen.toNat ≤ leafState.capMsg.toNat := by
  decide +kernel

/-- CountCountsTheText: a text of four symbols, one of one symbol, and an empty one; CountFrame: COUNT answers a next
state. -/
theorem witness_Count :
    State.reset.CapsOk ∧ (withText State.reset streetTest).textLen.toNat ≤ State.reset.capText.toNat ∧
      2 ≤ (withText State.reset streetTest).text.dedup.length ∧
      (withText State.reset [0x61, 0x61]).text.dedup.length < 2 ∧ State.reset.text.dedup.length < 2 ∧
      ∃ t, exec .count (withText State.reset streetTest) = .next t :=
  ⟨resetCaps, by decide +kernel, by decide +kernel, by decide +kernel, by decide +kernel, _, rfl⟩

theorem bne_eq_decide (v w : Word) : (v != w) = decide (v ≠ w) := by
  rw [Bool.eq_iff_iff]
  simp

theorem countP_eq (s : State) :
    (List.range 256).countP (fun i => decide (s.freqAt i ≠ 0)) = s.presentSymbols.length := by
  rw [List.countP_eq_length_filter, State.presentSymbols]
  congr 1
  apply List.filter_congr
  intro i _
  exact (bne_eq_decide _ _).symm

/-- BuildRejectsFewerThanTwoSymbols, BuildFrame: FREQ with one symbol. -/
theorem witness_BuildRejects : 1 = (List.range 256).countP (fun i => decide (oneCount.freqAt i ≠ 0)) ∧ 1 < 2 := by
  rw [countP_eq, presentSymbols_oneCount]
  decide

/-- BuildWritesLeavesThenMerges, BuildFrame: FREQ with four symbols, whose working set exists. -/
theorem witness_BuildWrites :
    [0x45, 0x52, 0x53, 0x54] = (List.range 256).filter (fun i => decide (countsState.freqAt i ≠ 0)) ∧
      2 ≤ [0x45, 0x52, 0x53, 0x54].length := by
  refine ⟨?_, by decide⟩
  rw [← test_build_symbols, State.presentSymbols]
  apply List.filter_congr
  intro i _
  exact bne_eq_decide _ _

/-- MergesTakeTheTwoLeast: distinct sequence numbers, a set in order, 256 symbols, and a set of the greatest total weight
that a merge may find. -/
theorem witness_Merges :
    (([(3, 0), (1, 1), (2, 2), (4, 3)] : List QEntry).map (·.2)).Nodup ∧
      ((((3, 4) : QEntry) :: [(3, 0), (4, 3)]).map (·.2)).Nodup ∧
      ([(3, 0), (4, 3)] : List QEntry).Pairwise (fun a b => a.1.toNat < b.1.toNat ∨ (a.1 = b.1 ∧ a.2 < b.2)) ∧
      (List.range 256).length ≤ 256 ∧
      (([(0x7FFFFFFFFF, 0), (0x8000000000, 1)] : List QEntry).map (fun e => e.1.toNat)).sum < 2 ^ 40 :=
  ⟨by decide, by decide, by decide, by simp, by decide⟩

/-- BuildShape, BuildTreeIsOptimal, BuildFrame: a BUILD that succeeds, its tree, and another tree with the same leaves. -/
theorem witness_Build :
    ∃ t tr, exec .build countsState = .next t ∧ t.errCode = 0 ∧ t.currentTree = some tr ∧
      exampleTree.leaves.Perm tr.leaves :=
  ⟨countsState.buildTree [0x45, 0x52, 0x53, 0x54],
    .node (.leaf 0x54) (.node (.leaf 0x45) (.node (.leaf 0x52) (.leaf 0x53))),
    build_countsState, by decide +kernel, by decide +kernel, by decide⟩

/-- TencFlattensTheTree, TencFrame, FlatteningDeterminesTheTree, FlattenThenUnflattenKeepsTheTree: a valid tree, and no
valid tree. -/
theorem witness_Tenc :
    treeState.treeValid = true ∧ treeState.currentTree = some exampleTree ∧ treeState.ArenaOk ∧
      (∃ t, exec .tenc treeState = .next t) ∧ State.reset.treeValid = false ∧
      ∃ t, exec .tenc State.reset = .next t :=
  ⟨rfl, treeState_tree, treeState_arena,
    by obtain ⟨t, h, -⟩ := of_after (o := exec .tenc treeState) (p := fun _ => true) (by decide +kernel)
       exact ⟨t, h⟩, rfl, _, rfl⟩

/-- FlatteningDeterminesTheTree: two trees with the same flattening. -/
theorem witness_Flattening : exampleTree.bits = exampleTree.bits ∧ exampleTree.leaves = exampleTree.leaves := ⟨rfl, rfl⟩

/-- A state whose TREE_BITS and TREE_LEAVES hold the flattening of the example tree. -/
def seqState : State := withTreeSeq State.reset [true, false, true, true, false, false, false] [0x54, 0x52, 0x53, 0x45]

/-- TdecRebuildsAFlattenedTree, TdecAcceptsOnlyFlattenedTrees, TdecFrame: the example's two sequences. -/
theorem witness_Tdec :
    exampleTree.leaves.Nodup ∧ exampleTree.leaves.length ≤ 256 ∧ seqState.treeBitSeq = exampleTree.bits ∧
      seqState.treeLeafSeq = exampleTree.leaves ∧ ∃ t, exec .tdec seqState = .next t ∧ t.errCode = 0 :=
  ⟨by decide, by decide, by decide +kernel, by decide +kernel, by
    obtain ⟨t, h, e⟩ := of_after (o := exec .tdec seqState) (p := fun t => t.errCode == 0) (by decide +kernel)
    exact ⟨t, h, by simpa using e⟩⟩

/-- TdecNamesTheFirstDefect, both lengths in range: bits cut off after 0 and after 6; symbols after 0 and after 3. -/
theorem witness_TdecUnderruns :
    (exampleTree.leaves.Nodup ∧ 0 < exampleTree.bits.length ∧ 6 < exampleTree.bits.length ∧
        (withTreeSeq State.reset [] exampleTree.leaves).treeBitSeq = exampleTree.bits.take 0 ∧
        (withTreeSeq State.reset (exampleTree.bits.take 6) exampleTree.leaves).treeBitSeq = exampleTree.bits.take 6 ∧
        (withTreeSeq State.reset (exampleTree.bits.take 6) exampleTree.leaves).treeLeafSeq = exampleTree.leaves ∧
        (withTreeSeq State.reset (exampleTree.bits.take 6) exampleTree.leaves).treeBitsLen.toNat ≤ 511 ∧
        (withTreeSeq State.reset (exampleTree.bits.take 6) exampleTree.leaves).treeLeavesLen.toNat ≤ 256) ∧
      0 < exampleTree.leaves.length ∧ 3 < exampleTree.leaves.length ∧
      (withTreeSeq State.reset exampleTree.bits []).treeLeafSeq = exampleTree.leaves.take 0 ∧
      (withTreeSeq State.reset exampleTree.bits (exampleTree.leaves.take 3)).treeLeafSeq = exampleTree.leaves.take 3 ∧
      (withTreeSeq State.reset exampleTree.bits (exampleTree.leaves.take 3)).treeBitSeq = exampleTree.bits := by
  decide +kernel

/-- TdecNamesTheFirstDefect: a tree with one symbol in its leaves 0 and 3, and the example tree with a bit, and with a
symbol, left over. -/
theorem witness_TdecDuplicateAndTrailing :
    (((CodeTree.node (.leaf 1) (.node (.leaf 2) (.node (.leaf 3) (.leaf 1)))).leaves.take 3).Nodup ∧
        (CodeTree.node (.leaf 1) (.node (.leaf 2) (.node (.leaf 3) (.leaf 1)))).leaves[3]? = some 1 ∧
        (1 : Symbol) ∈ (CodeTree.node (.leaf 1) (.node (.leaf 2) (.node (.leaf 3) (.leaf 1)))).leaves.take 3 ∧
        (withTreeSeq State.reset [true, false, true, false, true, false, false] [1, 2, 3, 1]).treeBitSeq =
          (CodeTree.node (.leaf 1) (.node (.leaf 2) (.node (.leaf 3) (.leaf 1)))).bits ∧
        (withTreeSeq State.reset [true, false, true, false, true, false, false] [1, 2, 3, 1]).treeBitsLen.toNat ≤ 511 ∧
        (withTreeSeq State.reset [true, false, true, false, true, false, false] [1, 2, 3, 1]).treeLeavesLen.toNat ≤ 256 ∧
        (withTreeSeq State.reset [true, false, true, false, true, false, false] [1, 2, 3, 1]).treeLeafSeq =
          (CodeTree.node (.leaf 1) (.node (.leaf 2) (.node (.leaf 3) (.leaf 1)))).leaves) ∧
      (withTreeSeq State.reset (exampleTree.bits ++ [false]) exampleTree.leaves).treeBitSeq = exampleTree.bits ++ [false] ∧
      (withTreeSeq State.reset (exampleTree.bits ++ [false]) exampleTree.leaves).treeLeafSeq = exampleTree.leaves ++ [] ∧
      (withTreeSeq State.reset exampleTree.bits (exampleTree.leaves ++ [7])).treeBitSeq = exampleTree.bits ++ [] ∧
      (withTreeSeq State.reset exampleTree.bits (exampleTree.leaves ++ [7])).treeLeafSeq = exampleTree.leaves ++ [7] := by
  decide +kernel

/-- TdecDataErrorState: sequences that do not parse, the lengths in range. -/
theorem witness_TdecDataError :
    State.reset.treeBitsLen.toNat ≤ 511 ∧ State.reset.treeLeavesLen.toNat ≤ 256 ∧
      parseTree State.reset.treeBitSeq State.reset.treeLeafSeq = .error ⟨.treeBitsUnderrun, 0⟩ := ⟨by decide, by decide, rfl⟩

/-- PathsBuildsTheTable, PathsFrame, PathTableProperties: a valid tree with an interior root. -/
theorem witness_Paths :
    treeState.treeValid = true ∧ treeState.rootIsLeaf = false ∧ treeState.currentTree = some exampleTree ∧
      ∃ t, exec .paths treeState = .next t ∧ t.errCode ≠ 0x06 ∧ t.errCode ≠ 0x07 ∧ t.errCode ≠ 0x0C :=
  ⟨rfl, by decide +kernel, treeState_tree, by
    obtain ⟨t, h, e⟩ := of_after (o := exec .paths treeState) (p := fun t => t.errCode == 0) (by decide +kernel)
    have e' : t.errCode = 0 := by simpa using e
    exact ⟨t, h, by rw [e']; decide, by rw [e']; decide, by rw [e']; decide⟩⟩

/-- BitPathLeadsToTheLeaf, CodesArePrefixFreeAndComplete: a tree with distinct leaves and an interior root. -/
theorem witness_Codes :
    exampleTree.leaves.Nodup ∧ 2 ≤ exampleTree.size ∧ exampleTree.size ≤ 511 ∧ (0x53 : Symbol) ∈ exampleTree.leaves ∧
      (0x54 : Symbol) ∈ exampleTree.leaves ∧ exampleTree.pathOf 0x53 = some [true, false, true] ∧
      exampleTree.pathOf 0x58 = none := by decide

/-- A state with the example tree and a text. -/
def sencState : State := withText treeState [0x53, 0x45, 0x54]

/-- SencEncodesTheText, SencFrame, MessageLengthIsTheWeightedPathLength, PathTableProperties: "SET" over the example
tree. -/
theorem witness_Senc :
    sencState.textLen.toNat ≤ sencState.capText.toNat ∧ sencState.treeValid = true ∧ sencState.rootIsLeaf = false ∧
      sencState.currentTree = some exampleTree ∧ (∀ x ∈ sencState.text, x ∈ exampleTree.leaves) ∧
      (sencState.text.flatMap exampleTree.code).length ≤ sencState.capMsg.toNat ∧
      ∃ t, exec .senc sencState = .next t ∧ t.errCode = 0 :=
  ⟨by decide +kernel, rfl, by decide +kernel, by decide +kernel, by decide +kernel, by decide +kernel, by
    obtain ⟨t, h, e⟩ := of_after (o := exec .senc sencState) (p := fun t => t.errCode == 0) (by decide +kernel)
    exact ⟨t, h, by simpa using e⟩⟩

/-- The arena BUILD makes for those counts (R101, example). -/
def builtExample : List Word :=
  [0x80000045, 0x80000052, 0x80000053, 0x80000054, 0x00020001, 0x00040000, 0x00050003]

/-- Its tree: T = 0, E = 10, R = 110, S = 111. -/
def builtTree : CodeTree := .node (.leaf 0x54) (.node (.leaf 0x45) (.node (.leaf 0x52) (.leaf 0x53)))

/-- A state with the counts of "STREETTEST", the tree BUILD makes from them, and that text. -/
def streetState : State := withText (withTree countsState builtExample 6) streetTest

theorem byteAt_streetState {a : Nat} (h : a < 0x100000) :
    streetState.byteAt a = (countsState.putWords 0x002000 builtExample).byteAt a :=
  State.byteAt_putRun_outside (by omega) (by omega)

theorem freqAt_streetState (i : Nat) (hi : i < 256) : streetState.freqAt i = countsState.freqAt i :=
  State.wordAt_congr fun j hj => (byteAt_streetState (by omega)).trans (State.byteAt_putWords_outside (by omega))

theorem nodeAt_streetState (i : Nat) (hi : i < 7) : streetState.nodeAt i = builtExample[i] :=
  (State.wordAt_congr fun j hj => byteAt_streetState (by omega)).trans (State.wordAt_putWords hi)

theorem streetState_tree : streetState.currentTree = some builtTree := by
  rw [State.currentTree_iff]
  refine ⟨?_, by decide, by decide⟩
  have leaf : ∀ (fuel i : Nat) (hi : i < 7), nodeIsLeaf builtExample[i] = true →
      streetState.treeAt (fuel + 1) i = some (.leaf (nodeSym builtExample[i])) := fun fuel i hi h => by
    rw [State.treeAt_leaf (by rw [nodeAt_streetState i hi]; exact h), nodeAt_streetState i hi]
  have node : ∀ (fuel i a b : Nat) (z o : CodeTree) (hi : i < 7), nodeIsLeaf builtExample[i] = false →
      nodeZero builtExample[i] = a → nodeOne builtExample[i] = b → streetState.treeAt fuel a = some z →
      streetState.treeAt fuel b = some o → streetState.treeAt (fuel + 1) i = some (.node z o) :=
    fun fuel i a b z o hi h ha hb hz ho => by
      rw [State.treeAt_node_iff, nodeAt_streetState i hi, ha, hb]
      exact ⟨h, hz, ho⟩
  have t4 := node 508 4 1 2 _ _ (by omega) (by decide) (by decide) (by decide) (leaf 507 1 (by omega) (by decide))
    (leaf 507 2 (by omega) (by decide))
  have t5 := node 509 5 0 4 _ _ (by omega) (by decide) (by decide) (by decide) (leaf 508 0 (by omega) (by decide)) t4
  have t6 := node 510 6 3 5 _ _ (by omega) (by decide) (by decide) (by decide) (leaf 509 3 (by omega) (by decide)) t5
  exact t6.trans (by decide)

theorem streetState_text : streetState.text = streetTest :=
  State.bytes_putRun (withTree countsState builtExample 6) 0x100000 4 (by omega) streetTest

/-- MessageLengthIsTheWeightedPathLength: a SENC that succeeds over the tree of its text's own counts, which FREQ holds. -/
theorem witness_MessageLength :
    (∃ t, exec .senc streetState = .next t ∧ t.errCode = 0) ∧ streetState.currentTree = some builtTree ∧
      ∀ x : Symbol, (streetState.freqAt x.toNat).toNat = streetState.text.count x := by
  refine ⟨?_, streetState_tree, fun x => ?_⟩
  · have hl : streetState.rootIsLeaf = false := by
      show nodeIsLeaf (streetState.nodeAt 6) = false
      rw [nodeAt_streetState 6 (by omega)]; decide
    have he : ∃ bits, encodeText builtTree streetState.capMsg.toNat streetTest 0 0 = .ok bits := ⟨_, rfl⟩
    obtain ⟨bits, he⟩ := he
    refine ⟨(streetState.pathStage builtTree).storeMessage (.ok bits), ?_, rfl⟩
    have hn : ¬ streetState.capText.toNat < streetState.textLen.toNat := by decide
    have hv : streetState.treeValid = true := rfl
    simp only [exec, execSenc, hn, hv, hl, streetState_tree, streetState_text, he, if_false, if_true, Bool.false_eq_true]
  · have h : x.toNat < streetCounts.length := by simp [streetCounts]; exact x.isLt
    rw [streetState_text, freqAt_streetState _ x.isLt, countsState, freqAt_withCounts h]
    have : ∀ i < 256, (if i = 0x45 then 3 else if i = 0x52 then 1 else if i = 0x53 then 2 else if i = 0x54 then 4 else
        (0 : Word)).toNat = streetTest.count (BitVec.ofNat 8 i) := by decide +kernel
    simpa [streetCounts] using this x.toNat x.isLt
/-- What SencDataErrors and SdecDataErrors ask of the tree. -/
def hasTree (s : State) : Bool := s.treeValid && !s.rootIsLeaf && s.currentTree == some exampleTree

/-- A state with 11 symbols of 3 bits to encode and room for 32 bits. -/
def overflowState : State := withText { treeState with capMsg := 32 } (List.replicate 11 0x53)

/-- SencDataErrors: a text whose second symbol has no leaf, and one that overflows at its eleventh symbol. -/
theorem witness_SencDataErrors :
    (hasTree (withText treeState [0x53, 0x58, 0x54]) = true ∧
        (withText treeState [0x53, 0x58, 0x54]).textLen.toNat ≤ treeState.capText.toNat ∧
        (withText treeState [0x53, 0x58, 0x54]).text = [0x53] ++ 0x58 :: [0x54] ∧ (0x58 : Symbol) ∉ exampleTree.leaves ∧
        (∀ y ∈ [(0x53 : Symbol)], y ∈ exampleTree.leaves) ∧
        ([(0x53 : Symbol)].flatMap exampleTree.code).length ≤ treeState.capMsg.toNat) ∧
      (hasTree overflowState = true ∧ overflowState.textLen.toNat ≤ overflowState.capText.toNat ∧
        overflowState.text = List.replicate 10 0x53 ++ 0x53 :: [] ∧
        (∀ y ∈ List.replicate 10 (0x53 : Symbol), y ∈ exampleTree.leaves) ∧
        ((List.replicate 10 (0x53 : Symbol)).flatMap exampleTree.code).length ≤ overflowState.capMsg.toNat ∧
        overflowState.capMsg.toNat <
          ((List.replicate 10 (0x53 : Symbol) ++ [0x53]).flatMap exampleTree.code).length) := by decide +kernel

/-- SdecDecodesTheMessage, SdecFrame: the message of "SET". -/
theorem witness_Sdec :
    (withMessage treeState [true, false, true, true, true, false]).msgLen.toNat ≤ treeState.capMsg.toNat ∧
      treeState.treeValid = true ∧ treeState.rootIsLeaf = false ∧ treeState.currentTree = some exampleTree ∧
      (∀ x ∈ [(0x53 : Symbol), 0x45, 0x54], x ∈ exampleTree.leaves) ∧ 3 ≤ treeState.capText.toNat ∧
      (withMessage treeState [true, false, true, true, true, false]).message =
        [(0x53 : Symbol), 0x45, 0x54].flatMap exampleTree.code := by decide +kernel

/-- A message that ends inside a path. -/
def partialState : State := withMessage treeState [false, true, false]

/-- A capacity of three symbols, and a message of four. -/
def fullState : State := withMessage { treeState with capText := 3 } [false, false, false, true, true, false]

/-- SdecDataErrors: a message that ends inside a path, and one whose fourth symbol passes a capacity of three. -/
theorem witness_SdecDataErrors :
    (partialState.ArenaOk ∧ hasTree partialState = true ∧ partialState.msgLen.toNat ≤ partialState.capMsg.toNat ∧
        exampleTree.follow [true, false] = some (.node (.leaf 0x52) (.leaf 0x53)) ∧
        partialState.message = [(0x54 : Symbol)].flatMap exampleTree.code ++ [true, false]) ∧
      (fullState.ArenaOk ∧ hasTree fullState = true ∧ fullState.msgLen.toNat ≤ fullState.capMsg.toNat ∧
        [(0x54 : Symbol), 0x54, 0x54].length = fullState.capText.toNat ∧
        (∀ x ∈ [(0x54 : Symbol), 0x54, 0x54], x ∈ exampleTree.leaves) ∧ (0x45 : Symbol) ∈ exampleTree.leaves ∧
        fullState.message = ([(0x54 : Symbol), 0x54, 0x54] ++ [0x45]).flatMap exampleTree.code ++ [false]) :=
  ⟨⟨arena_example (by decide +kernel) (by decide +kernel) (by decide +kernel) (by decide +kernel), by decide +kernel, by decide +kernel, by decide +kernel, by decide +kernel⟩,
    ⟨arena_example (by decide +kernel) (by decide +kernel) (by decide +kernel) (by decide +kernel), by decide +kernel, by decide +kernel, by decide +kernel, by decide +kernel, by decide +kernel, by decide +kernel⟩⟩

/-- CompressThenDecompressGivesTheText: "STREETTEST", whose message fits at 255 bits a symbol. -/
theorem witness_Compress :
    (withText State.reset streetTest).CapsOk ∧
      (withText State.reset streetTest).textLen.toNat ≤ (withText State.reset streetTest).capText.toNat ∧
      2 ≤ (withText State.reset streetTest).text.dedup.length ∧
      255 * (withText State.reset streetTest).textLen.toNat ≤ (withText State.reset streetTest).capMsg.toNat :=
  ⟨resetCaps, by decide +kernel, by decide +kernel, by decide +kernel⟩

/-- StepKeeps…: a step that answers a next state from the state that meets every invariant. -/
theorem witness_StepKeeps : invState.Inv ∧ ∃ t, step invState = .next t := ⟨witness_Inv, _, rfl⟩

/-- NoStepIsStuck: the current tree as R37 says, a step that is refused, the engine to move while the host's next
operation is misaligned, and the host's next operation aligned. -/
theorem witness_NoStepIsStuck :
    treeState.ArenaOk ∧ (hostState (.rd 0x002)).ArenaOk ∧ step (hostState (.rd 0x002)) = .refused .misalignedAccess ∧
      ({ hostState (.rd 0x002) with turns := [.engine] } : State).nextTurn ≠ .host ∧ treeState.HostAligned ∧
      (hostState (.rd 0x00C)).HostAligned :=
  ⟨treeState_arena, fun h => (Bool.false_ne_true h).elim, rfl, by decide, fun _ h => (Option.not_mem_none _ h).elim,
    fun op h => by
      have : op = .rd 0x00C := by simpa [hostState, eq_comm] using h
      rw [this]; decide⟩

end Sys2Proof.Tests
end

section
/-! SUPPORT. Every way a step of the machine can end: whose turn it was, what the engine did, what the host did, and what
its access did at the port. With the `exec…_next` lemmas of Sys2Proof/Laws/Commands.lean this is all a step can do. -/

namespace Sys2Proof.Machine

/-- Whose step it was (R17, R139, R160). -/
theorem step_next {s t : State} (h : step s = .next t) :
    (s.nextTurn = .host ∧ hostStep s.popTurn = .next t) ∨
    (s.nextTurn = .engine ∧ engineStep s.popTurn = .next t) ∨
    (s.nextTurn = .resetPin ∧ t = s.popTurn.hardReset) := by
  rw [step] at h
  cases hn : s.nextTurn with
  | host => rw [hn] at h; exact .inl ⟨rfl, h⟩
  | engine => rw [hn] at h; exact .inr (.inl ⟨rfl, h⟩)
  | resetPin =>
    rw [hn] at h
    cases h
    exact .inr (.inr ⟨rfl, rfl⟩)

/-- How the engine's step ends: nothing while idle, else the accepted word completes (R83, R139, R157). -/
theorem engineStep_next {s t : State} (h : engineStep s = .next t) :
    (s.eng = .idle ∧ t = s) ∨
    (∃ w i, s.eng = .busy w ∧ decode w = .command i ∧ exec i s = .next t) ∨
    (∃ w why, s.eng = .busy w ∧ decode w = .illegal why ∧ t = s.fail ⟨.badCommand, w⟩) := by
  rw [engineStep] at h
  cases he : s.eng with
  | idle =>
    rw [he] at h
    cases h
    exact .inl ⟨rfl, rfl⟩
  | busy w =>
    simp only [he] at h
    cases hd : decode w with
    | command i => rw [hd] at h; exact .inr (.inl ⟨w, i, rfl, hd, h⟩)
    | illegal why =>
      rw [hd] at h
      cases h
      exact .inr (.inr ⟨w, why, rfl, hd, rfl⟩)

/-- A host read of the register page changes nothing in the block (R60, R66). -/
theorem State.hostRead_register (s : State) {off : Nat} (h : off < 0x001000) :
    s.hostRead off = { s with reads := s.readReg off :: s.reads } := by
  simp [State.hostRead, State.memRead, h]

/-- How a host step ends: its program has ended; one write; one read; or one of the operations that read a register and
choose what is left of the program (R86, R88, R89, R91, R172). -/
theorem hostStep_next {s t : State} (h : hostStep s = .next t) :
    (s.program = [] ∧ t = s) ∨
    (∃ off v rest, s.program = .wr off v :: rest ∧ Offset.aligned off = true ∧
      t = { s with program := rest }.memWrite off.toNat v) ∨
    (∃ off rest, s.program = .rd off :: rest ∧ Offset.aligned off = true ∧
      t = { s with program := rest }.hostRead off.toNat) ∨
    (∃ off p, off < 0x001000 ∧ t = { s with reads := s.readReg off :: s.reads, program := p }) := by
  rw [hostStep] at h
  cases hp : s.program with
  | nil =>
    rw [hp] at h
    cases h
    exact .inl ⟨rfl, rfl⟩
  | cons op rest =>
    cases op with
    | wr off v =>
      cases ha : Offset.aligned off <;> simp [hp, ha] at h
      exact .inr (.inl ⟨off, v, rest, rfl, ha, h.symm⟩)
    | rd off =>
      cases ha : Offset.aligned off <;> simp [hp, ha] at h
      exact .inr (.inr (.inl ⟨off, rest, rfl, ha, h.symm⟩))
    | waitIdle =>
      have hoff : 0x00C < 0x001000 := by decide
      simp only [hp, s.hostRead_register hoff, Host.Outcome.next.injEq] at h
      split at h <;> exact .inr (.inr (.inr ⟨0x00C, _, hoff, h.symm⟩))
    | checkErr =>
      have hoff : 0x014 < 0x001000 := by decide
      simp only [hp, s.hostRead_register hoff, Host.Outcome.next.injEq] at h
      exact .inr (.inr (.inr ⟨0x014, _, hoff, h.symm⟩))
    | getText =>
      have hoff : 0x020 < 0x001000 := by decide
      simp only [hp, s.hostRead_register hoff, Host.Outcome.next.injEq] at h
      exact .inr (.inr (.inr ⟨0x020, _, hoff, h.symm⟩))

/-- A read leaves the block as it was, but for the draw it may take (R60, R68). -/
theorem State.memRead_state (s : State) (off : Nat) :
    (s.memRead off).2 = s ∨ (s.memRead off).2 = { s with draws := s.draws + 1 } := by
  rw [State.memRead]
  split
  · exact .inl rfl
  · split
    · exact .inl rfl
    · split
      · exact .inr rfl
      · exact .inl rfl

/-- What an idle write to a window does: nothing, one byte of a symbol window, or one word of another (R63, R65). -/
theorem State.writeWindow_cases (s : State) (off : Nat) (v : Word) :
    s.writeWindow off v = s ∨
    ∃ r, s.regionOf off = some r ∧ r.hostWritable = true ∧
      ((r.byteWide = true ∧ s.writeWindow off v = s.putRun off 4 [v.extractLsb' 0 8]) ∨
        (r.byteWide = false ∧ s.writeWindow off v = s.putWords off [v])) := by
  rw [State.writeWindow]
  cases hr : s.regionOf off with
  | none => exact .inl rfl
  | some r =>
    cases hw : r.hostWritable
    · simp [hw]
    · cases hb : r.byteWide <;> exact .inr ⟨r, rfl, hw, by simp [hw, hb]⟩

end Sys2Proof.Machine
end

section
/-! SUPPORT. The register invariants under every operation a step is made of, and the obligation that every step keeps
them. EngOk and ErrOk are restored by any completion, so a command owes only the other four (`State.ResultsOk`). A change
of a field that no invariant reads leaves the invariant the same proposition, and its proof is the hypothesis itself. -/

namespace Sys2Proof.Machine

/-- The invariants a command has to keep itself: those that completion does not restore. -/
def State.ResultsOk (s : State) : Prop := s.CapsOk ∧ s.TreeRegsOk ∧ s.OutOk ∧ s.DrawsOk

/-- All the register invariants. -/
def State.RegsOk (s : State) : Prop := s.EngOk ∧ s.ErrOk ∧ s.ResultsOk

theorem State.Inv.regsOk {s : State} (h : s.Inv) : s.RegsOk :=
  ⟨h.eng, h.err, h.caps, h.treeRegs, h.out, h.draws⟩

theorem State.RegsOk.resultsOk {s : State} (h : s.RegsOk) : s.ResultsOk := h.2.2

/-! ### Completion (R140, R141) -/

/-- An idle engine has no accepted word to agree with. -/
theorem State.engOk_of_idle {s : State} (h : s.eng = .idle) : s.EngOk := fun w hw => by simp [h] at hw

/-- Every error has one of the codes 0x01 to 0x0D (R142). -/
theorem ErrCode.code_bounds (c : ErrCode) : c.code ≠ 0 ∧ c.code.toNat ≤ 0x0D := by cases c <;> decide

theorem State.ResultsOk.complete {s : State} (h : s.ResultsOk) : s.complete.RegsOk :=
  ⟨State.engOk_of_idle rfl, ⟨by simp, fun _ => rfl⟩, h⟩

theorem State.ResultsOk.fail {s : State} {e : CmdError} (h : s.ResultsOk) : (s.fail e).RegsOk :=
  ⟨State.engOk_of_idle rfl, ⟨e.code.code_bounds.2, fun h0 => absurd h0 e.code.code_bounds.1⟩, h⟩

/-! ### Draws and resets (R12, R160, R161) -/

/-- The regions that become unspecified take the draw just made, so each region's draw stays below the next one. -/
theorem State.DrawsOk.unspecified {s : State} (h : s.DrawsOk) (rs : List Region) : (s.unspecified rs).DrawsOk := by
  intro r
  have hr := h r
  rw [State.unspecified_epochs, Epochs.get_foldl, State.unspecified_draws]
  split <;> omega

theorem State.DrawsOk.next {s : State} (h : s.DrawsOk) : ({ s with draws := s.draws + 1 } : State).DrawsOk :=
  fun r => Nat.lt_succ_of_lt (h r)

theorem State.ResultsOk.unspecified {s : State} (h : s.ResultsOk) (rs : List Region) : (s.unspecified rs).ResultsOk := by
  obtain ⟨hcaps, htree, hout, hdraws⟩ := h
  exact ⟨hcaps, htree, hout, hdraws.unspecified rs⟩

theorem State.ResultsOk.resetRegisters {s : State} (h : s.ResultsOk) : s.resetRegisters.RegsOk := by
  obtain ⟨hcaps, -, -, hdraws⟩ := h
  exact ⟨State.engOk_of_idle rfl, ⟨by simp, fun _ => rfl⟩, hcaps, ⟨fun _ => ⟨rfl, rfl⟩, by simp⟩, by simp [State.OutOk],
    hdraws⟩

/-! ### The commands' results -/

/-- A count of symbols is at most 256, and so is what DISTINCT holds of it (R31). -/
theorem distinct_toNat_le {n : Nat} (h : n ≤ 256) : (BitVec.ofNat 9 n).toNat ≤ 256 := by
  rw [BitVec.toNat_ofNat]; omega

theorem distinctIn_countTable_le (text : List Symbol) : distinctIn (countTable text) ≤ 256 := by
  calc distinctIn (countTable text) ≤ (countTable text).length := List.countP_le_length
    _ = 256 := by simp [countTable, Config.nsym]

theorem State.presentSymbols_length_le (s : State) : s.presentSymbols.length ≤ 256 := by
  calc s.presentSymbols.length ≤ (List.range Config.nsym).length := List.length_filter_le ..
    _ = 256 := by simp [Config.nsym]

/-- COUNT writes DISTINCT alone of the registers (R95). -/
theorem State.ResultsOk.countText {s : State} (h : s.ResultsOk) {table : List Word} (hd : distinctIn table ≤ 256) :
    (s.countText table).RegsOk := by
  obtain ⟨hcaps, ⟨htree, -⟩, hout, hdraws⟩ := h
  have h' : State.ResultsOk
      { s.putWords 0x001000 table with distinct := BitVec.ofNat 9 (distinctIn table) } :=
    ⟨hcaps, ⟨htree, distinct_toNat_le hd⟩, hout, hdraws⟩
  rw [State.countText]
  split
  · exact h'.fail
  · exact h'.complete

/-- BUILD clears ROOT and NODE_COUNT wherever it clears TREE_VALID (R101). -/
theorem State.ResultsOk.buildTree {s : State} (h : s.ResultsOk) {l : List Nat} (hl : l.length ≤ 256) :
    (s.buildTree l).RegsOk := by
  obtain ⟨hcaps, -, hout, hdraws⟩ := h
  have hdist := distinct_toNat_le hl
  rw [State.buildTree]
  split
  · exact State.ResultsOk.fail ⟨hcaps, ⟨fun _ => ⟨rfl, rfl⟩, hdist⟩, hout, hdraws⟩
  · exact State.ResultsOk.complete ⟨hcaps, ⟨fun hv => Bool.noConfusion hv, hdist⟩, hout, hdraws⟩

/-- TDEC clears ROOT and NODE_COUNT wherever it clears TREE_VALID (R117, R118). -/
theorem State.ResultsOk.rebuildTree {s : State} (h : s.ResultsOk) (r : Except CmdError Parsed) :
    (s.rebuildTree r).RegsOk := by
  cases r with
  | error e =>
    obtain ⟨hcaps, ⟨-, hdist⟩, hout, hdraws⟩ := h.unspecified [.node]
    exact State.ResultsOk.fail ⟨hcaps, ⟨fun _ => ⟨rfl, rfl⟩, hdist⟩, hout, hdraws⟩
  | ok r =>
    obtain ⟨hcaps, ⟨-, hdist⟩, hout, hdraws⟩ := h
    exact State.ResultsOk.complete ⟨hcaps, ⟨fun hv => Bool.noConfusion hv, hdist⟩, hout, hdraws⟩

theorem State.ResultsOk.flattenTree {s : State} (h : s.ResultsOk) (tr : CodeTree) : (s.flattenTree tr).RegsOk :=
  State.ResultsOk.complete h

theorem State.ResultsOk.pathStage {s : State} (h : s.ResultsOk) (tr : CodeTree) : (s.pathStage tr).ResultsOk := h

theorem State.ResultsOk.storeMessage {s : State} (h : s.ResultsOk) (r : Except CmdError (List Bool)) :
    (s.storeMessage r).RegsOk := by
  cases r with
  | error e => exact State.ResultsOk.fail (h.unspecified [.msgBits])
  | ok bits => exact State.ResultsOk.complete h

/-- SDEC's loop raises TEXT_OVERFLOW before a symbol past MAX_TEXT, so the symbols it has decoded and those it still
decodes fit (R132). -/
theorem State.decodeBits_length_le {s : State} {bits : List Bool} {i cur start out : Nat} {text : List Symbol}
    (h : s.decodeBits bits i cur start out = .ok text) (hout : out ≤ s.capText.toNat) :
    out + text.length ≤ s.capText.toNat := by
  induction bits generalizing i cur start out text with
  | nil =>
    rw [State.decodeBits] at h
    split at h
    · cases h
    · cases h; simpa using hout
  | cons b bits ih =>
    rw [State.decodeBits] at h
    split at h
    · split at h
      · cases h
      · split at h
        · cases h
        · rename_i hroom _ rest hrest
          cases h
          have := ih hrest (by omega)
          rw [List.length_cons]
          omega
    · exact ih h hout

/-- SDEC writes OUT_LEN alone of the registers: the length of the text, 0 after a data error (R132, R133). -/
theorem State.ResultsOk.storeOutput {s : State} (h : s.ResultsOk) {r : Except CmdError (List Symbol)}
    (hr : ∀ text, r = .ok text → text.length ≤ s.capText.toNat) : (s.storeOutput r).RegsOk := by
  cases r with
  | error e =>
    obtain ⟨hcaps, htree, -, hdraws⟩ := h.unspecified [.textOut]
    exact State.ResultsOk.fail ⟨hcaps, htree, Nat.zero_le _, hdraws⟩
  | ok text =>
    obtain ⟨hcaps, htree, -, hdraws⟩ := h
    have hout : (BitVec.ofNat 32 text.length).toNat ≤ s.capText.toNat :=
      (BitVec.toNat_ofNat text.length 32 ▸ Nat.mod_le _ _).trans (hr text rfl)
    exact State.ResultsOk.complete ⟨hcaps, htree, hout, hdraws⟩

/-- Every command ends in a state with all the register invariants. -/
theorem exec_regsOk {i : Instr} {s t : State} (h : s.ResultsOk) (hx : exec i s = .next t) : t.RegsOk := by
  cases i with
  | count =>
    obtain ⟨-, rfl⟩ | ⟨-, rfl⟩ := execCount_next hx
    · exact h.fail
    · exact h.countText (distinctIn_countTable_le _)
  | build =>
    obtain rfl := execBuild_next hx
    exact h.buildTree s.presentSymbols_length_le
  | tenc =>
    obtain ⟨-, rfl⟩ | ⟨-, tr, -, rfl⟩ := execTenc_next hx
    · exact h.fail
    · exact h.flattenTree tr
  | tdec =>
    obtain ⟨-, rfl⟩ | ⟨-, -, rfl⟩ | ⟨-, -, rfl⟩ := execTdec_next hx
    · exact h.fail
    · exact h.fail
    · exact h.rebuildTree _
  | paths =>
    obtain ⟨-, rfl⟩ | ⟨-, -, rfl⟩ | ⟨-, -, tr, -, rfl⟩ := execPaths_next hx
    · exact h.fail
    · exact h.fail
    · exact (h.pathStage tr).complete
  | senc =>
    obtain ⟨-, rfl⟩ | ⟨-, -, rfl⟩ | ⟨-, -, -, rfl⟩ | ⟨-, -, -, tr, -, rfl⟩ := execSenc_next hx
    · exact h.fail
    · exact h.fail
    · exact h.fail
    · exact (h.pathStage tr).storeMessage _
  | sdec =>
    obtain ⟨-, rfl⟩ | ⟨-, -, rfl⟩ | ⟨-, -, -, rfl⟩ | ⟨-, -, -, rfl⟩ := execSdec_next hx
    · exact h.fail
    · exact h.fail
    · exact h.fail
    · refine h.storeOutput fun text ht => ?_
      simpa using State.decodeBits_length_le ht (Nat.zero_le _)

/-! ### The host port -/

/-- A write to CTRL stores IE or resets the registers (R25, R161). -/
theorem State.RegsOk.writeCtrl {s : State} (h : s.RegsOk) (v : Word) : (s.writeCtrl v).RegsOk := by
  have hres := h.resultsOk
  rw [State.writeCtrl]
  split
  · exact (hres.unspecified _).resetRegisters
  · exact h

/-- A write to STATUS clears DONE at most, which is 0 already while busy (R26, R33). -/
theorem State.RegsOk.writeStatus {s : State} (h : s.RegsOk) (v : Word) : (s.writeStatus v).RegsOk := by
  obtain ⟨heng, hrest⟩ := h
  refine ⟨fun w hw => ?_, hrest⟩
  obtain ⟨hcmd, hdone, hcode, hinfo⟩ := heng w hw
  exact ⟨hcmd, by simp [State.writeStatus, hdone], hcode, hinfo⟩

/-- Acceptance clears DONE, ERR_CODE and ERR_INFO and puts the word in CMD (R138). -/
theorem State.RegsOk.accept {s : State} (h : s.RegsOk) (w : Word) : (s.accept w).RegsOk := by
  refine ⟨fun w' hw => ?_, ⟨by simp, fun _ => rfl⟩, h.resultsOk⟩
  cases hw
  exact ⟨rfl, rfl, rfl, rfl⟩

/-- The length registers the host writes are in no register invariant (R30). -/
theorem State.RegsOk.writeReg {s : State} (h : s.RegsOk) (off : Nat) (v : Word) : (s.writeReg off v).RegsOk := by
  rw [State.writeReg.eq_def]
  split <;> exact h

theorem State.RegsOk.writeWindow {s : State} (h : s.RegsOk) (off : Nat) (v : Word) : (s.writeWindow off v).RegsOk := by
  obtain e | ⟨r, -, -, ⟨-, e⟩ | ⟨-, e⟩⟩ := s.writeWindow_cases off v <;> rw [e] <;> exact h

theorem State.RegsOk.memWrite {s : State} (h : s.RegsOk) (off : Nat) (v : Word) : (s.memWrite off v).RegsOk := by
  rw [State.memWrite]
  split
  · exact h.writeCtrl v
  · split
    · exact h.writeStatus v
    · split
      · exact h
      · split
        · exact h.accept v
        · split
          · exact h.writeReg off v
          · exact h.writeWindow off v

theorem State.RegsOk.hostRead {s : State} (h : s.RegsOk) (off : Nat) : (s.hostRead off).RegsOk := by
  rw [State.hostRead]
  obtain e | e := s.memRead_state off <;> rw [e]
  · exact h
  · obtain ⟨heng, herr, hcaps, htree, hout, hdraws⟩ := h
    exact ⟨heng, herr, hcaps, htree, hout, hdraws.next⟩

/-! ### The three agents -/

theorem hostStep_regsOk {s t : State} (h : s.RegsOk) (hx : hostStep s = .next t) : t.RegsOk := by
  obtain ⟨-, rfl⟩ | ⟨off, v, rest, -, -, rfl⟩ | ⟨off, rest, -, -, rfl⟩ | ⟨off, p, -, rfl⟩ := hostStep_next hx
  · exact h
  · exact State.RegsOk.memWrite (s := { s with program := rest }) h _ v
  · exact State.RegsOk.hostRead (s := { s with program := rest }) h _
  · exact h

theorem engineStep_regsOk {s t : State} (h : s.RegsOk) (hx : engineStep s = .next t) : t.RegsOk := by
  have hres := h.resultsOk
  obtain ⟨-, rfl⟩ | ⟨w, i, -, -, hi⟩ | ⟨w, why, -, -, rfl⟩ := engineStep_next hx
  · exact h
  · exact exec_regsOk hres hi
  · exact hres.fail

theorem State.RegsOk.hardReset {s : State} (h : s.RegsOk) : s.hardReset.RegsOk :=
  (h.resultsOk.unspecified _).resetRegisters

/-- The register invariants need no other part of `State.Inv` to be kept. -/
theorem step_regsOk {s t : State} (h : s.RegsOk) (hx : step s = .next t) : t.RegsOk := by
  have hpop : s.popTurn.RegsOk := h
  obtain ⟨-, hhost⟩ | ⟨-, hengine⟩ | ⟨-, rfl⟩ := step_next hx
  · exact hostStep_regsOk hpop hhost
  · exact engineStep_regsOk hpop hengine
  · exact hpop.hardReset

/-- Settles O56: each operation a step is made of keeps the register invariants (`step_regsOk`). -/
theorem stepKeepsTheRegisterInvariants : Obligations.StepKeepsTheRegisterInvariants := by
  intro s t hinv hx
  obtain ⟨heng, herr, hcaps, htree, hout, hdraws⟩ := step_regsOk hinv.regsOk hx
  exact ⟨hcaps, heng, herr, htree, hout, hdraws⟩

end Sys2Proof.Machine
end


section
/-! SUPPORT. A tree stored in the arena, and what a state owes to meet R37: one relation that says under which index a tree
stands and which indices a traversal of it meets. `treeAt`, `indicesAt` and `nodeForm` are read off it, so BUILD and TDEC
only have to show that the words they write store a tree. -/

namespace Sys2Proof.Machine

/-- The arena of `s` holds tree `t` under index `i`, its nodes in pre-order at the indices `l`, each in the form of R36. -/
inductive State.Stores (s : State) : CodeTree → Nat → List Nat → Prop
  | leaf {i : Nat} {x : Symbol} (word : s.nodeAt i = leafWord x) : s.Stores (.leaf x) i [i]
  | node {i a b : Nat} {z o : CodeTree} {la lb : List Nat} (ha : a < 512) (hb : b < 512)
      (word : s.nodeAt i = interiorWord a b) (zero : s.Stores z a la) (one : s.Stores o b lb) :
      s.Stores (.node z o) i (i :: (la ++ lb))

variable {s : State} {t : CodeTree} {i : Nat} {l : List Nat}

theorem State.Stores.length_eq (h : s.Stores t i l) : l.length = t.size := by
  induction h with
  | leaf => rfl
  | node _ _ _ _ _ hz ho => simp [CodeTree.size, hz, ho]

theorem State.Stores.root_mem (h : s.Stores t i l) : i ∈ l := by cases h <;> simp

/-- Every word of a stored tree has a form of R36. -/
theorem State.Stores.nodeForm (h : s.Stores t i l) : ∀ j ∈ l, nodeForm (s.nodeAt j) := by
  induction h with
  | leaf word => simp [word, nodeForm_leafWord]
  | node ha hb word _ _ hz ho =>
    simp only [List.mem_cons, List.mem_append]
    rintro j (rfl | hj | hj)
    · exact word ▸ nodeForm_interiorWord ha hb
    · exact hz j hj
    · exact ho j hj

/-- A traversal with enough levels reads a stored tree and meets its indices in order. -/
theorem State.Stores.traversal (h : s.Stores t i l) {fuel : Nat} (hf : t.height < fuel) :
    s.treeAt fuel i = some t ∧ s.indicesAt fuel i = l := by
  induction h generalizing fuel with
  | leaf word =>
    obtain ⟨fuel, rfl⟩ := Nat.exists_eq_succ_of_ne_zero (Nat.ne_zero_of_lt hf)
    simp [State.treeAt, State.indicesAt, word]
  | node ha hb word _ _ hz ho =>
    obtain ⟨fuel, rfl⟩ := Nat.exists_eq_succ_of_ne_zero (Nat.ne_zero_of_lt hf)
    rw [CodeTree.height] at hf
    obtain ⟨hz, iz⟩ := hz (fuel := fuel) (by omega)
    obtain ⟨ho, io⟩ := ho (fuel := fuel) (by omega)
    simp [State.treeAt, State.indicesAt, word, nodeIsLeaf_interiorWord ha hb, nodeZero_interiorWord ha hb,
      nodeOne_interiorWord ha hb, hz, ho, iz, io]

/-- A tree with distinct leaves stored under ROOT at exactly the indices below NODE_COUNT is what R37 asks for. -/
theorem State.Stores.arenaOk (h : s.Stores t s.root.toNat l) (hp : l.Perm (List.range s.nodeCount.toNat))
    (hn : t.leaves.Nodup) : s.ArenaOk := by
  intro _
  have hsize : t.size = s.nodeCount.toNat := by rw [← h.length_eq, hp.length_eq, List.length_range]
  have hheight : t.height < Config.maxNodes := by
    have := t.height_le
    have := s.nodeCount.isLt
    rw [Config.maxNodes]
    omega
  obtain ⟨htree, hindices⟩ := h.traversal hheight
  refine ⟨⟨t, htree, hn⟩, hindices ▸ hp, fun j hj => h.nodeForm j ?_⟩
  rwa [hp.mem_iff, List.mem_range]

/-- An arena word that a command wrote reads back. -/
theorem State.nodeAt_putWords (s : State) {ws : List Word} {w : Word} (h : ws[i]? = some w) :
    (s.putWords 0x002000 ws).nodeAt i = w := by
  obtain ⟨hi, rfl⟩ := List.getElem?_eq_some_iff.mp h
  exact State.wordAt_putWords hi

end Sys2Proof.Machine
end

section
/-! SUPPORT. TDEC's result: the NODE words of a tree in pre-order (R115), and that whatever `build()` parses is one tree's
flattening, with the words of that tree (R116, R117). -/

namespace Sys2Proof.Machine

/-- The NODE words of a tree numbered in pre-order from index `p` on (R115). -/
def CodeTree.words : CodeTree → Nat → List Word
  | .leaf x, _ => [leafWord x]
  | .node z o, p => interiorWord (p + 1) (p + 1 + z.size) :: (z.words (p + 1) ++ o.words (p + 1 + z.size))

@[simp] theorem CodeTree.words_length (t : CodeTree) (p : Nat) : (t.words p).length = t.size := by
  induction t generalizing p with
  | leaf x => rfl
  | node z o hz ho => simp [CodeTree.words, CodeTree.size, hz, ho]

/-- An arena that holds the pre-order words of a tree from index `p` on stores that tree there. -/
theorem State.stores_of_words {s : State} {t : CodeTree} {p : Nat} (hp : p + t.size ≤ 512)
    (hw : ∀ k w, (t.words p)[k]? = some w → s.nodeAt (p + k) = w) :
    s.Stores t p (List.range' p t.size) := by
  induction t generalizing p with
  | leaf x => exact .leaf (hw 0 _ rfl)
  | node z o hz ho =>
    have hsz := o.size_pos
    rw [CodeTree.size] at hp
    have hzero : s.Stores z (p + 1) (List.range' (p + 1) z.size) := hz (by omega) fun k w hk => by
      have hlt : k < (z.words (p + 1)).length := (List.getElem?_eq_some_iff.mp hk).1
      rw [show p + 1 + k = p + (k + 1) by omega]
      refine hw _ w ?_
      rw [CodeTree.words, List.getElem?_cons_succ, List.getElem?_append_left hlt, hk]
    have hone : s.Stores o (p + 1 + z.size) (List.range' (p + 1 + z.size) o.size) := ho (by omega) fun k w hk => by
      rw [show p + 1 + z.size + k = p + (z.size + k + 1) by omega]
      refine hw _ w ?_
      rw [CodeTree.words, List.getElem?_cons_succ, List.getElem?_append_right (by simp), CodeTree.words_length,
        Nat.add_sub_cancel_left, hk]
    have hindices : List.range' p (z.size + o.size + 1) =
        p :: (List.range' (p + 1) z.size ++ List.range' (p + 1 + z.size) o.size) := by
      rw [List.range'_succ, List.range'_append_1]
    rw [CodeTree.size, hindices]
    exact .node (by omega) (by omega) (hw 0 _ rfl) hzero hone

/-- `r` is what `build()` leaves after it parsed tree `t` from the front of `bits` and `leaves` (R117). -/
structure Parsed.IsTree (r : Parsed) (t : CodeTree) (bits : List Bool) (leaves seen : List Symbol) (p j : Nat) : Prop where
  bits_eq : bits = t.bits ++ r.bits
  leaves_eq : leaves = t.leaves ++ r.leaves
  nodes_eq : r.nodes = t.words p
  seen_eq : r.seen = t.leaves.reverse ++ seen
  p_eq : r.p = p + t.size
  j_eq : r.j = j + t.leaves.length
  distinct : seen.Nodup → r.seen.Nodup

/-- Whatever `build()` parses is one tree (R116, R117). -/
theorem unflatten_ok {fuel : Nat} {bits : List Bool} {leaves seen : List Symbol} {p j : Nat} {r : Parsed}
    (h : unflatten fuel bits leaves seen p j = .ok r) : ∃ t, r.IsTree t bits leaves seen p j := by
  induction fuel generalizing bits leaves seen p j r with
  | zero => simp [unflatten] at h
  | succ fuel ih =>
    match bits with
    | [] => simp [unflatten] at h
    | false :: bits =>
      cases leaves with
      | nil => simp [unflatten] at h
      | cons x rest =>
        simp only [unflatten] at h
        split at h
        · cases h
        · rename_i hx
          cases h
          exact ⟨.leaf x, rfl, rfl, rfl, rfl, rfl, rfl, fun hs => List.nodup_cons.mpr ⟨hx, hs⟩⟩
    | true :: bits =>
      simp only [unflatten] at h
      split at h
      · cases h
      · rename_i z hz
        split at h
        · cases h
        · rename_i o ho
          cases h
          obtain ⟨t, pz⟩ := ih hz
          obtain ⟨u, po⟩ := ih ho
          refine ⟨.node t u, ?_, ?_, ?_, ?_, ?_, ?_, fun h => po.distinct (pz.distinct h)⟩
          · simp [CodeTree.bits, pz.bits_eq, po.bits_eq]
          · simp [CodeTree.leaves, pz.leaves_eq, po.leaves_eq]
          · simp [CodeTree.words, pz.nodes_eq, po.nodes_eq, pz.p_eq]
          · simp [CodeTree.leaves, pz.seen_eq, po.seen_eq]
          · simp only [CodeTree.size, pz.p_eq, po.p_eq]; omega
          · simp only [CodeTree.leaves, List.length_append, pz.j_eq, po.j_eq]; omega

/-- The two sequences parse only as the flattening of a tree with distinct leaves, and to that tree's words (R116, R120). -/
theorem parseTree_ok {bits : List Bool} {leaves : List Symbol} {r : Parsed} (h : parseTree bits leaves = .ok r) :
    ∃ t : CodeTree, bits = t.bits ∧ leaves = t.leaves ∧ t.leaves.Nodup ∧ r.nodes = t.words 0 ∧ r.p = t.size := by
  rw [parseTree] at h
  split at h
  · cases h
  · rename_i r' hr
    split at h
    · cases h
    · rename_i hrest
      cases h
      obtain ⟨t, ht⟩ := unflatten_ok hr
      have hbits := ht.bits_eq
      have hleaves := ht.leaves_eq
      have hseen := ht.seen_eq
      have hp := ht.p_eq
      simp only [not_or, not_not] at hrest
      simp only [hrest, List.append_nil, Nat.zero_add] at hbits hleaves hseen hp
      exact ⟨t, hbits, hleaves, List.nodup_reverse.mp (hseen ▸ ht.distinct List.nodup_nil), ht.nodes_eq, hp⟩

/-- TDEC leaves one tree under ROOT = 0 or clears TREE_VALID (R117, R118). -/
theorem State.rebuildTree_arenaOk (s : State) {bits : List Bool} (leaves : List Symbol) (hb : bits.length ≤ 511) :
    (s.rebuildTree (parseTree bits leaves)).ArenaOk := by
  cases hr : parseTree bits leaves with
  | error e => exact fun hv => Bool.noConfusion hv
  | ok r =>
    obtain ⟨t, rfl, -, hn, hnodes, hp⟩ := parseTree_ok hr
    rw [CodeTree.bits_length] at hb
    have hcount : (BitVec.ofNat 9 r.p).toNat = t.size := by
      rw [BitVec.toNat_ofNat, hp]
      omega
    have hstores : (s.rebuildTree (.ok r)).Stores t 0 (List.range' 0 t.size) :=
      State.stores_of_words (by omega) fun k w hk => by
        rw [Nat.zero_add]
        exact s.nodeAt_putWords (hnodes ▸ hk)
    refine State.Stores.arenaOk hstores ?_ hn
    rw [show (s.rebuildTree (.ok r)).nodeCount.toNat = t.size from hcount, List.range_eq_range']

end Sys2Proof.Machine
end

section
/-! SUPPORT. BUILD's result: the working set always stands for a forest stored in the arena, its trees at the indices the
set holds, covering every index given so far once; a merge joins two of its trees (R97 to R101). -/

namespace Sys2Proof.Machine

/-- Trees stored in the arena of `s` under the indices `as`, with all their indices and all their leaf symbols in order. -/
inductive State.StoresForest (s : State) : List Nat → List Nat → List Symbol → Prop
  | nil : s.StoresForest [] [] []
  | cons {t : CodeTree} {a : Nat} {l as ls : List Nat} {xs : List Symbol} (head : s.Stores t a l)
      (tail : s.StoresForest as ls xs) : s.StoresForest (a :: as) (l ++ ls) (t.leaves ++ xs)

/-- The order of a forest's trees does not matter. -/
theorem State.StoresForest.perm {s : State} {as as' ls : List Nat} {xs : List Symbol} (h : s.StoresForest as ls xs)
    (hp : as.Perm as') : ∃ ls' xs', s.StoresForest as' ls' xs' ∧ ls'.Perm ls ∧ xs'.Perm xs := by
  induction hp generalizing ls xs with
  | nil => exact ⟨ls, xs, h, .rfl, .rfl⟩
  | cons a _ ih =>
    obtain _ | ⟨head, tail⟩ := h
    obtain ⟨ls', xs', h', hl, hx⟩ := ih tail
    exact ⟨_, _, .cons head h', hl.append_left _, hx.append_left _⟩
  | swap a b as =>
    obtain _ | ⟨hb, _ | ⟨ha, tail⟩⟩ := h
    refine ⟨_, _, .cons ha (.cons hb tail), ?_, ?_⟩ <;> exact List.perm_append_comm_assoc ..
  | trans _ _ ih ih' =>
    obtain ⟨ls', xs', h', hl, hx⟩ := ih h
    obtain ⟨ls'', xs'', h'', hl', hx'⟩ := ih' h'
    exact ⟨ls'', xs'', h'', hl'.trans hl, hx'.trans hx⟩

/-- A merge word at index `m` joins the first two trees into one (R100). -/
theorem State.StoresForest.merge {s : State} {a b m : Nat} {as ls : List Nat} {xs : List Symbol}
    (h : s.StoresForest (a :: b :: as) ls xs) (hls : ∀ i ∈ ls, i < 512) (hw : s.nodeAt m = interiorWord a b) :
    s.StoresForest (m :: as) (m :: ls) xs := by
  obtain _ | ⟨ha, _ | ⟨hb, tail⟩⟩ := h
  have hnode := State.Stores.node (hls a (by simp [ha.root_mem])) (hls b (by simp [hb.root_mem])) hw ha hb
  simpa [CodeTree.leaves] using State.StoresForest.cons hnode tail

/-- Inserting into the working set adds the element and nothing else (R98). -/
theorem queueInsert_perm (e : QEntry) (q : List QEntry) : (queueInsert e q).Perm (e :: q) := by
  induction q with
  | nil => exact .rfl
  | cons x q ih =>
    rw [queueInsert]
    split
    · exact .rfl
    · exact (ih.cons x).trans (.swap e x q)

theorem queueOf_perm (es : List QEntry) : (queueOf es).Perm es := by
  induction es with
  | nil => exact .rfl
  | cons e es ih => exact (queueInsert_perm e (queueOf es)).trans (ih.cons e)

/-- The working set `q` before the merge that makes node `m`: it names the roots of a forest that covers the indices below
`m` and has the leaf symbols `xs`; the node made last is in it. -/
def State.QueueOk (s : State) (q : List QEntry) (m : Nat) (xs : List Symbol) : Prop :=
  m - 1 ∈ q.map (·.2) ∧
    ∃ ls ys, s.StoresForest (q.map (·.2)) ls ys ∧ ls.Perm (List.range m) ∧ ys.Perm xs

/-- The order of the working set does not matter to the forest it names. -/
theorem State.QueueOk.perm {s : State} {q q' : List QEntry} {m : Nat} {xs : List Symbol} (h : s.QueueOk q m xs)
    (hp : q.Perm q') : s.QueueOk q' m xs := by
  obtain ⟨hlast, ls, ys, hf, hl, hy⟩ := h
  obtain ⟨ls', ys', hf', hl', hy'⟩ := hf.perm (hp.map _)
  exact ⟨(hp.map _).mem_iff.mp hlast, ls', ys', hf', hl'.trans hl, hy'.trans hy⟩

/-- The merge word keeps the working set's forest (R100). -/
theorem State.QueueOk.merge {s : State} {w w1 w2 : Weight} {a b m : Nat} {q : List QEntry} {xs : List Symbol}
    (h : s.QueueOk ((w1, a) :: (w2, b) :: q) m xs) (hm : m ≤ 512) (hw : s.nodeAt m = interiorWord a b) :
    s.QueueOk (queueInsert (w, m) q) (m + 1) xs := by
  obtain ⟨-, ls, ys, hf, hl, hy⟩ := h
  have hls : ∀ i ∈ ls, i < 512 := fun i hi => by
    have := List.mem_range.mp (hl.mem_iff.mp hi)
    omega
  have hmerged : s.QueueOk ((w, m) :: q) (m + 1) xs := by
    refine ⟨by simp, m :: ls, ys, hf.merge hls hw, ?_, hy⟩
    rw [List.range_succ]
    exact (hl.cons m).trans (List.perm_append_singleton ..).symm
  exact hmerged.perm (queueInsert_perm _ _).symm

/-- The k − 1 merges of a working set of k trees leave one tree, under the index of the last node made (R100, R101). -/
theorem State.QueueOk.mergeAll {s : State} {n m : Nat} {q : List QEntry} {xs : List Symbol} (h : s.QueueOk q m xs)
    (hq : q.length = n + 1) (hm : m + n ≤ 512)
    (hw : ∀ k w, (mergeNodes n q m)[k]? = some w → s.nodeAt (m + k) = w) :
    ∃ t l, s.Stores t (m + n - 1) l ∧ l.Perm (List.range (m + n)) ∧ t.leaves.Perm xs := by
  induction n generalizing q m with
  | zero =>
    obtain ⟨⟨w, a⟩, rfl⟩ := List.length_eq_one_iff.mp hq
    obtain ⟨hlast, ls, ys, hf, hl, hy⟩ := h
    obtain rfl : m - 1 = a := by simpa using hlast
    obtain _ | ⟨head, _ | _⟩ := hf
    simp only [List.append_nil] at hl hy
    exact ⟨_, _, head, hl, hy⟩
  | succ n ih =>
    match q, hq with
    | (w1, a) :: (w2, b) :: q, hq =>
      have hnext := h.merge (w := w1 + w2) (by omega) (hw 0 _ rfl)
      have hlen : (queueInsert (w1 + w2, m) q).length = n + 1 := by
        rw [(queueInsert_perm _ _).length_eq]
        simpa using hq
      have hroot : m + 1 + n = m + (n + 1) := by omega
      rw [← hroot]
      refine ih hnext hlen (by omega) fun k w hk => ?_
      rw [show m + 1 + k = m + (k + 1) by omega]
      exact hw (k + 1) w hk

theorem leafEntries_indices (freq : Nat → Word) (l : List Nat) (t : Nat) :
    (leafEntries freq t l).map (·.2) = List.range' t l.length := by
  induction l generalizing t with
  | nil => rfl
  | cons x l ih => rw [leafEntries, List.map_cons, ih, List.length_cons, List.range'_succ]

/-- The leaf words make a forest of one leaf each (R97). -/
theorem State.storesForest_leaves {s : State} {l : List Nat} {t : Nat}
    (hw : ∀ k x, l[k]? = some x → s.nodeAt (t + k) = leafWord (BitVec.ofNat 8 x)) :
    s.StoresForest (List.range' t l.length) (List.range' t l.length) (l.map (BitVec.ofNat 8)) := by
  induction l generalizing t with
  | nil => exact .nil
  | cons x l ih =>
    rw [List.length_cons, List.range'_succ]
    refine .cons (t := .leaf (BitVec.ofNat 8 x)) (l := [t]) (.leaf (hw 0 x rfl)) (ih fun k y hk => ?_)
    rw [show t + 1 + k = t + (k + 1) by omega]
    exact hw (k + 1) y hk

/-- The words BUILD writes, with ROOT the last of them, are one tree over the symbols (R101). -/
theorem State.arenaOk_of_builtNodes {s : State} {freq : Nat → Word} {l : List Nat} (h1 : 1 ≤ l.length)
    (h2 : l.length ≤ 256) (hn : (l.map (BitVec.ofNat 8)).Nodup)
    (hw : ∀ k w, (builtNodes freq l)[k]? = some w → s.nodeAt k = w) (hroot : s.root.toNat = 2 * l.length - 2)
    (hcount : s.nodeCount.toNat = 2 * l.length - 1) : s.ArenaOk := by
  have hleaves : ∀ k x, l[k]? = some x → s.nodeAt (0 + k) = leafWord (BitVec.ofNat 8 x) := fun k x hk => by
    have hlt : k < l.length := (List.getElem?_eq_some_iff.mp hk).1
    rw [Nat.zero_add]
    refine hw k _ ?_
    rw [builtNodes, List.getElem?_append_left (by simpa using hlt), List.getElem?_map, hk, Option.map_some]
  have hmerges : ∀ k w, (mergeNodes (l.length - 1) (queueOf (leafEntries freq 0 l)) l.length)[k]? =
      some w → s.nodeAt (l.length + k) = w := fun k w hk => by
    refine hw _ w ?_
    rw [builtNodes, List.getElem?_append_right (by simp), List.length_map, Nat.add_sub_cancel_left, hk]
  have hentries : s.QueueOk (leafEntries freq 0 l) l.length (l.map (BitVec.ofNat 8)) := by
    rw [State.QueueOk, leafEntries_indices, List.range_eq_range']
    exact ⟨List.mem_range'_1.mpr (by omega), _, _, State.storesForest_leaves hleaves, .rfl, .rfl⟩
  have hlen : (queueOf (leafEntries freq 0 l)).length = l.length - 1 + 1 := by
    rw [(queueOf_perm _).length_eq, ← List.length_map, leafEntries_indices, List.length_range']
    omega
  obtain ⟨t, is, hstores, hperm, hsyms⟩ := (hentries.perm (queueOf_perm _).symm).mergeAll hlen (by omega) hmerges
  rw [show l.length + (l.length - 1) - 1 = s.root.toNat by omega] at hstores
  rw [show l.length + (l.length - 1) = s.nodeCount.toNat by omega] at hperm
  exact hstores.arenaOk hperm (hsyms.nodup_iff.mpr hn)

theorem State.presentSymbols_nodup (s : State) : (s.presentSymbols.map (BitVec.ofNat 8)).Nodup := by
  have hlt : ∀ x ∈ s.presentSymbols, x < 256 := fun x hx => List.mem_range.mp (List.mem_filter.mp hx).1
  refine List.Nodup.map_on (fun x hx y hy hxy => ?_) (List.nodup_range.filter _)
  have hxy := congrArg BitVec.toNat hxy
  simp only [BitVec.toNat_ofNat] at hxy
  have := hlt x hx
  have := hlt y hy
  omega

/-- BUILD leaves one tree under ROOT = 2k − 2 or clears TREE_VALID (R101). -/
theorem State.buildTree_arenaOk (s : State) : (s.buildTree s.presentSymbols).ArenaOk := by
  have hmax := s.presentSymbols_length_le
  rw [State.buildTree]
  split
  · exact fun hv => Bool.noConfusion hv
  · refine State.arenaOk_of_builtNodes (l := s.presentSymbols) (freq := s.freqAt) (by omega) hmax s.presentSymbols_nodup
      (fun k w hk => s.nodeAt_putWords hk) ?_ ?_
    · simp only [State.complete_root, BitVec.toNat_ofNat]; omega
    · simp only [State.complete_nodeCount, BitVec.toNat_ofNat]; omega

end Sys2Proof.Machine
end

section
/-! SUPPORT. The arena and the path table under every operation a step is made of: either both stay as they are, or BUILD,
TDEC or a reset leaves a new arena with PATHS_VALID = 0, or the path stage writes the table anew (`State.Tables`); and the
two obligations that read off this. -/

namespace Sys2Proof.Machine

/-- `t` has the arena of `s`: the registers R37 speaks of and the bytes of NODE. -/
structure State.SameArena (s t : State) : Prop where
  treeValid : t.treeValid = s.treeValid
  root : t.root = s.root
  nodeCount : t.nodeCount = s.nodeCount
  nodeBytes : ∀ a, 0x2000 ≤ a → a < 0x2800 → t.byteAt a = s.byteAt a

/-- `t` has the arena and the path table of `s`: PATHS_VALID too, and the bytes of CODE_LEN and CODE_BITS. -/
structure State.SameTables (s t : State) : Prop extends State.SameArena s t where
  pathsValid : t.pathsValid = s.pathsValid
  pathBytes : ∀ a, 0x4000 ≤ a → a < 0xA000 → t.byteAt a = s.byteAt a

section
variable {s t u : State}

/-! ### What the two keep -/

theorem State.SameArena.nodeAt (h : s.SameArena t) {i : Nat} (hi : i < 512) : t.nodeAt i = s.nodeAt i :=
  State.wordAt_congr fun j hj => h.nodeBytes _ (by omega) (by omega)

theorem State.SameArena.treeAt (h : s.SameArena t) : t.treeAt Config.maxNodes t.root.toNat =
    s.treeAt Config.maxNodes s.root.toNat := by
  rw [h.root, State.treeAt_congr (fun i hi => h.nodeAt hi) _ _ s.root.isLt]

theorem State.SameArena.currentTree (h : s.SameArena t) : t.currentTree = s.currentTree := by
  rw [State.currentTree, State.currentTree, h.treeAt]

theorem State.SameArena.rootIsLeaf (h : s.SameArena t) : t.rootIsLeaf = s.rootIsLeaf := by
  rw [State.rootIsLeaf, State.rootIsLeaf, h.root, h.nodeAt s.root.isLt]

/-- A traversal depends on the arena words alone. -/
theorem State.indicesAt_congr (h : ∀ i < 512, t.nodeAt i = s.nodeAt i) (fuel i : Nat) (hi : i < 512) :
    t.indicesAt fuel i = s.indicesAt fuel i := by
  induction fuel generalizing i with
  | zero => rfl
  | succ fuel ih => simp only [State.indicesAt, h i hi, ih _ (nodeZero_lt _), ih _ (nodeOne_lt _)]

theorem State.SameArena.trans (h : s.SameArena t) (h' : t.SameArena u) : s.SameArena u where
  treeValid := h'.treeValid.trans h.treeValid
  root := h'.root.trans h.root
  nodeCount := h'.nodeCount.trans h.nodeCount
  nodeBytes a h1 h2 := (h'.nodeBytes a h1 h2).trans (h.nodeBytes a h1 h2)

theorem State.SameArena.arenaOk (h : s.SameArena t) (hs : s.ArenaOk) : t.ArenaOk := by
  intro hv
  obtain ⟨htree, hindices, hforms⟩ := hs (h.treeValid ▸ hv)
  refine ⟨by rwa [h.treeAt], ?_, fun i hi => ?_⟩
  · rwa [h.root, h.nodeCount, State.indicesAt_congr (fun i hi => h.nodeAt hi) _ _ s.root.isLt]
  · rw [h.nodeCount] at hi
    rw [h.nodeAt (by omega)]
    exact hforms i hi

theorem State.SameTables.pathsOk (h : s.SameTables t) (hs : s.PathsOk) : t.PathsOk := by
  intro hv
  obtain ⟨hvalid, hroot, tr, htree, htable⟩ := hs (h.pathsValid ▸ hv)
  refine ⟨h.treeValid.trans hvalid, h.rootIsLeaf.trans hroot, tr, h.currentTree.trans htree, fun i hi => ?_⟩
  obtain ⟨hlen, hbits⟩ := htable i hi
  refine ⟨?_, fun j hj => ?_⟩
  · rwa [State.codeLenAt, h.pathBytes _ (by omega) (by omega)]
  · rw [← hbits j hj]
    exact State.bitAt_congr (h.pathBytes _ (by omega) (by omega))

/-! ### The operations that keep both -/

theorem State.SameTables.trans (h : s.SameTables t) (h' : t.SameTables u) : s.SameTables u where
  toSameArena := h.toSameArena.trans h'.toSameArena
  pathsValid := h'.pathsValid.trans h.pathsValid
  pathBytes a h1 h2 := (h'.pathBytes a h1 h2).trans (h.pathBytes a h1 h2)

end

/-- A state that differs from `s` in other registers, or in the model's own fields, has its tables. -/
theorem State.SameTables.of_registers {s t : State} (htree : t.treeValid = s.treeValid := by rfl)
    (hpaths : t.pathsValid = s.pathsValid := by rfl) (hroot : t.root = s.root := by rfl)
    (hcount : t.nodeCount = s.nodeCount := by rfl) (hbytes : ∀ a, t.byteAt a = s.byteAt a := by exact fun _ => rfl) :
    s.SameTables t :=
  ⟨⟨htree, hroot, hcount, fun a _ _ => hbytes a⟩, hpaths, fun a _ _ => hbytes a⟩

/-- A run outside NODE and outside CODE_LEN to CODE_BITS keeps both. -/
theorem State.SameTables.putRun (s : State) {a k : Nat} {bs : List Byte} (hk : 0 < k)
    (hfree : a + k * bs.length ≤ 0x2000 ∨ 0x2800 ≤ a ∧ a + k * bs.length ≤ 0x4000 ∨ 0xA000 ≤ a) :
    s.SameTables (s.putRun a k bs) where
  treeValid := rfl
  root := rfl
  nodeCount := rfl
  pathsValid := rfl
  nodeBytes _ _ _ := State.byteAt_putRun_outside hk (by omega)
  pathBytes _ _ _ := State.byteAt_putRun_outside hk (by omega)

/-- A buffer above the path table that becomes unspecified keeps both. -/
theorem State.SameTables.unspecified (s : State) {r : Region} (hr : 0xA000 ≤ r.base) :
    s.SameTables (s.unspecified [r]) := by
  have hbytes : ∀ a < 0xA000, (s.unspecified [r]).byteAt a = s.byteAt a := fun a ha =>
    State.byteAt_unspecified_outside fun r' hr' => by
      obtain rfl := List.mem_singleton.mp hr'
      rw [← Bool.not_eq_true, Region.owns_iff]
      omega
  exact ⟨⟨rfl, rfl, rfl, fun a _ _ => hbytes a (by omega)⟩, rfl, fun a _ h => hbytes a h⟩


/-- Completion writes no register of either. -/
theorem State.SameTables.complete (s : State) : s.SameTables s.complete := .of_registers

theorem State.SameTables.fail (s : State) (e : CmdError) : s.SameTables (s.fail e) :=
  .of_registers

/-! ### What a step does to the two -/

/-- What `t` has of the arena and the path table of `s`: both; a new arena, or none, and no table; or the same arena and a
table written anew. -/
inductive State.Tables (s t : State) : Prop
  | kept (tables : s.SameTables t)
  | rebuilt (arena : t.ArenaOk) (paths : t.pathsValid = false)
  | repathed (arena : s.SameArena t) (paths : t.PathsOk)

section
variable {s t u : State}

theorem State.Tables.arenaOk (h : s.Tables t) (hs : s.ArenaOk) : t.ArenaOk := by
  cases h with
  | kept tables => exact tables.arenaOk hs
  | rebuilt arena => exact arena
  | repathed arena => exact arena.arenaOk hs

theorem State.Tables.pathsOk (h : s.Tables t) (hs : s.PathsOk) : t.PathsOk := by
  cases h with
  | kept tables => exact tables.pathsOk hs
  | rebuilt _ paths => exact fun hv => by simp [paths] at hv
  | repathed _ paths => exact paths

/-- An operation that keeps both may follow. -/
theorem State.Tables.trans_kept (h : s.Tables t) (h' : t.SameTables u) : s.Tables u := by
  cases h with
  | kept tables => exact .kept (tables.trans h')
  | rebuilt arena paths => exact .rebuilt (h'.arenaOk arena) (h'.pathsValid.trans paths)
  | repathed arena paths => exact .repathed (arena.trans h'.toSameArena) (h'.pathsOk paths)

/-- An operation that keeps both may come before. -/
theorem State.SameTables.trans_tables (h : s.SameTables t) (h' : t.Tables u) : s.Tables u := by
  cases h' with
  | kept tables => exact .kept (h.trans tables)
  | rebuilt arena paths => exact .rebuilt arena paths
  | repathed arena paths => exact .repathed (h.toSameArena.trans arena) paths

/-- A state without a tree and without a path table, as a reset leaves it. -/
theorem State.Tables.cleared (htree : t.treeValid = false) (hpaths : t.pathsValid = false) : s.Tables t :=
  .rebuilt (fun hv => by simp [htree] at hv) hpaths

end

/-! ### The commands -/

theorem State.SameTables.countText (s : State) (text : List Symbol) : s.SameTables (s.countText (countTable text)) := by
  have hrun : s.SameTables (s.putWords 0x001000 (countTable text)) := by
    refine State.SameTables.putRun s Nat.one_pos (.inl ?_)
    rw [flatMap_wordBytes_length]
    simp [countTable, Config.nsym]
  refine hrun.trans ?_
  rw [State.countText]
  split <;> exact .of_registers

/-- TENC's output takes at most the 64 bytes of TREE_BITS and the 256 entries of TREE_LEAVES (R39, R40, R110). -/
theorem State.SameTables.flattenTree (s : State) {tr : CodeTree} (htr : tr.size ≤ Config.maxNodes) :
    s.SameTables (s.flattenTree tr) := by
  have hleaves := tr.size_eq
  rw [Config.maxNodes] at htr
  have hbits : s.SameTables (s.putRun 0x003000 1 (packWords tr.bits)) := by
    refine .putRun s Nat.one_pos (.inr (.inl ⟨by omega, ?_⟩))
    rw [packWords_length, CodeTree.bits_length, packedBytes]
    omega
  have hsyms : State.SameTables _ ((s.putRun 0x003000 1 (packWords tr.bits)).putRun 0x003400 4 tr.leaves) :=
    .putRun _ (by omega) (.inr (.inl ⟨by omega, by omega⟩))
  exact (hbits.trans hsyms).trans .of_registers

/-- TDEC leaves a new arena, or none, and no path table (R117, R118). -/
theorem State.Tables.rebuildTree (s : State) {bits : List Bool} (leaves : List Symbol) (hb : bits.length ≤ 511) :
    s.Tables (s.rebuildTree (parseTree bits leaves)) := by
  refine .rebuilt (s.rebuildTree_arenaOk leaves hb) ?_
  rw [State.rebuildTree.eq_def]
  split <;> rfl

/-- BUILD leaves a new arena, or none, and no path table (R101). -/
theorem State.Tables.buildTree (s : State) : s.Tables (s.buildTree s.presentSymbols) := by
  refine .rebuilt s.buildTree_arenaOk ?_
  rw [State.buildTree]
  split <;> rfl

/-- The path stage writes the table of the current tree: no bit path of it is longer than 255 (R38, R123). -/
theorem State.Tables.pathStage {s : State} {tr : CodeTree} (hvalid : s.treeValid = true) (hroot : s.rootIsLeaf = false)
    (htree : s.currentTree = some tr) : s.Tables (s.pathStage tr) := by
  have harena : s.SameArena (s.pathStage tr) :=
    ⟨rfl, rfl, rfl, fun a h1 h2 => State.byteAt_pathStage_outside (by omega) (by omega)⟩
  refine .repathed harena fun _ => ⟨hvalid, harena.rootIsLeaf.trans hroot, tr, harena.currentTree.trans htree,
    fun i hi => ⟨?_, fun j hj => s.codeBitAt_pathStage tr hi hj⟩⟩
  obtain ⟨-, hsize, -⟩ := State.currentTree_iff.mp htree
  have hheight := tr.height_le
  have hlen := tr.code_length_le (BitVec.ofNat 8 i)
  rw [Config.maxNodes] at hsize
  rw [s.codeLenAt_pathStage tr hi, BitVec.toNat_ofNat]
  omega

theorem State.SameTables.storeMessage (s : State) (r : Except CmdError (List Bool)) :
    s.SameTables (s.storeMessage r) := by
  cases r with
  | error e =>
    exact (State.SameTables.unspecified s (r := .msgBits) (by decide)).trans .of_registers
  | ok bits =>
    have hrun : s.SameTables (s.putRun 0x300000 1 (packWords bits)) := .putRun s (by omega) (.inr (.inr (by omega)))
    exact hrun.trans .of_registers

theorem State.SameTables.storeOutput (s : State) (r : Except CmdError (List Symbol)) :
    s.SameTables (s.storeOutput r) := by
  cases r with
  | error e =>
    exact (State.SameTables.unspecified s (r := .textOut) (by decide)).trans .of_registers
  | ok text =>
    have hrun : s.SameTables (s.putRun 0x200000 4 text) := .putRun s (by omega) (.inr (.inr (by omega)))
    exact hrun.trans .of_registers

theorem exec_tables {i : Instr} {s t : State} (hx : exec i s = .next t) : s.Tables t := by
  cases i with
  | count =>
    obtain ⟨-, rfl⟩ | ⟨-, rfl⟩ := execCount_next hx
    · exact .kept (.fail s _)
    · exact .kept (.countText s _)
  | build =>
    obtain rfl := execBuild_next hx
    exact .buildTree s
  | tenc =>
    obtain ⟨-, rfl⟩ | ⟨-, tr, htree, rfl⟩ := execTenc_next hx
    · exact .kept (.fail s _)
    · exact .kept (.flattenTree s (State.currentTree_iff.mp htree).2.1)
  | tdec =>
    obtain ⟨-, rfl⟩ | ⟨-, -, rfl⟩ | ⟨hbits, -, rfl⟩ := execTdec_next hx
    · exact .kept (.fail s _)
    · exact .kept (.fail s _)
    · exact .rebuildTree s _ (by simpa [State.treeBitSeq] using hbits)
  | paths =>
    obtain ⟨-, rfl⟩ | ⟨-, -, rfl⟩ | ⟨hvalid, hroot, tr, htree, rfl⟩ := execPaths_next hx
    · exact .kept (.fail s _)
    · exact .kept (.fail s _)
    · exact (State.Tables.pathStage hvalid hroot htree).trans_kept (.complete _)
  | senc =>
    obtain ⟨-, rfl⟩ | ⟨-, -, rfl⟩ | ⟨-, -, -, rfl⟩ | ⟨-, hvalid, hroot, tr, htree, rfl⟩ := execSenc_next hx
    · exact .kept (.fail s _)
    · exact .kept (.fail s _)
    · exact .kept (.fail s _)
    · exact (State.Tables.pathStage hvalid hroot htree).trans_kept (.storeMessage _ _)
  | sdec =>
    obtain ⟨-, rfl⟩ | ⟨-, -, rfl⟩ | ⟨-, -, -, rfl⟩ | ⟨-, -, -, rfl⟩ := execSdec_next hx
    · exact .kept (.fail s _)
    · exact .kept (.fail s _)
    · exact .kept (.fail s _)
    · exact .kept (.storeOutput s _)

/-! ### The host port -/

/-- No window the host may write is NODE, CODE_LEN or CODE_BITS (R62, R63). -/
theorem State.SameTables.writeWindow (s : State) (off : Nat) (v : Word) : s.SameTables (s.writeWindow off v) := by
  obtain e | ⟨r, hr, hw, hput⟩ := s.writeWindow_cases off v
  · rw [e]
    exact .of_registers
  · have hfree : off + 4 ≤ 0x2000 ∨ 0x2800 ≤ off ∧ off + 4 ≤ 0x4000 ∨ 0xA000 ≤ off := by
      have hown := (Region.owns_iff.mp (State.owns_of_regionOf hr)).1
      cases r <;> simp [Region.hostWritable, Region.base, Region.span] at hw hown <;> omega
    obtain ⟨-, e⟩ | ⟨-, e⟩ := hput <;> rw [e]
    · exact .putRun s (by omega) hfree
    · exact State.SameTables.putRun s Nat.one_pos hfree

theorem State.SameTables.writeReg (s : State) (off : Nat) (v : Word) : s.SameTables (s.writeReg off v) := by
  rw [State.writeReg.eq_def]
  split <;> exact .of_registers

/-- A write to CTRL stores IE or clears both valid bits (R25, R161). -/
theorem State.Tables.writeCtrl (s : State) (v : Word) : s.Tables (s.writeCtrl v) := by
  rw [State.writeCtrl]
  split
  · exact .cleared rfl rfl
  · exact .kept .of_registers

theorem State.Tables.memWrite (s : State) (off : Nat) (v : Word) : s.Tables (s.memWrite off v) := by
  rw [State.memWrite]
  split
  · exact .writeCtrl s v
  · refine .kept ?_
    split
    · exact .of_registers
    · split
      · exact .of_registers
      · split
        · exact .of_registers
        · split
          · exact .writeReg s off v
          · exact .writeWindow s off v

theorem State.SameTables.hostRead (s : State) (off : Nat) : s.SameTables (s.hostRead off) := by
  rw [State.hostRead]
  obtain e | e := s.memRead_state off <;> rw [e] <;> exact .of_registers

/-! ### The three agents -/

/-- Moving on in the host's program changes nothing in the block. -/
theorem State.SameTables.program (s : State) (p : List HostOp) : s.SameTables { s with program := p } :=
  .of_registers

theorem hostStep_tables {s t : State} (hx : hostStep s = .next t) : s.Tables t := by
  obtain ⟨-, rfl⟩ | ⟨off, v, rest, -, -, rfl⟩ | ⟨off, rest, -, -, rfl⟩ | ⟨off, p, -, rfl⟩ := hostStep_next hx
  · exact .kept .of_registers
  · exact (State.SameTables.program s rest).trans_tables (.memWrite _ _ v)
  · exact .kept ((State.SameTables.program s rest).trans (.hostRead _ _))
  · exact .kept .of_registers

theorem engineStep_tables {s t : State} (hx : engineStep s = .next t) : s.Tables t := by
  obtain ⟨-, rfl⟩ | ⟨w, i, -, -, hi⟩ | ⟨w, why, -, -, rfl⟩ := engineStep_next hx
  · exact .kept .of_registers
  · exact exec_tables hi
  · exact .kept (.fail s _)

/-- What a step of the machine does to the arena and the path table. -/
theorem step_tables {s t : State} (hx : step s = .next t) : s.Tables t := by
  have hpop : s.SameTables s.popTurn := .of_registers
  obtain ⟨-, hhost⟩ | ⟨-, hengine⟩ | ⟨-, rfl⟩ := step_next hx
  · exact hpop.trans_tables (hostStep_tables hhost)
  · exact hpop.trans_tables (engineStep_tables hengine)
  · exact .cleared rfl rfl

/-- Settles O58: a step keeps the arena, or leaves one that BUILD or TDEC made a tree, or clears TREE_VALID
(`step_tables`). -/
theorem stepKeepsTheCurrentTree : Obligations.StepKeepsTheCurrentTree :=
  fun _ _ hinv hx => (step_tables hx).arenaOk hinv.arena

/-- Settles O59: a step keeps the arena and the table, or clears PATHS_VALID, or writes the whole table from the tree it
keeps (`step_tables`). -/
theorem stepKeepsThePathTable : Obligations.StepKeepsThePathTable :=
  fun _ _ hinv hx => (step_tables hx).pathsOk hinv.paths

end Sys2Proof.Machine
end

section
/-! SUPPORT. The register page: what a read of each offset answers, bit by bit for CTRL and STATUS, and what a write does
(R22 to R32); and the obligations about the page and about the state at reset. -/

namespace Sys2Proof.Machine

/-! ### Reads -/

/-- A read of the register page answers the register and changes nothing (R60). -/
theorem State.memRead_register (s : State) {off : Nat} (h : off < 0x1000) : s.memRead off = (s.readReg off, s) := by
  simp [State.memRead, h]

/-- The reserved offsets of the page read 0 (R66). -/
theorem State.readReg_reserved (s : State) {off : Nat} (h : 0x044 ≤ off) : s.readReg off = 0 := by
  rw [State.readReg.eq_def]
  split
  case h_18 => rfl
  all_goals omega

@[simp] theorem flagAt_getLsbD (b : Bool) {k : Nat} (hk : k < 32) (i : Nat) : (flagAt b k).getLsbD i = (i == k && b) := by
  cases b
  · simp [flagAt]
  · rw [flagAt, if_pos rfl, BitVec.getLsbD_ofNat, Nat.testBit_two_pow]
    by_cases h : i = k
    · simp [h, hk]
    · simp [h, Ne.symm h]

/-- STATUS as a number: each flag at its own bit (R26). -/
theorem flags_toNat (b0 b1 b2 b3 b4 b5 : Bool) :
    (flagAt b0 0 ||| flagAt b1 1 ||| flagAt b2 2 ||| flagAt b3 3 ||| flagAt b4 4 ||| flagAt b5 5).toNat =
      b0.toNat + 2 * b1.toNat + 4 * b2.toNat + 8 * b3.toNat + 16 * b4.toNat + 32 * b5.toNat := by
  revert b0 b1 b2 b3 b4 b5
  decide

theorem State.statusWord_toNat (s : State) :
    s.statusWord.toNat = s.busy.toNat + 2 * s.done.toNat + 4 * (s.errCode != 0).toNat + 8 * s.treeValid.toNat +
      16 * s.pathsValid.toNat + 32 * s.wbusy.toNat := flags_toNat ..

theorem State.statusWord_getLsbD (s : State) (i : Nat) :
    s.statusWord.getLsbD i =
      ((i == 0 && s.busy) || (i == 1 && s.done) || (i == 2 && s.errCode != 0) || (i == 3 && s.treeValid) ||
        (i == 4 && s.pathsValid) || (i == 5 && s.wbusy)) := by
  simp [State.statusWord, State.err]

theorem State.ctrlWord_toNat (s : State) : s.ctrlWord.toNat = s.ie.toNat := by
  rw [State.ctrlWord]
  cases s.ie <;> rfl

/-! ### Writes -/

theorem State.busy_of_eng {s : State} {w : Word} (h : s.eng = .busy w) : s.busy = true := by rw [State.busy, h]

theorem State.not_busy_of_idle {s : State} (h : s.eng = .idle) : s.busy = false := by rw [State.busy, h]

/-- A write that is not to CTRL or STATUS is dropped while busy (R32). -/
theorem State.memWrite_busy {s : State} {off : Nat} (v : Word) (h : s.busy = true) (h8 : off ≠ 0x008)
    (hC : off ≠ 0x00C) : s.memWrite off v = { s with wbusy := true } := by
  simp [State.memWrite, h, h8, hC]

/-- An idle write to another register than CTRL, STATUS and CMD (R61). -/
theorem State.memWrite_register {s : State} {off : Nat} (v : Word) (h : s.busy = false) (hoff : off < 0x1000)
    (h8 : off ≠ 0x008) (hC : off ≠ 0x00C) (h10 : off ≠ 0x010) : s.memWrite off v = s.writeReg off v := by
  simp [State.memWrite, h, hoff, h8, hC, h10]

/-- Only the RW length registers store what an idle write carries (R22, R30). -/
theorem State.writeReg_eq (s : State) (off : Nat) (v : Word) :
    s.writeReg off v =
      if off = 0x01C then { s with textLen := v }
      else if off = 0x024 then { s with msgLen := v }
      else if off = 0x028 then { s with treeBitsLen := v }
      else if off = 0x02C then { s with treeLeavesLen := v }
      else s := by
  rw [State.writeReg.eq_def]
  split
  case h_5 h1C h24 h28 h2C => rw [if_neg h1C, if_neg h24, if_neg h28, if_neg h2C]
  all_goals rfl

/-! ### The obligations -/

/-- Settles O8: `State.memWrite_busy`. -/
theorem busyWritesAreDropped : Obligations.BusyWritesAreDropped :=
  fun _ _ v _ heng h8 hC => State.memWrite_busy v (State.busy_of_eng heng) h8 hC

/-- Settles O9: a read is `State.statusWord`, whose bits are its flags; a write is `State.writeStatus`. -/
theorem statusReadsAndClears : Obligations.StatusReadsAndClears := by
  intro s v
  refine ⟨fun i => ?_, rfl⟩
  rw [s.memRead_register (by decide)]
  exact s.statusWord_getLsbD i

/-- Settles O10: a read is `State.ctrlWord`; a write resets the block or stores IE by its bit 1. -/
theorem ctrlReadsAndWrites : Obligations.CtrlReadsAndWrites := by
  intro s v
  have hwrite : s.memWrite 0x008 v = s.writeCtrl v := rfl
  refine ⟨fun i => ?_, fun h => ?_, fun h => ?_⟩
  · rw [s.memRead_register (by decide)]
    exact flagAt_getLsbD s.ie (by decide) i
  · rw [hwrite, State.writeCtrl, if_neg (ne_true_of_eq_false h)]
  · rw [hwrite, State.writeCtrl, if_pos h]

/-- Settles O13: at reset every register of the page that is no constant holds 0, and nothing is listed in memory, so each
byte is its region's draw, number 0. -/
theorem resetStateReadsAsSpecified : Obligations.ResetStateReadsAsSpecified := by
  refine ⟨rfl, rfl, rfl, rfl, fun off h1 h2 => ?_, rfl, rfl, fun a r hr => ?_⟩
  · rw [State.reset.memRead_register (by omega)]
    interval_cases off <;> rfl
  · have hdraw : State.reset.epochs.get r = 0 := by cases r <;> rfl
    rw [State.byteAt, show State.reset.mem = [] from rfl, Memory.lookup_nil]
    simp only [hr, hdraw]

/-- Settles O15: a read of the page is `State.readReg`, which answers the register that stands at the offset. -/
theorem registerPageReads : Obligations.RegisterPageReads := by
  intro s
  have hread : ∀ off < 0x1000, s.memRead off = (s.readReg off, s) := fun off h => s.memRead_register h
  refine ⟨rfl, rfl, s.ctrlWord_toNat, s.statusWord_toNat, rfl, ?_, rfl, rfl, rfl, rfl, rfl, rfl, ?_, ?_, ?_, rfl, rfl,
    fun off h1 h2 => ?_, fun off h => ?_⟩
  · exact BitVec.toNat_setWidth_of_le (by decide)
  · exact BitVec.toNat_setWidth_of_le (by decide)
  · exact BitVec.toNat_setWidth_of_le (by decide)
  · exact BitVec.toNat_setWidth_of_le (by decide)
  · rw [hread off h2, s.readReg_reserved h1]
  · rw [hread off h]

/-- Settles O16: an idle write in the page is `State.writeReg`, which stores the RW lengths alone. -/
theorem registerPageWrites : Obligations.RegisterPageWrites := by
  intro s v off hidle hoff _ h8 hC h10
  rw [State.memWrite_register v (State.not_busy_of_idle hidle) hoff h8 hC h10, s.writeReg_eq]

/-- Settles O55: at reset nothing is accepted, no tree and no path table is valid, and the memory list is empty. -/
theorem resetMeetsTheInvariants : Obligations.ResetMeetsTheInvariants where
  caps := by rw [State.CapsOk]; decide
  mem := State.memWf_reset
  eng := State.engOk_of_idle rfl
  err := ⟨by decide, fun _ => rfl⟩
  treeRegs := ⟨fun _ => ⟨rfl, rfl⟩, by decide⟩
  out := by rw [State.OutOk]; decide
  draws r := by cases r <;> decide
  arena hv := Bool.noConfusion hv
  paths hv := Bool.noConfusion hv

end Sys2Proof.Machine
end

section
/-! SUPPORT. The canonical form of the memory list (log entry 5) under every operation a step is made of. A run keeps it
where the run lies in one window, so each command owes the length of what it writes; a change of registers alone leaves
`State.MemOk` the same proposition, and its proof is the hypothesis itself. -/

namespace Sys2Proof.Machine

/-! ### Runs inside one window -/

/-- A run inside a window is storage: whole words and bytes in a full-width window, in a byte-wide one the low byte of
each word (R62, R65). -/
theorem State.MemOk.putRun {s : State} (h : s.MemOk) (r : Region) {a k : Nat} {bs : List Byte} (hk : 0 < k)
    (hlo : r.base ≤ a) (hhi : a + k * bs.length ≤ r.base + r.span s.capText.toNat s.capMsg.toNat)
    (hword : r.byteWide = true → a % 4 = 0 ∧ k = 4) : (s.putRun a k bs).MemOk :=
  State.memWf_putRun h hk fun i hi => State.regionOf_isSome r <| by
    have hlt := Nat.mul_lt_mul_of_pos_left hi hk
    refine Region.owns_iff.mpr ⟨by omega, fun hb => ?_⟩
    obtain ⟨ha, rfl⟩ := hword hb
    omega

/-- A run of words inside a full-width window is storage. -/
theorem State.MemOk.putWords {s : State} (h : s.MemOk) (r : Region) {a : Nat} {ws : List Word} (hlo : r.base ≤ a)
    (hhi : a + 4 * ws.length ≤ r.base + r.span s.capText.toNat s.capMsg.toNat) (hfull : r.byteWide = false) :
    (s.putWords a ws).MemOk :=
  h.putRun r Nat.one_pos hlo (by rwa [flatMap_wordBytes_length, Nat.one_mul]) fun hb => by simp [hfull] at hb

theorem State.MemOk.unspecified {s : State} (h : s.MemOk) (rs : List Region) : (s.unspecified rs).MemOk :=
  State.memWf_unspecified rs h

/-! ### How much each command writes -/

/-- At most one word a merge (R100). -/
theorem mergeNodes_length_le (n : Nat) (q : List QEntry) (m : Nat) : (mergeNodes n q m).length ≤ n := by
  induction n generalizing q m with
  | zero => simp [mergeNodes]
  | succ n ih =>
    match q with
    | [] => simp [mergeNodes]
    | [_] => simp [mergeNodes]
    | (w1, a) :: (w2, b) :: q => simpa [mergeNodes] using ih (queueInsert (w1 + w2, m) q) (m + 1)

/-- The tree of `k` symbols takes at most 2k − 1 entries of the arena (R101). -/
theorem builtNodes_length_le (freq : Nat → Word) (l : List Nat) :
    (builtNodes freq l).length ≤ l.length + (l.length - 1) := by
  rw [builtNodes, List.length_append, List.length_map]
  exact Nat.add_le_add_left (mergeNodes_length_le ..) _

/-- SENC's loop raises MSG_OVERFLOW before a code past MAX_MSG_BITS, so the bits it has placed and those it still places
fit (R125). -/
theorem encodeText_length_le {t : CodeTree} {cap : Nat} {text : List Symbol} {i pos : Nat} {bits : List Bool}
    (h : encodeText t cap text i pos = .ok bits) (hpos : pos ≤ cap) : pos + bits.length ≤ cap := by
  induction text generalizing i pos bits with
  | nil =>
    cases h
    exact hpos
  | cons x text ih =>
    rw [encodeText] at h
    split at h
    · cases h
    · split at h
      · cases h
      · split at h
        · cases h
        · rename_i hroom _ rest hrest
          cases h
          have := ih hrest (by omega)
          rw [List.length_append]
          omega

/-! ### The commands -/

/-- COUNT writes the whole of FREQ and nothing else in memory (R95). -/
theorem State.MemOk.countText {s : State} (h : s.MemOk) (text : List Symbol) :
    (s.countText (countTable text)).MemOk := by
  have hput : (s.putWords 0x001000 (countTable text)).MemOk :=
    h.putWords .freq le_rfl (by simp [countTable, Config.nsym, Region.base, Region.span]) rfl
  rw [State.countText]
  split <;> exact hput

/-- BUILD writes at most 511 entries of NODE (R101). -/
theorem State.MemOk.buildTree {s : State} (h : s.MemOk) {l : List Nat} (hl : l.length ≤ 256) :
    (s.buildTree l).MemOk := by
  have hlen := builtNodes_length_le s.freqAt l
  have hput : (s.putWords 0x002000 (builtNodes s.freqAt l)).MemOk :=
    h.putWords .node le_rfl (by simp only [Region.base, Region.span]; omega) rfl
  rw [State.buildTree]
  split
  · exact h
  · exact hput

/-- TDEC writes one entry of NODE for each bit of the flattened tree (R115, R117), or leaves NODE unspecified (R118). -/
theorem State.MemOk.rebuildTree {s : State} (h : s.MemOk) {bits : List Bool} (leaves : List Symbol)
    (hb : bits.length ≤ 511) : (s.rebuildTree (parseTree bits leaves)).MemOk := by
  cases hr : parseTree bits leaves with
  | error e => exact h.unspecified [.node]
  | ok r =>
    obtain ⟨t, rfl, -, -, hnodes, -⟩ := parseTree_ok hr
    have hlen : r.nodes.length ≤ 511 := by rwa [hnodes, CodeTree.words_length, ← CodeTree.bits_length]
    have hput : (s.putWords 0x002000 r.nodes).MemOk :=
      h.putWords .node le_rfl (by simp only [Region.base, Region.span]; omega) rfl
    exact hput

/-- TENC's output takes at most the 64 bytes of TREE_BITS and the 256 entries of TREE_LEAVES (R39, R40, R110). -/
theorem State.MemOk.flattenTree {s : State} (h : s.MemOk) {tr : CodeTree} (htr : tr.size ≤ 511) :
    (s.flattenTree tr).MemOk := by
  have hleaves := tr.size_eq
  have hbits : (s.putRun 0x003000 1 (packWords tr.bits)).MemOk := by
    refine h.putRun .treeBits Nat.one_pos le_rfl ?_ (fun hb => Bool.noConfusion hb)
    rw [packWords_length, CodeTree.bits_length, packedBytes]
    simp only [Region.base, Region.span]
    omega
  exact hbits.putRun .treeLeaves (a := 0x003400) (k := 4) (bs := tr.leaves) (by omega) le_rfl
    (by simp only [Region.base, Region.span]; omega) fun _ => ⟨rfl, rfl⟩

/-- SENC writes at most MAX_MSG_BITS bits, or leaves MSG_BITS unspecified (R125, R126). That this is within the window
takes R8: MAX_MSG_BITS is a multiple of 32, so the last word of the message is in the window too. -/
theorem State.MemOk.storeMessage {s : State} (h : s.MemOk) (hc : s.CapsOk) {r : Except CmdError (List Bool)}
    (hr : ∀ bits, r = .ok bits → bits.length ≤ s.capMsg.toNat) : (s.storeMessage r).MemOk := by
  cases r with
  | error e => exact h.unspecified [.msgBits]
  | ok bits =>
    obtain ⟨-, -, -, hmult⟩ := hc
    have hlen := hr bits rfl
    have hput : (s.putRun 0x300000 1 (packWords bits)).MemOk := by
      refine h.putRun .msgBits Nat.one_pos le_rfl ?_ (fun hb => Bool.noConfusion hb)
      rw [packWords_length, packedBytes]
      simp only [Region.base, Region.span]
      omega
    exact hput

/-- SDEC writes at most MAX_TEXT symbols, or leaves TEXT_OUT unspecified (R132, R133). -/
theorem State.MemOk.storeOutput {s : State} (h : s.MemOk) {r : Except CmdError (List Symbol)}
    (hr : ∀ text, r = .ok text → text.length ≤ s.capText.toNat) : (s.storeOutput r).MemOk := by
  cases r with
  | error e => exact h.unspecified [.textOut]
  | ok text =>
    have hlen := hr text rfl
    exact h.putRun .textOut (a := 0x200000) (k := 4) (bs := text) (by omega) le_rfl
      (by simp only [Region.base, Region.span]; omega) fun _ => ⟨rfl, rfl⟩

/-- Every command ends with canonical memory. -/
theorem exec_memOk {i : Instr} {s t : State} (hc : s.CapsOk) (h : s.MemOk) (hx : exec i s = .next t) : t.MemOk := by
  cases i with
  | count =>
    obtain ⟨-, rfl⟩ | ⟨-, rfl⟩ := execCount_next hx
    · exact h
    · exact h.countText _
  | build =>
    obtain rfl := execBuild_next hx
    exact h.buildTree s.presentSymbols_length_le
  | tenc =>
    obtain ⟨-, rfl⟩ | ⟨-, tr, htree, rfl⟩ := execTenc_next hx
    · exact h
    · exact h.flattenTree (State.currentTree_iff.mp htree).2.1
  | tdec =>
    obtain ⟨-, rfl⟩ | ⟨-, -, rfl⟩ | ⟨hbits, -, rfl⟩ := execTdec_next hx
    · exact h
    · exact h
    · exact h.rebuildTree _ (by simpa [State.treeBitSeq] using hbits)
  | paths =>
    obtain ⟨-, rfl⟩ | ⟨-, -, rfl⟩ | ⟨-, -, tr, -, rfl⟩ := execPaths_next hx
    · exact h
    · exact h
    · exact State.memWf_pathStage tr h
  | senc =>
    obtain ⟨-, rfl⟩ | ⟨-, -, rfl⟩ | ⟨-, -, -, rfl⟩ | ⟨-, -, -, tr, -, rfl⟩ := execSenc_next hx
    · exact h
    · exact h
    · exact h
    · have hpath : (s.pathStage tr).MemOk := State.memWf_pathStage tr h
      refine hpath.storeMessage hc fun bits hb => ?_
      simpa using encodeText_length_le hb (Nat.zero_le _)
  | sdec =>
    obtain ⟨-, rfl⟩ | ⟨-, -, rfl⟩ | ⟨-, -, -, rfl⟩ | ⟨-, -, -, rfl⟩ := execSdec_next hx
    · exact h
    · exact h
    · exact h
    · refine h.storeOutput fun text ht => ?_
      simpa using State.decodeBits_length_le ht (Nat.zero_le _)

/-! ### The host port -/

/-- Every window begins and ends at a whole word, so the whole of an aligned word lies in its byte's window (R62). -/
theorem Region.word_in_window {ct cm : Nat} {r : Region} {a : Nat} (ha : a % 4 = 0) (h : r.owns ct cm a = true) :
    r.base ≤ a ∧ a + 4 ≤ r.base + r.span ct cm := by
  obtain ⟨hwin, -⟩ := Region.owns_iff.mp h
  cases r <;> simp only [Region.base, Region.span] at hwin ⊢ <;> omega

/-- An aligned write to a window writes one word of it, or that word's low byte (R63, R65). -/
theorem State.MemOk.writeWindow {s : State} (h : s.MemOk) {off : Nat} (hoff : off % 4 = 0) (v : Word) :
    (s.writeWindow off v).MemOk := by
  obtain e | ⟨r, hr, -, ⟨-, e⟩ | ⟨hfull, e⟩⟩ := s.writeWindow_cases off v <;> rw [e]
  · exact h
  · obtain ⟨hlo, hhi⟩ := Region.word_in_window hoff (State.owns_of_regionOf hr)
    exact h.putRun r (by omega) hlo hhi fun _ => ⟨hoff, rfl⟩
  · obtain ⟨hlo, hhi⟩ := Region.word_in_window hoff (State.owns_of_regionOf hr)
    exact h.putWords r hlo hhi hfull

theorem State.MemOk.writeCtrl {s : State} (h : s.MemOk) (v : Word) : (s.writeCtrl v).MemOk := by
  rw [State.writeCtrl]
  split
  · exact h.unspecified s.runningRegions
  · exact h

theorem State.MemOk.writeReg {s : State} (h : s.MemOk) (off : Nat) (v : Word) : (s.writeReg off v).MemOk := by
  rw [State.writeReg.eq_def]
  split <;> exact h

theorem State.MemOk.memWrite {s : State} (h : s.MemOk) {off : Nat} (hoff : off % 4 = 0) (v : Word) :
    (s.memWrite off v).MemOk := by
  rw [State.memWrite]
  split
  · exact h.writeCtrl v
  · split
    · exact h
    · split
      · exact h
      · split
        · exact h
        · split
          · exact h.writeReg off v
          · exact h.writeWindow hoff v

theorem State.MemOk.hostRead {s : State} (h : s.MemOk) (off : Nat) : (s.hostRead off).MemOk := by
  rw [State.hostRead]
  obtain e | e := s.memRead_state off <;> rw [e] <;> exact h

/-! ### The three agents -/

theorem hostStep_memOk {s t : State} (h : s.MemOk) (hx : hostStep s = .next t) : t.MemOk := by
  obtain ⟨-, rfl⟩ | ⟨off, v, rest, -, haligned, rfl⟩ | ⟨off, rest, -, -, rfl⟩ | ⟨off, p, -, rfl⟩ := hostStep_next hx
  · exact h
  · exact State.MemOk.memWrite (s := { s with program := rest }) h (beq_iff_eq.mp haligned) v
  · exact State.MemOk.hostRead (s := { s with program := rest }) h _
  · exact h

theorem engineStep_memOk {s t : State} (hc : s.CapsOk) (h : s.MemOk) (hx : engineStep s = .next t) : t.MemOk := by
  obtain ⟨-, rfl⟩ | ⟨w, i, -, -, hi⟩ | ⟨w, why, -, -, rfl⟩ := engineStep_next hx
  · exact h
  · exact exec_memOk hc h hi
  · exact h

/-- The canonical form needs R8's bounds beside itself to be kept, and no other part of `State.Inv`. -/
theorem step_memOk {s t : State} (hc : s.CapsOk) (h : s.MemOk) (hx : step s = .next t) : t.MemOk := by
  have hpop : s.popTurn.MemOk := h
  obtain ⟨-, hhost⟩ | ⟨-, hengine⟩ | ⟨-, rfl⟩ := step_next hx
  · exact hostStep_memOk hpop hhost
  · exact engineStep_memOk (s := s.popTurn) hc hpop hengine
  · exact hpop.unspecified Region.all

/-- Settles O57: whatever a step writes lies in one window, and what a reset or a data error drops leaves the rest in order
(`step_memOk`). -/
theorem stepKeepsMemoryCanonical : Obligations.StepKeepsMemoryCanonical :=
  fun _ _ hinv hx => step_memOk hinv.caps hinv.mem hx

end Sys2Proof.Machine
end

section
/-! SUPPORT. The host's access to a window: what a read answers and what an idle write does, by the region of the offset;
what a word of a symbol window reads; and the obligations about the address map, the windows and the host's accesses
(R60 to R70, R86). -/

namespace Sys2Proof.Machine

/-! ### The address map -/

/-- An offset outside every window belongs to no region (R66). -/
theorem State.regionOf_eq_none {s : State} {a : Nat}
    (h : ∀ r : Region, a < r.base ∨ r.base + r.span s.capText.toNat s.capMsg.toNat ≤ a) : s.regionOf a = none := by
  rw [State.regionOf, List.find?_eq_none]
  intro r _ hr
  have hwin := (Region.owns_iff.mp hr).1
  have := h r
  omega

/-- Every window lies above the register page (R62). -/
theorem State.page_lt_of_regionOf {s : State} {off : Nat} {r : Region} (h : s.regionOf off = some r) :
    0x1000 ≤ off := by
  have hwin := (Region.owns_iff.mp (State.owns_of_regionOf h)).1
  cases r <;> simp only [Region.base] at hwin <;> omega

/-- An aligned offset belongs to a region exactly when it lies in that region's window (R62). -/
theorem State.regionOf_aligned_iff {s : State} (hc : s.CapsOk) {off : Nat} (hoff : off % 4 = 0) {r : Region} :
    s.regionOf off = some r ↔ r.base ≤ off ∧ off < r.base + r.span s.capText.toNat s.capMsg.toNat := by
  rw [State.regionOf_iff hc, Region.owns_iff]
  exact and_iff_left fun _ => hoff

/-- Above its low byte, a word of a symbol window is no storage: only bits 7:0 are held (R65). -/
theorem State.regionOf_above_symbol {s : State} (hc : s.CapsOk) {a j : Nat} {r : Region} (ha : a % 4 = 0)
    (hr : s.regionOf a = some r) (hb : r.byteWide = true) (hj : 0 < j) (hj4 : j < 4) : s.regionOf (a + j) = none := by
  by_contra hne
  obtain ⟨r', hr'⟩ := Option.ne_none_iff_exists'.mp hne
  obtain ⟨hwin, hlow⟩ := Region.owns_iff.mp (State.owns_of_regionOf hr')
  have hsame : s.regionOf a = some r' := (State.regionOf_aligned_iff hc ha).mpr <| by
    cases r' <;> simp only [Region.base, Region.span] at hwin ⊢ <;> omega
  obtain rfl : r = r' := Option.some.inj (hr.symm.trans hsame)
  have := hlow hb
  omega

/-- The windows the host may not write are NODE, CODE_LEN and CODE_BITS (R62). -/
theorem Region.hostWritable_iff {r : Region} : r.hostWritable = true ↔ r ≠ .node ∧ r ≠ .codeLen ∧ r ≠ .codeBits := by
  cases r <;> simp [Region.hostWritable]

/-- The windows the host writes by the symbol (R65). -/
theorem Region.byteWide_iff {r : Region} (hw : r.hostWritable = true) :
    r.byteWide = true ↔ r = .treeLeaves ∨ r = .textIn ∨ r = .textOut := by
  cases r <;> simp [Region.hostWritable, Region.byteWide] at hw ⊢

/-! ### Reads -/

/-- A read of an unmapped offset answers 0 and changes nothing (R66). -/
theorem State.memRead_unmapped {s : State} {off : Nat} (hoff : 0x1000 ≤ off) (hr : s.regionOf off = none) :
    s.memRead off = (0, s) := by
  simp [State.memRead, hr, Nat.not_lt.mpr hoff]

/-- A read of a region the running command may write takes a new draw (R68). -/
theorem State.memRead_running {s : State} {off : Nat} {r : Region} (hr : s.regionOf off = some r)
    (hrun : r ∈ s.runningRegions) :
    s.memRead off = (Config.freeWord s.draws, { s with draws := s.draws + 1 }) := by
  simp [State.memRead, hr, hrun, Nat.not_lt.mpr (State.page_lt_of_regionOf hr)]

/-- A read of any other region answers the stored word and changes nothing (R63, R68). -/
theorem State.memRead_stored {s : State} {off : Nat} {r : Region} (hr : s.regionOf off = some r)
    (hrun : r ∉ s.runningRegions) : s.memRead off = (s.wordAt off, s) := by
  simp [State.memRead, hr, hrun, Nat.not_lt.mpr (State.page_lt_of_regionOf hr)]

theorem State.runningRegions_of_idle {s : State} (h : s.eng = .idle) : s.runningRegions = [] := by
  rw [State.runningRegions, h]

/-- The regions of an accepted command (R68, R161). -/
theorem State.runningRegions_of_command {s : State} {i : Instr} (h : s.eng = .busy (encode i)) :
    s.runningRegions = writtenRegions i := by
  have hdecode : decode (encode i) = .command i := by cases i <;> decide
  simp only [State.runningRegions, h, hdecode]

/-- While idle a window reads what is stored there (R63). -/
theorem State.memRead_idle {s : State} {off : Nat} {r : Region} (h : s.eng = .idle) (hr : s.regionOf off = some r) :
    s.memRead off = (s.wordAt off, s) :=
  State.memRead_stored hr (by simp [State.runningRegions_of_idle h])

/-! ### Writes -/

theorem State.busy_of_not_idle {s : State} (h : s.eng ≠ .idle) : s.busy = true := by
  cases he : s.eng with
  | idle => exact absurd he h
  | busy w => exact State.busy_of_eng he

/-- An idle write above the register page is a window's (R61). -/
theorem State.memWrite_window {s : State} {off : Nat} (v : Word) (h : s.eng = .idle) (hoff : 0x1000 ≤ off) :
    s.memWrite off v = s.writeWindow off v := by
  simp [State.memWrite, State.not_busy_of_idle h, Nat.not_lt.mpr hoff, show off ≠ 0x008 by omega,
    show off ≠ 0x00C by omega, show off ≠ 0x010 by omega]

/-- The reserved offsets of the page ignore what is written to them (R66). -/
theorem State.writeReg_reserved (s : State) {off : Nat} (v : Word) (h : 0x044 ≤ off) : s.writeReg off v = s := by
  rw [s.writeReg_eq, if_neg (by omega), if_neg (by omega), if_neg (by omega), if_neg (by omega)]

/-- An unmapped offset ignores what is written to it (R66). -/
theorem State.writeWindow_unmapped {s : State} {off : Nat} (v : Word) (hr : s.regionOf off = none) :
    s.writeWindow off v = s := by
  rw [State.writeWindow, hr]

/-- An RO window ignores what is written to it (R63). -/
theorem State.writeWindow_readOnly {s : State} {off : Nat} {r : Region} (v : Word) (hr : s.regionOf off = some r)
    (hw : r.hostWritable = false) : s.writeWindow off v = s := by
  simp [State.writeWindow, hr, hw]

/-- A symbol window stores bits 7:0 (R65). -/
theorem State.writeWindow_symbol {s : State} {off : Nat} {r : Region} (v : Word) (hr : s.regionOf off = some r)
    (hw : r.hostWritable = true) (hb : r.byteWide = true) :
    s.writeWindow off v = s.putRun off 4 [v.extractLsb' 0 8] := by
  simp [State.writeWindow, hr, hw, hb]

/-- Any other RW window stores the word (R63). -/
theorem State.writeWindow_word {s : State} {off : Nat} {r : Region} (v : Word) (hr : s.regionOf off = some r)
    (hw : r.hostWritable = true) (hb : r.byteWide = false) : s.writeWindow off v = s.putWords off [v] := by
  simp [State.writeWindow, hr, hw, hb]

/-- A window write changes the memory list alone (R63). -/
theorem State.writeWindow_eq_mem (s : State) (off : Nat) (v : Word) :
    s.writeWindow off v = { s with mem := (s.writeWindow off v).mem } := by
  obtain e | ⟨r, -, -, ⟨-, e⟩ | ⟨-, e⟩⟩ := s.writeWindow_cases off v <;> rw [e] <;> rfl

/-- A window write changes no byte but the four of its word (R63, R65). -/
theorem State.writeWindow_sameBytesOutside (s : State) (off : Nat) (v : Word) :
    SameBytesOutside off (off + 4) s (s.writeWindow off v) := by
  intro a ha
  obtain e | ⟨r, -, -, ⟨-, e⟩ | ⟨-, e⟩⟩ := s.writeWindow_cases off v <;> rw [e]
  · exact State.byteAt_putRun_outside (by omega) ha
  · exact State.byteAt_putWords_outside ha

/-! ### Words of a symbol window -/

/-- A word whose upper bytes are 0 is its low byte, zero-extended (R65). -/
theorem State.wordAt_of_upper_zero {s : State} {a : Nat} (h : ∀ j, 0 < j → j < 4 → s.byteAt (a + j) = 0) :
    s.wordAt a = (s.byteAt a).setWidth 32 := by
  have hlt := (s.byteAt a).isLt
  apply BitVec.eq_of_toNat_eq
  rw [State.wordAt, h 1 (by omega) (by omega), h 2 (by omega) (by omega), h 3 (by omega) (by omega)]
  simp only [BitVec.toNat_append, BitVec.toNat_setWidth, BitVec.ofNat_eq_ofNat, BitVec.toNat_ofNat, Nat.zero_mod,
    Nat.zero_shiftLeft, Nat.zero_or]
  omega

/-- In canonical memory a word of a symbol window is its symbol, zero-extended (R65). -/
theorem State.wordAt_symbol {s : State} (hc : s.CapsOk) (hm : s.MemOk) {a : Nat} {r : Region} (ha : a % 4 = 0)
    (hr : s.regionOf a = some r) (hb : r.byteWide = true) : s.wordAt a = (s.byteAt a).setWidth 32 :=
  State.wordAt_of_upper_zero fun _ hj hj4 =>
    State.byteAt_of_regionOf_none hm (State.regionOf_above_symbol hc ha hr hb hj hj4)

/-- A symbol the host writes reads back zero-extended (R65). -/
theorem State.wordAt_putRun_symbol {s : State} (hc : s.CapsOk) {a : Nat} {r : Region} (ha : a % 4 = 0)
    (hr : s.regionOf a = some r) (hb : r.byteWide = true) (b : Byte) :
    (s.putRun a 4 [b]).wordAt a = b.setWidth 32 := by
  have hlow : (s.putRun a 4 [b]).byteAt a = b := State.byteAt_putRun (i := 0) (by omega) (by simp)
  rw [State.wordAt_of_upper_zero, hlow]
  intro j hj hj4
  rw [State.byteAt_putRun_between (by omega) (by simpa using hj4) (by simp; omega),
    State.regionOf_above_symbol hc ha hr hb hj hj4]

/-- What an idle write of an RW window leaves there: the word, or its bits 7:0 in a symbol window (R63, R65). -/
theorem State.wordAt_writeWindow {s : State} (hc : s.CapsOk) {off : Nat} {r : Region} (v : Word) (hoff : off % 4 = 0)
    (hr : s.regionOf off = some r) (hw : r.hostWritable = true) :
    (s.writeWindow off v).wordAt off = if r.byteWide then (v.extractLsb' 0 8).setWidth 32 else v := by
  cases hb : r.byteWide
  · rw [State.writeWindow_word v hr hw hb]
    exact State.wordAt_putWords (i := 0) (by simp)
  · rw [State.writeWindow_symbol v hr hw hb]
    exact State.wordAt_putRun_symbol hc hoff hr hb _

/-- An idle read after an idle write of an RW window (R63, R65, R71). -/
theorem State.memRead_memWrite {s : State} (hc : s.CapsOk) (hidle : s.eng = .idle) {off : Nat} {r : Region} (v : Word)
    (hoff : off % 4 = 0) (hr : s.regionOf off = some r) (hw : r.hostWritable = true) :
    ((s.memWrite off v).memRead off).1 = if r.byteWide then (v.extractLsb' 0 8).setWidth 32 else v := by
  rw [State.memWrite_window v hidle (State.page_lt_of_regionOf hr)]
  have hidle' : (s.writeWindow off v).eng = .idle := by rwa [s.writeWindow_eq_mem]
  have hr' : (s.writeWindow off v).regionOf off = some r := by rwa [s.writeWindow_eq_mem]
  rw [State.memRead_idle hidle' hr', State.wordAt_writeWindow hc v hoff hr hw]

/-! ### The elements a window reads -/

/-- The word `k` of a window belongs to it (R62). -/
theorem State.regionOf_word {s : State} (hc : s.CapsOk) (r : Region) {k : Nat}
    (hk : 4 * k < r.span s.capText.toNat s.capMsg.toNat) : s.regionOf (r.base + 4 * k) = some r := by
  have hbase : r.base % 4 = 0 := by cases r <;> rfl
  exact (State.regionOf_aligned_iff hc (by omega)).mpr (by omega)

/-- An idle read of word `k` of a window (R63). -/
theorem State.memRead_word {s : State} (hc : s.CapsOk) (hidle : s.eng = .idle) (r : Region) {k : Nat}
    (hk : 4 * k < r.span s.capText.toNat s.capMsg.toNat) :
    (s.memRead (r.base + 4 * k)).1 = s.wordAt (r.base + 4 * k) := by
  rw [State.memRead_idle hidle (State.regionOf_word hc r hk)]

/-- An idle read of word `k` of a window that holds bits 7:0 only (R38, R65). -/
theorem State.memRead_symbol {s : State} (hc : s.CapsOk) (hm : s.MemOk) (hidle : s.eng = .idle) (r : Region) {k : Nat}
    (hb : r.byteWide = true) (hk : 4 * k < r.span s.capText.toNat s.capMsg.toNat) :
    (s.memRead (r.base + 4 * k)).1 = (s.byteAt (r.base + 4 * k)).setWidth 32 := by
  have hbase : r.base % 4 = 0 := by cases r <;> rfl
  rw [State.memRead_word hc hidle r hk, State.wordAt_symbol hc hm (by omega) (State.regionOf_word hc r hk) hb]

/-- An idle read of word `w` of a bit buffer holds bits 32·w to 32·w + 31 of the sequence (R64). -/
theorem State.memRead_bits {s : State} (hc : s.CapsOk) (hidle : s.eng = .idle) (r : Region) {w b : Nat}
    (hw : 4 * w < r.span s.capText.toNat s.capMsg.toNat) (hb : b < 32) :
    (s.memRead (r.base + 4 * w)).1.getLsbD b = s.bitAt r.base (32 * w + b) := by
  rw [State.memRead_word hc hidle r hw, s.wordAt_bitAt r.base w hb]

/-- An idle read of word `w` of an entry of CODE_BITS (R38, R64). -/
theorem State.memRead_codeBits {s : State} (hc : s.CapsOk) (hidle : s.eng = .idle) {i w b : Nat} (hi : i < 256)
    (hw : w < 8) (hb : b < 32) :
    (s.memRead (0x008000 + 32 * i + 4 * w)).1.getLsbD b = s.codeBitAt i (32 * w + b) := by
  have hword := s.memRead_word hc hidle .codeBits (k := 8 * i + w) (by simp only [Region.span]; omega)
  have hoff : Region.codeBits.base + 4 * (8 * i + w) = 0x008000 + 32 * i + 4 * w := by
    simp only [Region.base]; omega
  rw [hoff] at hword
  rw [hword, s.wordAt_bitAt _ w hb, State.codeBitAt]

/-! ### The host's accesses -/

/-- A step of the host (R17). -/
theorem step_of_host {s : State} (h : s.nextTurn = .host) : step s = hostStep s.popTurn := by rw [step, h]

/-- The host's WR is one MemWrite (R61, R86). -/
theorem hostStep_wr {s : State} {off : Offset} {v : Word} {rest : List HostOp} (hp : s.program = .wr off v :: rest) :
    hostStep s =
      if Offset.aligned off then .next ({ s with program := rest }.memWrite off.toNat v)
      else .refused .misalignedAccess := by
  rw [hostStep, hp]

/-- The host's RD is one MemRead, whose value it keeps (R60, R86). -/
theorem hostStep_rd {s : State} {off : Offset} {rest : List HostOp} (hp : s.program = .rd off :: rest) :
    hostStep s =
      if Offset.aligned off then .next ({ s with program := rest }.hostRead off.toNat)
      else .refused .misalignedAccess := by
  rw [hostStep, hp]

/-! ### The obligations -/

/-- Settles O17: no offset of a gap, or past a buffer's capacity, is in a window (`State.regionOf_eq_none`); an access to
an offset of no window, or of a reserved register, meets nothing. -/
theorem unmappedOffsetsReadZero : Obligations.UnmappedOffsetsReadZero := by
  rintro s ⟨⟨-, htext⟩, -, hmsg, -⟩
  refine ⟨fun off v hoff => ⟨?_, fun hidle => ?_, fun hbusy => ?_⟩, fun off hoff => State.regionOf_eq_none fun r => ?_,
    fun i hi hlt => State.regionOf_eq_none fun r => ?_, fun i hi hlt => State.regionOf_eq_none fun r => ?_,
    fun i hi hlt => State.regionOf_eq_none fun r => ?_⟩
  · obtain ⟨h1, h2⟩ | ⟨h1, hr⟩ := hoff
    · rw [s.memRead_register h2, s.readReg_reserved h1]
    · exact State.memRead_unmapped h1 hr
  · obtain ⟨h1, h2⟩ | ⟨h1, hr⟩ := hoff
    · rw [State.memWrite_register v (State.not_busy_of_idle hidle) h2 (by omega) (by omega) (by omega),
        s.writeReg_reserved v h1]
    · rw [State.memWrite_window v hidle h1, State.writeWindow_unmapped v hr]
  · exact State.memWrite_busy v (State.busy_of_not_idle hbusy) (by omega) (by omega)
  all_goals cases r <;> simp only [Region.base, Region.span] <;> omega

/-- Settles O18: an aligned offset's region is the window it lies in (`State.regionOf_aligned_iff`); what a write leaves is
`State.wordAt_writeWindow`; an idle read is the stored word, which is the element's own, its symbol zero-extended, or the
bits that `State.wordAt_bitAt` names. -/
theorem windowReadAfterWrite : Obligations.WindowReadAfterWrite := by
  intro s hc
  refine ⟨fun off hoff => ?_, fun off v r hidle hoff hr hnode hlen hbits => ?_, fun hidle hm => ?_⟩
  · simp only [State.regionOf_aligned_iff hc hoff, Region.base, Region.span]
    obtain ⟨⟨htext, -⟩, hmsg, -, -⟩ := hc
    omega
  · have hw := Region.hostWritable_iff.mpr ⟨hnode, hlen, hbits⟩
    simp only [State.memRead_memWrite hc hidle v hoff hr hw, Region.byteWide_iff hw]
  · refine ⟨fun i hi => s.memRead_word hc hidle .freq ?_, fun i hi => s.memRead_word hc hidle .node ?_,
      fun w hw b hb => s.memRead_bits hc hidle .treeBits ?_ hb,
      fun j hj => s.memRead_symbol hc hm hidle .treeLeaves rfl ?_,
      fun i hi => s.memRead_symbol hc hm hidle .codeLen rfl ?_,
      fun i hi w hw b hb => s.memRead_codeBits hc hidle hi hw hb,
      fun i hi => s.memRead_symbol hc hm hidle .textIn rfl ?_,
      fun i hi => s.memRead_symbol hc hm hidle .textOut rfl ?_,
      fun w hw b hb => s.memRead_bits hc hidle .msgBits ?_ hb⟩
    all_goals simp only [Region.span]; omega

/-- Settles O19: an idle window write is `State.writeWindow`, which changes the four bytes of its word at most and nothing
in an RO window. -/
theorem windowWriteFrame : Obligations.WindowWriteFrame := by
  intro s off v r hidle _ hoff hr
  rw [State.memWrite_window v hidle hoff]
  refine ⟨⟨s.writeWindow_eq_mem off v, s.writeWindow_sameBytesOutside off v⟩, fun hro => ?_⟩
  exact State.writeWindow_readOnly v hr (by obtain rfl | rfl | rfl := hro <;> rfl)

/-- Settles O5: the host's WR and RD (`hostStep_wr`, `hostStep_rd`), by the offset's alignment. -/
theorem hostAccessesAreOneStep : Obligations.HostAccessesAreOneStep := by
  intro s off v rest hturn
  have haligned : off.toNat % 4 = 0 → Offset.aligned off = true := beq_iff_eq.mpr
  have hmisaligned : off.toNat % 4 ≠ 0 → ¬ Offset.aligned off = true := mt beq_iff_eq.mp
  rw [step_of_host hturn]
  refine ⟨fun ha hp => ?_, fun ha hp => ?_, fun ha hp => ?_, fun ha hp => ?_⟩
  · rw [hostStep_wr (s := s.popTurn) hp, if_pos (haligned ha)]
    rfl
  · rw [hostStep_rd (s := s.popTurn) hp, if_pos (haligned ha)]
    rfl
  · rw [hostStep_wr (s := s.popTurn) hp, if_neg (hmisaligned ha)]
  · rw [hostStep_rd (s := s.popTurn) hp, if_neg (hmisaligned ha)]

/-- Settles O20: a window read of a running region is a draw, of another region the stored word; and the regions of an
accepted command are those its rule names. -/
theorem readsWhileBusy : Obligations.ReadsWhileBusy := by
  intro s w off r hbusy
  refine ⟨fun _ hr hrun => ?_, fun _ hr hrun => State.memRead_stored hr hrun, s.memRead_register, fun i hi => ?_⟩
  · rw [State.memRead_running hr hrun]
    exact ⟨rfl, rfl⟩
  · rw [State.runningRegions_of_command (hi ▸ hbusy)]
    cases i <;> rfl

/-- Settles O21: a read takes a draw or leaves the whole state (`State.memRead_state`), and while idle no region is
running. -/
theorem readsHaveNoSideEffect : Obligations.ReadsHaveNoSideEffect := by
  intro s off
  refine ⟨?_, fun hidle => ?_⟩
  · obtain e | e := s.memRead_state off <;> rw [e]
  · by_cases hoff : off < 0x1000
    · rw [s.memRead_register hoff]
    · cases hr : s.regionOf off with
      | none => rw [State.memRead_unmapped (by omega) hr]
      | some r => rw [State.memRead_idle hidle hr]

end Sys2Proof.Machine
end

section
/-! SUPPORT. Decode against encode: a word is its two fields, and it decodes to a command exactly when it is that
command's encoding, else it is illegal (R80 to R85). With it, the life of an illegal word in the engine, the host's
pseudo-operations that read a register and choose how to go on (R88, R89, R91), and the obligations of 30_encoding.md. -/

namespace Sys2Proof

/-! ### The fields of a word -/

/-- A word as a number: RSV above OP (R80). -/
theorem toNat_eq_fields (w : Word) : w.toNat = 2 ^ 8 * (fieldRSV w).toNat + (fieldOP w).toNat := by
  simp only [fieldRSV, fieldOP, BitVec.extractLsb'_toNat, Nat.shiftRight_eq_div_pow]
  omega

/-- RSV and OP are the whole word (R80). -/
theorem word_eq_of_fields {v w : Word} (hrsv : fieldRSV v = fieldRSV w) (hop : fieldOP v = fieldOP w) : v = w :=
  BitVec.eq_of_toNat_eq (by rw [toNat_eq_fields, toNat_eq_fields, hrsv, hop])

theorem encoding_statement (i : Instr) : Laws.Encoding.Statement i := by
  cases i with
  | count => exact Laws.Encoding.count
  | build => exact Laws.Encoding.build
  | tenc => exact Laws.Encoding.tenc
  | tdec => exact Laws.Encoding.tdec
  | paths => exact Laws.Encoding.paths
  | senc => exact Laws.Encoding.senc
  | sdec => exact Laws.Encoding.sdec

/-! ### Which words are commands -/

/-- An operation code that selects a command is that command's own (R81). -/
theorem eq_opcode_of_decodeOP {op : Nat} {i : Instr} (h : decodeOP op = .command i) : op = (opcode i).toNat := by
  rw [decodeOP.eq_def] at h
  split at h <;> cases h <;> rfl

/-- An operation code that selects no command (R83). -/
theorem decodeOP_illegal_iff (op : Nat) : (∃ why, decodeOP op = .illegal why) ↔ op = 0 ∨ 8 ≤ op := by
  rw [decodeOP.eq_def]
  split
  case h_9 => exact iff_of_true ⟨_, rfl⟩ (by grind)
  all_goals simp

/-- A word decodes to a command exactly when it is its encoding (R81, R85). -/
theorem decode_eq_command_iff {w : Word} {i : Instr} : decode w = .command i ↔ w = encode i := by
  obtain ⟨-, hrsv, hop, hdecode⟩ := encoding_statement i
  refine ⟨fun h => ?_, fun h => h ▸ hdecode⟩
  rw [decode] at h
  split at h
  case isTrue hw =>
    have hcode : fieldOP w = opcode i := BitVec.eq_of_toNat_eq (eq_opcode_of_decodeOP h)
    exact word_eq_of_fields (hw.trans hrsv.symm) (hcode.trans hop.symm)
  case isFalse => cases h

/-- The illegal words by their fields (R83). -/
theorem decode_illegal_iff (w : Word) :
    (∃ why, decode w = .illegal why) ↔ fieldRSV w ≠ 0 ∨ fieldOP w = 0 ∨ 8 ≤ (fieldOP w).toNat := by
  have hzero : (fieldOP w).toNat = 0 ↔ fieldOP w = 0 := by rw [BitVec.toNat_eq]; rfl
  by_cases hrsv : fieldRSV w = 0
  · rw [decode, if_pos hrsv, decodeOP_illegal_iff, hzero, or_iff_right (not_not.mpr hrsv)]
  · rw [decode, if_neg hrsv]
    exact iff_of_true ⟨_, rfl⟩ (.inl hrsv)

/-- Settles O2: `decode_eq_command_iff`. -/
theorem decodeAcceptsExactlyTheEncodings : Obligations.DecodeAcceptsExactlyTheEncodings :=
  fun _ _ => decode_eq_command_iff

/-- Settles O1: twelve words, each decoded. -/
theorem specWordsDecode : Obligations.SpecWordsDecode := by
  unfold Obligations.SpecWordsDecode
  decide

end Sys2Proof

namespace Sys2Proof.Machine

/-! ### The life of an illegal word -/

/-- An idle write to CMD accepts the word, whatever it is (R138). -/
theorem State.memWrite_cmd {s : State} (w : Word) (h : s.eng = .idle) : s.memWrite 0x010 w = s.accept w := by
  simp [State.memWrite, State.not_busy_of_idle h]

/-- An accepted illegal word completes with BAD_COMMAND (R83, R141). -/
theorem engineStep_illegal {s : State} {w : Word} {why : IllegalWord} (h : s.eng = .busy w)
    (hd : decode w = .illegal why) : engineStep s = .next (s.fail ⟨.badCommand, w⟩) := by
  simp only [engineStep, h, hd]

/-- Settles O3: the stated fields are those of the illegal words (`decode_illegal_iff`), which the engine completes by
`engineStep_illegal`; every other word decodes to a command, so it is that command's encoding. -/
theorem illegalWordsCompleteWithBadCommand : Obligations.IllegalWordsCompleteWithBadCommand := by
  intro w
  have hillegal := decode_illegal_iff w
  refine ⟨fun h => ?_, fun h => ?_⟩
  · obtain ⟨why, hd⟩ := hillegal.mpr h
    exact ⟨fun s hidle => State.memWrite_cmd w hidle, fun s hbusy => engineStep_illegal hbusy hd⟩
  · cases hd : decode w with
    | command i => exact ⟨i, decode_eq_command_iff.mp hd⟩
    | illegal why => exact absurd (hillegal.mp ⟨why, hd⟩) h

/-! ### The host's pseudo-operations -/

/-- WAIT stays in the program while BUSY = 1 (R88). -/
theorem hostStep_waitIdle {s : State} {rest : List HostOp} (hp : s.program = .waitIdle :: rest) :
    hostStep s =
      .next { s with program := if s.busy then s.program else rest, reads := s.statusWord :: s.reads } := by
  have hread : s.hostRead 0x00C = { s with reads := s.statusWord :: s.reads } := s.hostRead_register (by decide)
  have hbusy : s.statusWord.getLsbD 0 = s.busy := by rw [s.statusWord_getLsbD]; simp
  simp only [hostStep, hp, hread, State.lastRead, List.headD_cons, hbusy]
  cases s.busy
  · rfl
  · rw [← hp]
    rfl

/-- The last part of RUN! ends the program where ERR_CODE is not 0 (R89). -/
theorem hostStep_checkErr {s : State} {rest : List HostOp} (hp : s.program = .checkErr :: rest) :
    hostStep s =
      .next { s with
        program := if s.errCode = 0 then rest else [], reads := s.errCode.setWidth 32 :: s.reads } := by
  have hread : s.hostRead 0x014 = { s with reads := s.errCode.setWidth 32 :: s.reads } :=
    s.hostRead_register (by decide)
  have hzero : s.errCode.setWidth 32 = 0 ↔ s.errCode = 0 := by
    rw [BitVec.toNat_eq, BitVec.toNat_eq, BitVec.toNat_setWidth_of_le (by decide)]
    rfl
  simp only [hostStep, hp, hread, State.lastRead, List.headD_cons, hzero]

/-- GETTEXT goes on with as many reads of TEXT_OUT as OUT_LEN says (R91). -/
theorem hostStep_getText {s : State} {rest : List HostOp} (hp : s.program = .getText :: rest) :
    hostStep s =
      .next { s with program := getTextReads s.outLen.toNat ++ rest, reads := s.outLen :: s.reads } := by
  have hread : s.hostRead 0x020 = { s with reads := s.outLen :: s.reads } := s.hostRead_register (by decide)
  simp only [hostStep, hp, hread, State.lastRead, List.headD_cons]

/-- Settles O6: the host's step (`step_of_host`) is that of its operation (`hostStep_waitIdle`, `hostStep_checkErr`,
`hostStep_getText`), on the state with the turn taken. -/
theorem hostPseudoOperationsStep : Obligations.HostPseudoOperationsStep := by
  intro s rest hturn
  rw [step_of_host hturn]
  exact ⟨fun hp => hostStep_waitIdle (s := s.popTurn) hp, fun hp => hostStep_checkErr (s := s.popTurn) hp,
    fun hp => hostStep_getText (s := s.popTurn) hp⟩

end Sys2Proof.Machine
end

section
/-! SUPPORT. BUILD's working set (R98, R99): an insertion keeps whatever order agrees with `entryBefore`, and neither an
insertion nor a merge changes what the set weighs, so that no weight wraps. -/

namespace Sys2Proof.Machine

/-! ### Order -/

/-- R99's order as a proposition: smaller weight first, and between equal weights smaller seq first. -/
def EntryBefore (a b : QEntry) : Prop := a.1.toNat < b.1.toNat ∨ (a.1 = b.1 ∧ a.2 < b.2)

/-- The order by weight alone. -/
def LighterOrEqual (a b : QEntry) : Prop := a.1.toNat ≤ b.1.toNat

theorem entryBefore_iff (a b : QEntry) : entryBefore a b = true ↔ EntryBefore a b := by
  simp [entryBefore, EntryBefore, BitVec.toNat_eq]

theorem EntryBefore.trans {a b c : QEntry} (hab : EntryBefore a b) (hbc : EntryBefore b c) : EntryBefore a c := by
  simp only [EntryBefore, BitVec.toNat_eq] at *
  omega

/-- Two elements with different sequence numbers are always in one of the two orders. -/
theorem EntryBefore.of_not {a b : QEntry} (hne : a.2 ≠ b.2) (h : ¬ EntryBefore a b) : EntryBefore b a := by
  simp only [EntryBefore, BitVec.toNat_eq] at *
  omega

theorem EntryBefore.lighterOrEqual {a b : QEntry} (h : EntryBefore a b) : LighterOrEqual a b := by
  simp only [EntryBefore, LighterOrEqual, BitVec.toNat_eq] at *
  omega

theorem LighterOrEqual.of_not {a b : QEntry} (h : ¬ EntryBefore a b) : LighterOrEqual b a := by
  simp only [EntryBefore, LighterOrEqual] at *
  omega

/-- An insertion keeps every transitive order that holds between the new element and the others as `entryBefore` says. -/
theorem queueInsert_pairwise {R : QEntry → QEntry → Prop} {e : QEntry} {q : List QEntry}
    (htrans : ∀ {a b c}, R a b → R b c → R a c) (hbefore : ∀ x ∈ q, EntryBefore e x → R e x)
    (hafter : ∀ x ∈ q, ¬ EntryBefore e x → R x e) (hq : q.Pairwise R) : (queueInsert e q).Pairwise R := by
  induction q with
  | nil => exact List.pairwise_singleton R e
  | cons x q ih =>
    obtain ⟨hx, hq'⟩ := List.pairwise_cons.mp hq
    rw [queueInsert]
    split
    · rename_i hex
      have hRx := hbefore x (by simp) ((entryBefore_iff e x).mp hex)
      exact List.pairwise_cons.mpr ⟨List.forall_mem_cons.mpr ⟨hRx, fun y hy => htrans hRx (hx y hy)⟩, hq⟩
    · rename_i hex
      have hRx := hafter x (by simp) (mt (entryBefore_iff e x).mpr hex)
      refine List.pairwise_cons.mpr ⟨fun y hy => ?_, ih (fun y hy => hbefore y (by simp [hy]))
        (fun y hy => hafter y (by simp [hy])) hq'⟩
      obtain rfl | hy := List.mem_cons.mp ((queueInsert_perm e q).mem_iff.mp hy)
      · exact hRx
      · exact hx y hy

/-- With distinct sequence numbers an insertion keeps R99's order. -/
theorem queueInsert_sorted {e : QEntry} {q : List QEntry} (hn : ((e :: q).map (·.2)).Nodup)
    (hq : q.Pairwise EntryBefore) : (queueInsert e q).Pairwise EntryBefore :=
  have hne : ∀ x ∈ q, e.2 ≠ x.2 := fun x hx he =>
    (List.nodup_cons.mp hn).1 (List.mem_map.mpr ⟨x, hx, he.symm⟩)
  queueInsert_pairwise .trans (fun _ _ h => h) (fun x hx h => .of_not (hne x hx) h) hq

theorem queueOf_sorted {es : List QEntry} (hn : (es.map (·.2)).Nodup) : (queueOf es).Pairwise EntryBefore := by
  induction es with
  | nil => exact .nil
  | cons e es ih =>
    have hperm : ((e :: queueOf es).map (·.2)).Perm ((e :: es).map (·.2)) := ((queueOf_perm es).cons e).map _
    exact queueInsert_sorted (hperm.nodup_iff.mpr hn) (ih (List.nodup_cons.mp hn).2)

/-- Whatever the sequence numbers are, an insertion keeps the order by weight. -/
theorem queueInsert_lighter {e : QEntry} {q : List QEntry} (hq : q.Pairwise LighterOrEqual) :
    (queueInsert e q).Pairwise LighterOrEqual :=
  queueInsert_pairwise Nat.le_trans (fun _ _ h => h.lighterOrEqual) (fun _ _ h => .of_not h) hq

theorem queueOf_lighter (es : List QEntry) : (queueOf es).Pairwise LighterOrEqual := by
  induction es with
  | nil => exact .nil
  | cons e es ih => exact queueInsert_lighter ih

@[simp] theorem queueInsert_length (e : QEntry) (q : List QEntry) : (queueInsert e q).length = q.length + 1 :=
  (queueInsert_perm e q).length_eq

/-! ### Weight -/

/-- What the elements of a working set weigh together. -/
def queueWeight (q : List QEntry) : Nat := (q.map (fun e => e.1.toNat)).sum

theorem queueWeight_perm {q q' : List QEntry} (h : q.Perm q') : queueWeight q = queueWeight q' := (h.map _).sum_eq

@[simp] theorem queueWeight_cons (e : QEntry) (q : List QEntry) : queueWeight (e :: q) = e.1.toNat + queueWeight q :=
  List.sum_cons

/-- The sum a merge re-inserts is exact where the set weighs less than 2^40 (R98). -/
theorem merge_weight_exact {w1 w2 : Weight} {a b : Nat} {q : List QEntry}
    (h : queueWeight ((w1, a) :: (w2, b) :: q) < 2 ^ 40) : (w1 + w2).toNat = w1.toNat + w2.toNat := by
  simp only [queueWeight_cons] at h
  exact BitVec.toNat_add_of_lt (by omega)

/-- A merge leaves a set that weighs the same (R98, R100). -/
theorem queueWeight_merge {w1 w2 : Weight} {a b : Nat} (m : Nat) {q : List QEntry}
    (h : queueWeight ((w1, a) :: (w2, b) :: q) < 2 ^ 40) :
    queueWeight (queueInsert (w1 + w2, m) q) = queueWeight ((w1, a) :: (w2, b) :: q) := by
  rw [queueWeight_perm (queueInsert_perm _ q)]
  simp only [queueWeight_cons, merge_weight_exact h, Nat.add_assoc]

/-! ### The set BUILD starts from -/

theorem leafEntries_eq_zipIdx (freq : Nat → Word) (t : Nat) (l : List Nat) :
    leafEntries freq t l = (l.zipIdx t).map (fun p => ((freq p.1).setWidth 40, p.2)) := by
  induction l generalizing t with
  | nil => rfl
  | cons x l ih => rw [leafEntries, ih, List.zipIdx_cons, List.map_cons]

/-- `zext_40` keeps a count (R98). -/
theorem toNat_zext40 (count : Word) : (count.setWidth 40).toNat = count.toNat :=
  BitVec.toNat_setWidth_of_le (by decide)

/-- The leaves' weights are their symbols' counts (R98). -/
theorem leafEntries_weights (freq : Nat → Word) (t : Nat) (l : List Nat) :
    (leafEntries freq t l).map (fun e => e.1.toNat) = l.map (fun x => (freq x).toNat) := by
  induction l generalizing t with
  | nil => rfl
  | cons x l ih => rw [leafEntries, List.map_cons, List.map_cons, ih, toNat_zext40]

theorem queueWeight_leafEntries (freq : Nat → Word) (l : List Nat) :
    queueWeight (queueOf (leafEntries freq 0 l)) = (l.map (fun x => (freq x).toNat)).sum := by
  rw [queueWeight_perm (queueOf_perm _), queueWeight, leafEntries_weights]

/-- 256 · (2^32 − 1) < 2^40 (R98). -/
theorem queueWeight_leafEntries_lt (freq : Nat → Word) {l : List Nat} (hl : l.length ≤ 256) :
    queueWeight (queueOf (leafEntries freq 0 l)) < 2 ^ 40 := by
  have hle : (l.map (fun x => (freq x).toNat)).sum ≤ (l.map (fun x => (freq x).toNat)).length • (2 ^ 32 - 1) := by
    refine List.sum_le_card_nsmul _ _ fun n hn => ?_
    obtain ⟨x, -, rfl⟩ := List.mem_map.mp hn
    exact Nat.le_pred_of_lt (freq x).isLt
  rw [List.length_map, smul_eq_mul] at hle
  rw [queueWeight_leafEntries]
  omega

/-- Settles O29: the order is `queueInsert_sorted` and `queueOf_sorted`, the weights are `queueWeight_leafEntries` and
`queueWeight_merge`. -/
theorem mergesTakeTheTwoLeast : Obligations.MergesTakeTheTwoLeast := by
  refine ⟨fun es hn => ⟨queueOf_perm es, queueOf_sorted hn⟩,
    fun e q hn hq => ⟨queueInsert_perm e q, queueInsert_sorted hn hq⟩, fun _ _ _ _ _ _ _ => rfl, ?_,
    fun _ _ _ _ m _ h => ⟨merge_weight_exact h, queueWeight_merge m h⟩⟩
  rintro freq l q hl rfl
  rw [← leafEntries_eq_zipIdx]
  exact ⟨queueWeight_leafEntries freq l, queueWeight_leafEntries_lt freq hl⟩

end Sys2Proof.Machine
end

section
/-! SUPPORT. What BUILD leaves: the equations of its two outcomes by the number of present symbols, its registers, and its
NODE words one by one (R97, R100, R101). -/

namespace Sys2Proof.Machine

/-! ### The present symbols (R97) -/

theorem State.presentSymbols_eq (s : State) :
    s.presentSymbols = (List.range 256).filter (fun i => decide (s.freqAt i ≠ 0)) :=
  List.filter_congr fun i _ => by
    rw [Bool.eq_iff_iff, bne_iff_ne, decide_eq_true_eq]

theorem State.length_presentSymbols (s : State) :
    s.presentSymbols.length = (List.range 256).countP (fun i => decide (s.freqAt i ≠ 0)) := by
  rw [s.presentSymbols_eq, List.countP_eq_length_filter]

theorem State.mem_presentSymbols {s : State} {x : Nat} : x ∈ s.presentSymbols ↔ x < 256 ∧ s.freqAt x ≠ 0 := by
  rw [s.presentSymbols_eq, List.mem_filter, List.mem_range, decide_eq_true_eq]

theorem State.presentSymbols_increasing (s : State) : s.presentSymbols.Pairwise (· < ·) :=
  List.pairwise_lt_range.filter _

/-- The present symbols, as symbols. -/
theorem State.mem_presentSymbols_map {s : State} {x : Symbol} :
    x ∈ s.presentSymbols.map (BitVec.ofNat 8) ↔ s.freqAt x.toNat ≠ 0 := by
  rw [List.mem_map]
  constructor
  · rintro ⟨i, hi, rfl⟩
    obtain ⟨hlt, hfreq⟩ := State.mem_presentSymbols.mp hi
    rwa [BitVec.toNat_ofNat, Nat.mod_eq_of_lt hlt]
  · exact fun h => ⟨x.toNat, State.mem_presentSymbols.mpr ⟨x.isLt, h⟩, BitVec.ofNat_toNat ..⟩

/-! ### The NODE words -/

/-- A working set of `n + 1` elements takes `n` merges (R100). -/
theorem mergeNodes_length {n : Nat} {q : List QEntry} (m : Nat) (hq : q.length = n + 1) :
    (mergeNodes n q m).length = n := by
  induction n generalizing q m with
  | zero => rfl
  | succ n ih =>
    match q, hq with
    | (w1, a) :: (w2, b) :: q, hq =>
      have hlen : (queueInsert (w1 + w2, m) q).length = n + 1 := by simpa using hq
      rw [mergeNodes, List.length_cons, ih _ hlen]

/-- A merge's children come before it (R100, R102). -/
theorem mergeNodes_children {n m j : Nat} {q : List QEntry} {w : Word} (hq : ∀ e ∈ q, e.2 < m)
    (hw : (mergeNodes n q m)[j]? = some w) : ∃ a b, a < m + j ∧ b < m + j ∧ w = interiorWord a b := by
  induction n generalizing q m j with
  | zero => simp [mergeNodes] at hw
  | succ n ih =>
    match q with
    | [] => simp [mergeNodes] at hw
    | [_] => simp [mergeNodes] at hw
    | (w1, a) :: (w2, b) :: q =>
      cases j with
      | zero => exact ⟨a, b, hq (w1, a) (by simp), hq (w2, b) (by simp), (Option.some.inj hw).symm⟩
      | succ j =>
        have hnext : ∀ e ∈ queueInsert (w1 + w2, m) q, e.2 < m + 1 := fun e he => by
          obtain rfl | he := List.mem_cons.mp ((queueInsert_perm _ q).mem_iff.mp he)
          · exact Nat.lt_succ_self m
          · exact Nat.lt_succ_of_lt (hq e (by simp [he]))
        obtain ⟨c, d, hc, hd, rfl⟩ := ih hnext hw
        exact ⟨c, d, by omega, by omega, rfl⟩

section
variable (freq : Nat → Word) {l : List Nat}

theorem length_queueOf_leafEntries : (queueOf (leafEntries freq 0 l)).length = l.length := by
  rw [(queueOf_perm _).length_eq, leafEntries_eq_zipIdx, List.length_map, List.length_zipIdx]

theorem queueOf_leafEntries_indices_lt : ∀ e ∈ queueOf (leafEntries freq 0 l), e.2 < l.length := by
  intro e he
  have hmem : e.2 ∈ (leafEntries freq 0 l).map (·.2) := List.mem_map_of_mem ((queueOf_perm _).mem_iff.mp he)
  rw [leafEntries_indices, List.mem_range'_1] at hmem
  omega

theorem builtNodes_length (h : 1 ≤ l.length) : (builtNodes freq l).length = 2 * l.length - 1 := by
  have hq : (queueOf (leafEntries freq 0 l)).length = l.length - 1 + 1 := by
    rw [length_queueOf_leafEntries]
    omega
  rw [builtNodes, List.length_append, List.length_map, mergeNodes_length _ hq]
  omega

/-- The first words are the leaves of the symbols in order (R97). -/
theorem builtNodes_leaf {k x : Nat} (h : l[k]? = some x) :
    (builtNodes freq l)[k]? = some (leafWord (BitVec.ofNat 8 x)) := by
  have hlt : k < l.length := (List.getElem?_eq_some_iff.mp h).1
  rw [builtNodes, List.getElem?_append_left (by simpa using hlt), List.getElem?_map, h, Option.map_some]

/-- The others are the merges (R100). -/
theorem builtNodes_merge (k : Nat) : (builtNodes freq l)[l.length + k]? =
    (mergeNodes (l.length - 1) (queueOf (leafEntries freq 0 l)) l.length)[k]? := by
  rw [builtNodes, List.getElem?_append_right (by simp), List.length_map, Nat.add_sub_cancel_left]

end

/-! ### BUILD's outcomes (R101) -/

/-- With fewer than two symbols BUILD is the error alone. -/
theorem State.buildTree_of_lt (s : State) {l : List Nat} (h : l.length < 2) :
    s.buildTree l = { s with
      eng := .idle, done := true, errCode := 0x01, errInfo := BitVec.ofNat 32 l.length
      distinct := BitVec.ofNat 9 l.length, treeValid := false, pathsValid := false, root := 0, nodeCount := 0 } := by
  rw [State.buildTree, if_pos h]
  rfl

/-- What a BUILD of the symbols `l` that succeeds in state `s` leaves in state `t`. -/
structure State.Built (s t : State) (l : List Nat) : Prop where
  errCode : t.errCode = 0
  errInfo : t.errInfo = 0
  eng : t.eng = .idle
  done : t.done = true
  treeValid : t.treeValid = true
  pathsValid : t.pathsValid = false
  distinct : t.distinct.toNat = l.length
  root : t.root.toNat = 2 * l.length - 2
  nodeCount : t.nodeCount.toNat = 2 * l.length - 1
  nodes : ∀ {i : Nat} {w : Word}, (builtNodes s.freqAt l)[i]? = some w → t.nodeAt i = w

theorem State.built_buildTree (s : State) {l : List Nat} (h2 : 2 ≤ l.length) (h256 : l.length ≤ 256) :
    s.Built (s.buildTree l) l := by
  have h : s.buildTree l =
      { s.putWords 0x002000 (builtNodes s.freqAt l) with
        distinct := BitVec.ofNat 9 l.length, treeValid := true, pathsValid := false
        root := BitVec.ofNat 9 (2 * l.length - 2), nodeCount := BitVec.ofNat 9 (2 * l.length - 1) }.complete := by
    rw [State.buildTree, if_neg (by omega)]
  rw [h]
  refine ⟨rfl, rfl, rfl, rfl, rfl, rfl, ?_, ?_, ?_, fun hw => s.nodeAt_putWords hw⟩
  · exact BitVec.toNat_ofNat .. |>.trans (Nat.mod_eq_of_lt (by omega))
  · exact BitVec.toNat_ofNat .. |>.trans (Nat.mod_eq_of_lt (by omega))
  · exact BitVec.toNat_ofNat .. |>.trans (Nat.mod_eq_of_lt (by omega))

/-- BUILD without an error had at least two symbols. -/
theorem built_of_errCode_zero {s t : State} (h : exec .build s = .next t) (he : t.errCode = 0) :
    2 ≤ s.presentSymbols.length ∧ s.Built t s.presentSymbols := by
  obtain rfl := execBuild_next h
  by_cases hlt : s.presentSymbols.length < 2
  · rw [s.buildTree_of_lt hlt] at he
    exact absurd he (by simp)
  · have h2 := Nat.le_of_not_lt hlt
    exact ⟨h2, s.built_buildTree h2 s.presentSymbols_length_le⟩

/-- NODE[0 .. 2k−2] after BUILD, as one list (R101). -/
theorem State.Built.map_nodeAt {s t : State} {l : List Nat} (h : s.Built t l) (h1 : 1 ≤ l.length) :
    (List.range (2 * l.length - 1)).map t.nodeAt = builtNodes s.freqAt l := by
  refine List.ext_getElem (by simp [builtNodes_length _ h1]) fun i _ hi => ?_
  rw [List.getElem_map, List.getElem_range]
  exact h.nodes (List.getElem?_eq_getElem hi)

/-- The leaf word of a symbol number below 256, as R101 writes it. -/
theorem leafWord_ofNat {x : Nat} (h : x < 256) : leafWord (BitVec.ofNat 8 x) = 0x80000000 ||| BitVec.ofNat 32 x := by
  have hx : (BitVec.ofNat 8 x).setWidth 32 = BitVec.ofNat 32 x := by
    apply BitVec.eq_of_toNat_eq
    rw [BitVec.toNat_setWidth, BitVec.toNat_ofNat, BitVec.toNat_ofNat]
    omega
  rw [leafWord, hx]

/-! ### The obligations -/

/-- Settles O27: with fewer than two present symbols BUILD is `State.buildTree_of_lt`. -/
theorem buildRejectsFewerThanTwoSymbols : Obligations.BuildRejectsFewerThanTwoSymbols := by
  rintro s k rfl hk
  rw [← s.length_presentSymbols] at hk ⊢
  exact congrArg Host.Outcome.next (s.buildTree_of_lt hk)

/-- Settles O28: the registers and the NODE words are those of `State.Built`. -/
theorem buildWritesLeavesThenMerges : Obligations.BuildWritesLeavesThenMerges := by
  rintro s l q hl h2 rfl
  obtain rfl : s.presentSymbols = l := s.presentSymbols_eq.trans hl.symm
  have hb := s.built_buildTree h2 s.presentSymbols_length_le
  refine ⟨_, rfl, hb.errCode, hb.errInfo, hb.eng, hb.done, hb.treeValid, hb.pathsValid, hb.distinct, hb.root,
    hb.nodeCount, ?_⟩
  rw [hb.map_nodeAt (by omega), builtNodes, leafEntries_eq_zipIdx]
  congr 1
  exact List.map_congr_left fun x hx => leafWord_ofNat (State.mem_presentSymbols.mp hx).1

/-- Settles O32: with fewer than two symbols memory is the same, otherwise the run of words has at most 2k − 1 of them
(`builtNodes_length_le`). -/
theorem buildFrame : Obligations.BuildFrame := by
  rintro s t k rfl h
  rw [← s.length_presentSymbols]
  obtain rfl := execBuild_next h
  by_cases hlt : s.presentSymbols.length < 2
  · rw [s.buildTree_of_lt hlt]
    exact ⟨rfl, fun _ _ => rfl⟩
  · rw [State.buildTree, if_neg hlt]
    refine ⟨rfl, fun a ha => State.byteAt_putWords_outside ?_⟩
    have := builtNodes_length_le s.freqAt s.presentSymbols
    omega

end Sys2Proof.Machine
end

section
/-! SUPPORT. The tree a successful BUILD makes: the working set stands for a forest whose trees weigh what the set says, and
a merge adds the weight it re-inserts to the forest's cost, so the tree costs what the merges cost together (R98, R100,
R102). -/

namespace Sys2Proof.Machine

/-! ### The forest behind the working set -/

theorem CodeTree.weight_node (count : Symbol → Nat) (z o : CodeTree) :
    (CodeTree.node z o).weight count = z.weight count + o.weight count := by
  simp [CodeTree.weight, CodeTree.leaves]

/-- Element `e` of the working set stands for tree `t`: the arena holds it under the element's index, and it weighs the
element's weight. -/
structure State.Holds (s : State) (count : Symbol → Nat) (e : QEntry) (t : CodeTree) : Prop where
  index_lt : e.2 < 512
  stores : ∃ l, s.Stores t e.2 l
  weight : t.weight count = e.1.toNat

/-- A merge word makes the merged element stand for the joined tree (R98, R100). -/
theorem State.Holds.merge {s : State} {count : Symbol → Nat} {w1 w2 : Weight} {a b m : Nat} {z o : CodeTree}
    (hz : s.Holds count (w1, a) z) (ho : s.Holds count (w2, b) o) (hm : m < 512)
    (hw : s.nodeAt m = interiorWord a b) (hexact : (w1 + w2).toNat = w1.toNat + w2.toNat) :
    s.Holds count (w1 + w2, m) (.node z o) := by
  obtain ⟨lz, hstz⟩ := hz.stores
  obtain ⟨lo, hsto⟩ := ho.stores
  exact ⟨hm, ⟨_, .node hz.index_lt ho.index_lt hw hstz hsto⟩,
    by rw [CodeTree.weight_node, hz.weight, ho.weight, hexact]⟩

/-- The weights that `n` merges re-insert, summed: what `mergeNodes` adds to the forest's cost. -/
def mergeCost : Nat → List QEntry → Nat → Nat
  | n + 1, (w1, _) :: (w2, _) :: q, m =>
    w1.toNat + w2.toNat + mergeCost n (queueInsert (w1 + w2, m) q) (m + 1)
  | _, _, _ => 0

/-- The merges of a working set of `n + 1` trees leave one tree, with all their leaves, that costs what the trees and the
merges cost. -/
theorem State.Holds.mergeAll {s : State} {count : Symbol → Nat} {n m : Nat} {q : List QEntry} {ts : List CodeTree}
    (hf : List.Forall₂ (s.Holds count) q ts) (hlast : m - 1 ∈ q.map (·.2)) (hq : q.length = n + 1) (hm : m + n ≤ 512)
    (hweight : queueWeight q < 2 ^ 40) (hw : ∀ k w, (mergeNodes n q m)[k]? = some w → s.nodeAt (m + k) = w) :
    ∃ t, (∃ l, s.Stores t (m + n - 1) l) ∧ t.leaves.Perm (ts.flatMap CodeTree.leaves) ∧
      t.cost count = (ts.map (CodeTree.cost count)).sum + mergeCost n q m := by
  induction n generalizing q m ts with
  | zero =>
    obtain ⟨⟨w, a⟩, rfl⟩ := List.length_eq_one_iff.mp hq
    obtain rfl : m - 1 = a := by simpa using hlast
    obtain _ | ⟨head, _ | _⟩ := hf
    exact ⟨_, head.stores, by simp, by simp [mergeCost]⟩
  | succ n ih =>
    match q, hq with
    | (w1, a) :: (w2, b) :: q, hq =>
      obtain _ | ⟨hz, _ | ⟨ho, htail⟩⟩ := hf
      rename_i z o ts
      have hnode := hz.merge ho (by omega) (hw 0 _ rfl) (merge_weight_exact hweight)
      obtain ⟨ts', hf', hperm⟩ := List.perm_comp_forall₂ (queueInsert_perm (w1 + w2, m) q) (.cons hnode htail)
      have hlen : (queueInsert (w1 + w2, m) q).length = n + 1 := by simpa using hq
      have hroot : m + 1 + n = m + (n + 1) := by omega
      have hwords : ∀ k w, (mergeNodes n (queueInsert (w1 + w2, m) q) (m + 1))[k]? = some w →
          s.nodeAt (m + 1 + k) = w := fun k w hk => by
        rw [show m + 1 + k = m + (k + 1) by omega]
        exact hw (k + 1) w hk
      obtain ⟨t, hstores, hleaves, hcost⟩ := ih hf' (by simp [((queueInsert_perm _ q).map _).mem_iff]) hlen (by omega)
        ((queueWeight_merge m hweight).trans_lt hweight) hwords
      refine ⟨t, hroot ▸ hstores, hleaves.trans ?_, ?_⟩
      · simpa [CodeTree.leaves] using hperm.flatMap_right CodeTree.leaves
      · have hz : z.weight count = w1.toNat := hz.weight
        have ho : o.weight count = w2.toNat := ho.weight
        rw [hcost, (hperm.map _).sum_eq, mergeCost]
        simp only [List.map_cons, List.sum_cons, CodeTree.cost]
        omega

/-! ### The tree of a successful BUILD -/

/-- The leaf words make each element of the first working set stand for its symbol's leaf (R97, R98). -/
theorem State.holds_leafEntries {s : State} {count : Symbol → Nat} {freq : Nat → Word} {t : Nat} {l : List Nat}
    (ht : t + l.length ≤ 512) (hcount : ∀ x ∈ l, count (BitVec.ofNat 8 x) = (freq x).toNat)
    (hw : ∀ k x, l[k]? = some x → s.nodeAt (t + k) = leafWord (BitVec.ofNat 8 x)) :
    List.Forall₂ (s.Holds count) (leafEntries freq t l) (l.map (fun x => .leaf (BitVec.ofNat 8 x))) := by
  induction l generalizing t with
  | nil => exact .nil
  | cons x l ih =>
    rw [List.length_cons] at ht
    refine .cons ⟨by simp only; omega, ⟨_, .leaf (hw 0 x rfl)⟩, ?_⟩
      (ih (by omega) (fun y hy => hcount y (by simp [hy])) fun k y hk => ?_)
    · simp [CodeTree.weight, CodeTree.leaves, toNat_zext40, hcount x, -BitVec.toNat_setWidth]
    · rw [show t + 1 + k = t + (k + 1) by omega]
      exact hw (k + 1) y hk

/-- The count of each symbol in FREQ. -/
def State.countIn (s : State) (x : Symbol) : Nat := (s.freqAt x.toNat).toNat

theorem State.countIn_ofNat (s : State) {x : Nat} (h : x < 256) :
    s.countIn (BitVec.ofNat 8 x) = (s.freqAt x).toNat := by
  rw [State.countIn, BitVec.toNat_ofNat, Nat.mod_eq_of_lt h]

/-- The working set BUILD starts from in state `s`. -/
def State.firstQueue (s : State) : List QEntry := queueOf (leafEntries s.freqAt 0 s.presentSymbols)

/-- A successful BUILD has one current tree: over the present symbols, and costing what its merges cost. -/
theorem State.Built.currentTree {s t : State} (h : s.Built t s.presentSymbols) (h2 : 2 ≤ s.presentSymbols.length) :
    ∃ tr, t.currentTree = some tr ∧ tr.leaves.Perm (s.presentSymbols.map (BitVec.ofNat 8)) ∧
      tr.cost s.countIn = mergeCost (s.presentSymbols.length - 1) s.firstQueue s.presentSymbols.length := by
  have h256 := s.presentSymbols_length_le
  have hentries : List.Forall₂ (t.Holds s.countIn) (leafEntries s.freqAt 0 s.presentSymbols)
      (s.presentSymbols.map (fun x => .leaf (BitVec.ofNat 8 x))) :=
    State.holds_leafEntries (by omega) (fun x hx => s.countIn_ofNat (State.mem_presentSymbols.mp hx).1) fun k x hk => by
      rw [Nat.zero_add]
      exact h.nodes (builtNodes_leaf _ hk)
  obtain ⟨ts, hf, hperm⟩ := List.perm_comp_forall₂ (queueOf_perm _) hentries
  have hlast : s.presentSymbols.length - 1 ∈ s.firstQueue.map (·.2) := by
    rw [State.firstQueue, ((queueOf_perm _).map _).mem_iff, leafEntries_indices, List.mem_range'_1]
    omega
  have hlen : s.firstQueue.length = s.presentSymbols.length - 1 + 1 := by
    rw [State.firstQueue, length_queueOf_leafEntries]
    omega
  obtain ⟨tr, ⟨ls, hstores⟩, hleaves, hcost⟩ := State.Holds.mergeAll hf hlast hlen (by omega)
    (queueWeight_leafEntries_lt _ h256) fun k w hk => h.nodes ((builtNodes_merge _ k).trans hk)
  have hflat : (s.presentSymbols.map (fun x => CodeTree.leaf (BitVec.ofNat 8 x))).flatMap CodeTree.leaves =
      s.presentSymbols.map (BitVec.ofNat 8) := List.flatMap_map .. |>.trans List.map_eq_flatMap.symm
  have hsyms := hflat ▸ hleaves.trans (hperm.flatMap_right CodeTree.leaves)
  have hsize := tr.size_eq
  have hheight := tr.height_le
  rw [hsyms.length_eq, List.length_map] at hsize
  rw [show s.presentSymbols.length + (s.presentSymbols.length - 1) - 1 = t.root.toNat by rw [h.root]; omega] at hstores
  refine ⟨tr, State.currentTree_iff.mpr ⟨(hstores.traversal ?_).1, ?_, hsyms.nodup_iff.mpr s.presentSymbols_nodup⟩,
    hsyms, ?_⟩
  · rw [Config.maxNodes]; omega
  · rw [Config.maxNodes]; omega
  · rw [hcost, (hperm.map _).sum_eq]
    simp [CodeTree.cost, Function.comp_def, State.firstQueue]

/-- Settles O30: the words are those of `builtNodes`, a merge's children come before it (`mergeNodes_children`), and the
tree over the present symbols (`State.Built.currentTree`) has the stated size and height by the number of its leaves. -/
theorem buildShape : Obligations.BuildShape := by
  intro s t h he
  obtain ⟨h2, hb⟩ := built_of_errCode_zero h he
  have h256 := s.presentSymbols_length_le
  have hleaf : ∀ {i} (hi : i < s.presentSymbols.length),
      t.nodeAt i = leafWord (BitVec.ofNat 8 s.presentSymbols[i]) := fun hi =>
    hb.nodes (builtNodes_leaf _ (List.getElem?_eq_getElem hi))
  rw [hb.distinct]
  refine ⟨fun i hi => ?_, fun i j hij hj => ?_, fun x => ?_, fun i hi hlt => ?_, hb.root, ?_⟩
  · rw [hleaf hi, nodeIsLeaf_leafWord]
  · have hlt := List.pairwise_iff_getElem.mp s.presentSymbols_increasing i j (hij.trans hj) hj hij
    have hmax := (State.mem_presentSymbols.mp (List.getElem_mem hj)).1
    rw [hleaf (hij.trans hj), hleaf hj, nodeSym_leafWord, nodeSym_leafWord, BitVec.toNat_ofNat, BitVec.toNat_ofNat]
    omega
  · rw [← State.mem_presentSymbols_map, List.mem_iff_getElem]
    constructor
    · rintro ⟨i, hi, rfl⟩
      exact ⟨i, by simpa using hi, by rw [hleaf hi, nodeSym_leafWord, List.getElem_map]⟩
    · rintro ⟨i, hi, rfl⟩
      rw [List.length_map] at hi
      exact ⟨i, hi, by rw [hleaf hi, nodeSym_leafWord, List.getElem_map]⟩
  · obtain ⟨j, rfl⟩ := Nat.exists_eq_add_of_le hi
    have hlen := builtNodes_length s.freqAt (l := s.presentSymbols) (by omega)
    have hword := List.getElem?_eq_getElem (hlen ▸ hlt)
    obtain ⟨a, b, ha, hb', hw⟩ := mergeNodes_children (queueOf_leafEntries_indices_lt s.freqAt)
      ((builtNodes_merge _ j).symm.trans hword)
    have ha512 : a < 512 := by omega
    have hb512 : b < 512 := by omega
    rw [hb.nodes hword, hw, nodeIsLeaf_interiorWord ha512 hb512, nodeZero_interiorWord ha512 hb512,
      nodeOne_interiorWord ha512 hb512]
    exact ⟨rfl, ha, hb'⟩
  · obtain ⟨tr, htree, hsyms, -⟩ := hb.currentTree h2
    have hlen : tr.leaves.length = s.presentSymbols.length := by rw [hsyms.length_eq, List.length_map]
    have hsize := tr.size_eq
    have hheight := tr.height_le
    exact ⟨tr, htree, hlen, (State.currentTree_iff.mp htree).2.2,
      fun x => hsyms.mem_iff.trans State.mem_presentSymbols_map, by omega, by omega, h256⟩

end Sys2Proof.Machine
end

section
/-! SUPPORT. Optimality (R103). A tree's cost depends only on how its leaves' depths are paired with the counts. Any tree has
two leaves at its greatest depth that can be joined into one; exchanging puts the two least weights there at no greater
cost; so each merge of the two least costs no more than what any tree pays, by induction on the merges. -/

namespace Sys2Proof.Machine

/-! ### Depths and costs -/

/-- The depths of a tree's leaves, in the order of `leaves`. -/
def CodeTree.depths : CodeTree → List Nat
  | .leaf _ => [0]
  | .node z o => (z.depths ++ o.depths).map (· + 1)

theorem CodeTree.le_height_of_mem_depths {t : CodeTree} {d : Nat} (h : d ∈ t.depths) : d ≤ t.height := by
  induction t generalizing d with
  | leaf s => simpa [CodeTree.depths, CodeTree.height] using h
  | node z o hz ho =>
    simp only [CodeTree.depths, List.mem_map, List.mem_append] at h
    obtain ⟨d, hd | hd, rfl⟩ := h
    · have := hz hd
      rw [CodeTree.height]; omega
    · have := ho hd
      rw [CodeTree.height]; omega

/-- The cost of a pairing of depths with weights. -/
def pairCost (ps : List (Nat × Nat)) : Nat := (ps.map (fun p => p.1 * p.2)).sum

@[simp] theorem pairCost_cons (p : Nat × Nat) (ps : List (Nat × Nat)) :
    pairCost (p :: ps) = p.1 * p.2 + pairCost ps := List.sum_cons

theorem pairCost_append (ps qs : List (Nat × Nat)) : pairCost (ps ++ qs) = pairCost ps + pairCost qs := by
  simp [pairCost]

theorem pairCost_perm {ps qs : List (Nat × Nat)} (h : ps.Perm qs) : pairCost ps = pairCost qs := (h.map _).sum_eq

/-- One level deeper, each weight is paid once more. -/
theorem pairCost_deeper (ps : List (Nat × Nat)) :
    pairCost (ps.map (fun p => (p.1 + 1, p.2))) = pairCost ps + (ps.map Prod.snd).sum := by
  induction ps with
  | nil => rfl
  | cons p ps ih => simp only [List.map_cons, pairCost_cons, List.sum_cons, ih]; ring

/-- The pairing of a tree: each leaf's depth with its count. -/
def CodeTree.profile (count : Symbol → Nat) : CodeTree → List (Nat × Nat)
  | .leaf x => [(0, count x)]
  | .node z o => (z.profile count ++ o.profile count).map (fun p => (p.1 + 1, p.2))

theorem CodeTree.profile_fst (count : Symbol → Nat) (t : CodeTree) : (t.profile count).map Prod.fst = t.depths := by
  induction t with
  | leaf x => rfl
  | node z o hz ho => simp [CodeTree.profile, CodeTree.depths, ← hz, ← ho, Function.comp_def]

theorem CodeTree.profile_snd (count : Symbol → Nat) (t : CodeTree) :
    (t.profile count).map Prod.snd = t.leaves.map count := by
  induction t with
  | leaf x => rfl
  | node z o hz ho => simpa [CodeTree.profile, CodeTree.leaves, Function.comp_def] using congrArg₂ (· ++ ·) hz ho

/-- The weighted path length is the cost of the tree's pairing (R103). -/
theorem CodeTree.cost_eq_pairCost (count : Symbol → Nat) (t : CodeTree) : t.cost count = pairCost (t.profile count) := by
  induction t with
  | leaf x => simp [CodeTree.cost, CodeTree.profile, pairCost]
  | node z o hz ho =>
    rw [CodeTree.cost, CodeTree.profile, pairCost_deeper, pairCost_append, List.map_append, List.sum_append,
      CodeTree.profile_snd, CodeTree.profile_snd, hz, ho, CodeTree.weight, CodeTree.weight]
    omega

/-! ### The deepest pair of leaves -/

/-- Two leaves at depth `h + 1` can be joined into one at depth `h`, and what results are again the depths of a tree. -/
def CodeTree.Collapses (t : CodeTree) (h : Nat) : Prop :=
  ∃ (v : CodeTree) (ds : List Nat), t.depths.Perm ((h + 1) :: (h + 1) :: ds) ∧ v.depths.Perm (h :: ds)

theorem CodeTree.depths_node_comm (z o : CodeTree) : (CodeTree.node z o).depths.Perm (CodeTree.node o z).depths :=
  List.perm_append_comm.map _

theorem CodeTree.Collapses.node_zero {z : CodeTree} {h : Nat} (hz : z.Collapses h) (o : CodeTree) :
    (CodeTree.node z o).Collapses (h + 1) := by
  obtain ⟨v, ds, hz, hv⟩ := hz
  exact ⟨.node v o, (ds ++ o.depths).map (· + 1), (hz.append_right o.depths).map _, (hv.append_right o.depths).map _⟩

theorem CodeTree.Collapses.node_one {o : CodeTree} {h : Nat} (ho : o.Collapses h) (z : CodeTree) :
    (CodeTree.node z o).Collapses (h + 1) := by
  obtain ⟨v, ds, hd, hv⟩ := ho.node_zero z
  exact ⟨v, ds, (z.depths_node_comm o).trans hd, hv⟩

/-- A tree that is no leaf has two leaves at its greatest depth. -/
theorem CodeTree.collapses_of_height {t : CodeTree} {h : Nat} (ht : t.height = h + 1) : t.Collapses h := by
  induction t generalizing h with
  | leaf x => simp [CodeTree.height] at ht
  | node z o hz ho =>
    rw [CodeTree.height] at ht
    cases h with
    | zero =>
      match z, o with
      | .leaf x, .leaf y => exact ⟨.leaf x, [], .rfl, .rfl⟩
      | .node _ _, _ => simp [CodeTree.height] at ht
      | .leaf _, .node _ _ => simp [CodeTree.height] at ht
    | succ h =>
      obtain hmax | hmax : z.height = h + 1 ∨ o.height = h + 1 := by omega
      · exact (hz hmax).node_zero o
      · exact (ho hmax).node_one z

/-! ### Exchange -/

/-- The least weight may be moved to the greatest depth: the rest can be paired so that the whole costs no more. -/
theorem exists_exchange {ps : List (Nat × Nat)} {d w : Nat} {ds ws : List Nat} (hd : (ps.map Prod.fst).Perm (d :: ds))
    (hw : (ps.map Prod.snd).Perm (w :: ws)) (hmax : ∀ c ∈ ds, c ≤ d) (hmin : ∀ v ∈ ws, w ≤ v) :
    ∃ qs : List (Nat × Nat), (qs.map Prod.fst).Perm ds ∧ (qs.map Prod.snd).Perm ws ∧
      d * w + pairCost qs ≤ pairCost ps := by
  obtain ⟨⟨_, v⟩, hmem, rfl⟩ := List.mem_map.mp (hd.mem_iff.mpr (List.mem_cons_self ..))
  have hps := List.perm_cons_erase hmem
  generalize ps.erase _ = ps' at hps
  have hd' : (ps'.map Prod.fst).Perm ds := ((hps.map _).symm.trans hd).cons_inv
  have hw' : (v :: ps'.map Prod.snd).Perm (w :: ws) := (hps.map _).symm.trans hw
  rw [pairCost_perm hps, pairCost_cons]
  obtain rfl | hv := eq_or_ne v w
  · exact ⟨ps', hd', hw'.cons_inv, le_rfl⟩
  · have hvmem : v ∈ ws := List.mem_of_ne_of_mem hv (hw'.mem_iff.mp (List.mem_cons_self ..))
    have hwmem : w ∈ ps'.map Prod.snd := List.mem_of_ne_of_mem hv.symm (hw'.mem_iff.mpr (List.mem_cons_self ..))
    obtain ⟨⟨c, _⟩, hmem', rfl⟩ := List.mem_map.mp hwmem
    have hps' := List.perm_cons_erase hmem'
    generalize ps'.erase _ = rest at hps'
    have hds : (c :: rest.map Prod.fst).Perm ds := (hps'.map _).symm.trans hd'
    have hws := ((List.Perm.swap ..).trans ((hps'.map Prod.snd).symm.cons v)).trans hw'
    refine ⟨(c, v) :: rest, hds, hws.cons_inv, ?_⟩
    have hle := mul_add_mul_le_mul_add_mul (hmax c (hds.mem_iff.mp (List.mem_cons_self ..))) (hmin v hvmem)
    rw [pairCost_perm hps', pairCost_cons, pairCost_cons]
    dsimp only at hle ⊢
    omega

/-! ### The merges cost no more than any tree -/

/-- No tree pays less for the weights of a working set than the merges do (R99, R100, R103). -/
theorem mergeCost_le_pairCost {n m : Nat} {q : List QEntry} {t : CodeTree} {ps : List (Nat × Nat)}
    (hsorted : q.Pairwise LighterOrEqual) (hq : q.length = n + 1) (hweight : queueWeight q < 2 ^ 40)
    (hd : (ps.map Prod.fst).Perm t.depths) (hw : (ps.map Prod.snd).Perm (q.map (fun e => e.1.toNat))) :
    mergeCost n q m ≤ pairCost ps := by
  induction n generalizing m q t ps with
  | zero => exact Nat.zero_le _
  | succ n ih =>
    match q, hq with
    | (w1, a) :: (w2, b) :: q, hq =>
      obtain ⟨h1, hsorted'⟩ := List.pairwise_cons.mp hsorted
      obtain ⟨h2, hsorted''⟩ := List.pairwise_cons.mp hsorted'
      obtain ⟨h, hheight⟩ : ∃ h, t.height = h + 1 := by
        cases t with
        | leaf x =>
          have hone := hd.length_eq
          have htwo := hw.length_eq
          simp only [CodeTree.depths, List.length_map, List.length_cons, List.length_nil] at hone htwo
          omega
        | node z o => exact ⟨_, rfl⟩
      obtain ⟨v, ds, ht, hv⟩ := CodeTree.collapses_of_height hheight
      have hmax : ∀ c ∈ (h + 1) :: ds, c ≤ h + 1 := fun c hc =>
        hheight ▸ CodeTree.le_height_of_mem_depths (ht.mem_iff.mpr (List.mem_cons_of_mem _ hc))
      have hmin1 : ∀ x ∈ ((w2, b) :: q).map (fun e : QEntry => e.1.toNat), w1.toNat ≤ x :=
        List.forall_mem_map.mpr h1
      have hmin2 : ∀ x ∈ q.map (fun e : QEntry => e.1.toNat), w2.toNat ≤ x := List.forall_mem_map.mpr h2
      obtain ⟨ps1, hd1, hw1, hcost1⟩ := exists_exchange (hd.trans ht) hw hmax hmin1
      obtain ⟨ps2, hd2, hw2, hcost2⟩ := exists_exchange hd1 hw1 (fun c hc => hmax c (by simp [hc])) hmin2
      have hlen : (queueInsert (w1 + w2, m) q).length = n + 1 := by simpa using hq
      have hweights : (((h, (w1 + w2).toNat) :: ps2).map Prod.snd).Perm
          ((queueInsert (w1 + w2, m) q).map (fun e => e.1.toNat)) :=
        (hw2.cons (w1 + w2).toNat).trans ((queueInsert_perm (w1 + w2, m) q).map (fun e : QEntry => e.1.toNat)).symm
      have hnext := ih (m := m + 1) (ps := (h, (w1 + w2).toNat) :: ps2) (queueInsert_lighter hsorted'') hlen
        ((queueWeight_merge m hweight).trans_lt hweight) ((hd2.cons h).trans hv.symm) hweights
      rw [pairCost_cons, merge_weight_exact hweight] at hnext
      calc mergeCost (n + 1) ((w1, a) :: (w2, b) :: q) m
          = w1.toNat + w2.toNat + mergeCost n (queueInsert (w1 + w2, m) q) (m + 1) := rfl
        _ ≤ w1.toNat + w2.toNat + (h * (w1.toNat + w2.toNat) + pairCost ps2) := Nat.add_le_add_left hnext _
        _ = (h + 1) * w1.toNat + ((h + 1) * w2.toNat + pairCost ps2) := by ring
        _ ≤ (h + 1) * w1.toNat + pairCost ps1 := Nat.add_le_add_left hcost2 _
        _ ≤ pairCost ps := hcost1

/-- Settles O31: the tree costs what its merges cost (`State.Built.currentTree`), and no tree with its leaves costs less
than that (`mergeCost_le_pairCost`). -/
theorem buildTreeIsOptimal : Obligations.BuildTreeIsOptimal := by
  intro s t tr h he htree u hu
  obtain ⟨h2, hb⟩ := built_of_errCode_zero h he
  obtain ⟨tr', htree', hsyms, hcost⟩ := hb.currentTree h2
  obtain rfl : tr' = tr := Option.some.inj (htree'.symm.trans htree)
  have hlen : s.firstQueue.length = s.presentSymbols.length - 1 + 1 := by
    rw [State.firstQueue, length_queueOf_leafEntries]
    omega
  have hcounts : (s.presentSymbols.map (BitVec.ofNat 8)).map s.countIn =
      s.presentSymbols.map (fun x => (s.freqAt x).toNat) := by
    rw [List.map_map]
    exact List.map_congr_left fun x hx => s.countIn_ofNat (State.mem_presentSymbols.mp hx).1
  have hweights : ((u.profile s.countIn).map Prod.snd).Perm (s.firstQueue.map (fun e => e.1.toNat)) := by
    rw [CodeTree.profile_snd]
    refine ((hu.trans hsyms).map s.countIn).trans ?_
    rw [hcounts, ← leafEntries_weights s.freqAt 0]
    exact ((queueOf_perm _).map _).symm
  calc tr'.cost s.countIn
      = mergeCost (s.presentSymbols.length - 1) s.firstQueue s.presentSymbols.length := hcost
    _ ≤ pairCost (u.profile s.countIn) :=
      mergeCost_le_pairCost (queueOf_lighter _) hlen (queueWeight_leafEntries_lt _ s.presentSymbols_length_le)
        (.of_eq (u.profile_fst _)) hweights
    _ = u.cost s.countIn := (u.cost_eq_pairCost _).symm

end Sys2Proof.Machine
end

section
/-! SUPPORT. COUNT's result: the table it writes reads back, no count wraps, and DISTINCT is the number of different symbols
of the text (R95, R96). -/

namespace Sys2Proof.Machine

/-! ### The table of counts -/

theorem countTable_length (text : List Symbol) : (countTable text).length = 256 := by simp [countTable, Config.nsym]

/-- Each symbol's entry is its number of occurrences, which does not wrap (R96). -/
theorem countTable_toNat {text : List Symbol} (hlen : text.length < 2 ^ 32) (x : Symbol) :
    ((countTable text)[x.toNat]'(by rw [countTable_length]; exact x.isLt)).toNat = text.count x := by
  have hle : text.count x ≤ text.length := List.count_le_length
  simp only [countTable, List.getElem_map, List.getElem_range, BitVec.ofNat_toNat, BitVec.setWidth_eq,
    BitVec.toNat_ofNat]
  omega

/-- The numbers below 256 are the symbols, each once. -/
theorem nodup_symbols : ((List.range 256).map (BitVec.ofNat 8)).Nodup :=
  List.Nodup.map_on (fun x hx y hy hxy => by
    have hxy := congrArg BitVec.toNat hxy
    rw [List.mem_range] at hx hy
    rwa [BitVec.toNat_ofNat, BitVec.toNat_ofNat, Nat.mod_eq_of_lt hx, Nat.mod_eq_of_lt hy] at hxy) List.nodup_range

theorem mem_symbols (x : Symbol) : x ∈ (List.range 256).map (BitVec.ofNat 8) :=
  List.mem_map.mpr ⟨x.toNat, List.mem_range.mpr x.isLt, by rw [BitVec.ofNat_toNat, BitVec.setWidth_eq]⟩

/-- The entries that are not 0 are as many as the text has different symbols (R95). -/
theorem distinctIn_countTable {text : List Symbol} (hlen : text.length < 2 ^ 32) :
    distinctIn (countTable text) = text.dedup.length := by
  have hpresent : ∀ x : Symbol, (BitVec.ofNat 32 (text.count x) != 0) = decide (x ∈ text) := fun x => by
    have hle : text.count x ≤ text.length := List.count_le_length
    rw [Bool.eq_iff_iff, bne_iff_ne, decide_eq_true_eq, ← List.count_pos_iff, ne_eq, BitVec.toNat_eq,
      BitVec.toNat_ofNat, Nat.mod_eq_of_lt (by omega)]
    exact Nat.pos_iff_ne_zero.symm
  have hperm : (((List.range 256).map (BitVec.ofNat 8)).filter (fun x => decide (x ∈ text))).Perm text.dedup :=
    (List.perm_ext_iff_of_nodup (nodup_symbols.filter _) text.nodup_dedup).mpr fun x => by simp [mem_symbols]
  have htable : countTable text =
      ((List.range 256).map (BitVec.ofNat 8)).map (fun x => BitVec.ofNat 32 (text.count x)) := by
    rw [List.map_map]
    rfl
  rw [distinctIn, htable, List.countP_map, ← hperm.length_eq, ← List.countP_eq_length_filter]
  exact List.countP_congr fun x _ => by rw [Function.comp_apply, hpresent]

/-! ### COUNT's outcome (R95) -/

/-- FREQ after COUNT is the table. -/
theorem State.freqAt_countText (s : State) {table : List Word} {i : Nat} (hi : i < table.length) :
    (s.countText table).freqAt i = table[i] := by
  have hread : (s.putWords 0x001000 table).freqAt i = table[i] := State.wordAt_putWords hi
  rw [State.countText]
  split <;> exact hread

/-- COUNT with TEXT_LEN in range. -/
theorem execCount_of_le {s : State} (h : s.textLen.toNat ≤ s.capText.toNat) :
    exec .count s = .next (s.countText (countTable s.text)) :=
  congrArg Host.Outcome.next (if_neg (Nat.not_lt.mpr h))

theorem State.text_length (s : State) : s.text.length = s.textLen.toNat := by simp [State.text]

/-- Settles O25: FREQ reads back as the table (`State.freqAt_countText`), whose entries and whose entries other than 0 are
`countTable_toNat` and `distinctIn_countTable`; a text in range is shorter than 2^32. -/
theorem countCountsTheText : Obligations.CountCountsTheText := by
  intro s _ hle
  have hlen : s.text.length < 2 ^ 32 := s.text_length ▸ s.textLen.isLt
  have hdistinct := distinctIn_countTable hlen
  have h256 := distinctIn_countTable_le s.text
  refine ⟨_, execCount_of_le hle, fun x => ?_, ?_⟩
  · rw [s.freqAt_countText (by rw [countTable_length]; exact x.isLt)]
    exact countTable_toNat hlen x
  · rw [State.countText, hdistinct]
    rw [hdistinct] at h256
    have hnine : (BitVec.ofNat 9 s.text.dedup.length).toNat = s.text.dedup.length :=
      BitVec.toNat_ofNat .. |>.trans (Nat.mod_eq_of_lt (by omega))
    by_cases hfew : s.text.dedup.length < 2
    · have hinfo : (BitVec.ofNat 32 s.text.dedup.length).toNat = s.text.dedup.length :=
        BitVec.toNat_ofNat .. |>.trans (Nat.mod_eq_of_lt (by omega))
      rw [if_pos hfew, if_pos hfew]
      exact ⟨hnine, rfl, rfl, rfl, rfl, rfl, hinfo⟩
    · rw [if_neg hfew, if_neg hfew]
      exact ⟨hnine, rfl, rfl, rfl, rfl, rfl, rfl⟩

/-- Settles O26: BAD_LENGTH writes no memory, and the table takes the 1024 bytes of FREQ. -/
theorem countFrame : Obligations.CountFrame := by
  intro s t h
  obtain ⟨-, rfl⟩ | ⟨-, rfl⟩ := execCount_next h
  · exact ⟨rfl, fun _ _ => rfl⟩
  · have hbytes : SameBytesOutside 0x1000 0x1400 s (s.putWords 0x001000 (countTable s.text)) := fun a ha =>
      State.byteAt_putWords_outside (by rw [countTable_length]; omega)
    rw [State.countText]
    split <;> exact ⟨rfl, hbytes⟩

end Sys2Proof.Machine
end

section
/-! SUPPORT. The codes of a tree with distinct leaves (R105, R122): which symbols have one, how long it is, that no code
begins another, and the Kraft sum. -/

namespace Sys2Proof.Machine

theorem CodeTree.code_leaf (x : Symbol) : (CodeTree.leaf x).code x = [] := by
  simp [CodeTree.code, CodeTree.pathOf]

/-- In a tree with distinct leaves a symbol of the one subtree is not in the zero subtree. -/
theorem CodeTree.not_mem_zero {z o : CodeTree} {x : Symbol} (hn : (CodeTree.node z o).leaves.Nodup)
    (hx : x ∈ o.leaves) : x ∉ z.leaves := fun hz => (List.nodup_append.mp hn).2.2 x hz x hx rfl

/-- No symbol's path is empty where the root is interior. -/
theorem CodeTree.code_ne_nil {t : CodeTree} {x : Symbol} (ht : 2 ≤ t.size) (hx : x ∈ t.leaves) : t.code x ≠ [] := by
  cases t with
  | leaf s => simp [CodeTree.size] at ht
  | node z o =>
    by_cases hz : x ∈ z.leaves
    · rw [CodeTree.code_zero hz]
      exact List.cons_ne_nil _ _
    · rw [CodeTree.code_one hz ((List.mem_append.mp hx).resolve_left hz)]
      exact List.cons_ne_nil _ _

/-- No leaf's path begins another leaf's path (R105). -/
theorem CodeTree.eq_of_code_prefix {t : CodeTree} {x y : Symbol} (hx : x ∈ t.leaves) (hy : y ∈ t.leaves)
    (h : t.code x <+: t.code y) : x = y := by
  induction t with
  | leaf s =>
    rw [CodeTree.leaves, List.mem_singleton] at hx hy
    exact hx.trans hy.symm
  | node z o hz ho =>
    have hone : ∀ {w}, w ∈ (CodeTree.node z o).leaves → w ∉ z.leaves → w ∈ o.leaves := fun hw hwz =>
      (List.mem_append.mp hw).resolve_left hwz
    by_cases hxz : x ∈ z.leaves <;> by_cases hyz : y ∈ z.leaves
    · rw [CodeTree.code_zero hxz, CodeTree.code_zero hyz, List.cons_prefix_cons] at h
      exact hz hxz hyz h.2
    · rw [CodeTree.code_zero hxz, CodeTree.code_one hyz (hone hy hyz), List.cons_prefix_cons] at h
      exact absurd h.1 Bool.false_ne_true
    · rw [CodeTree.code_one hxz (hone hx hxz), CodeTree.code_zero hyz, List.cons_prefix_cons] at h
      exact absurd h.1.symm Bool.false_ne_true
    · rw [CodeTree.code_one hxz (hone hx hxz), CodeTree.code_one hyz (hone hy hyz), List.cons_prefix_cons] at h
      exact ho (hone hx hxz) (hone hy hyz) h.2

/-- The sum of 2^(−length) over the leaves is 1, every term multiplied by 2^h for any `h` no path is longer than (R105). -/
theorem CodeTree.kraft_sum {t : CodeTree} (hn : t.leaves.Nodup) {h : Nat} (hh : t.height ≤ h) :
    (t.leaves.map (fun x => 2 ^ (h - (t.code x).length))).sum = 2 ^ h := by
  induction t generalizing h with
  | leaf s => simp [CodeTree.leaves, CodeTree.code_leaf]
  | node z o hz ho =>
    rw [CodeTree.height] at hh
    obtain ⟨h, rfl⟩ : ∃ h', h = h' + 1 := ⟨h - 1, by omega⟩
    have hzero : z.leaves.map (fun x => 2 ^ (h + 1 - ((CodeTree.node z o).code x).length)) =
        z.leaves.map (fun x => 2 ^ (h - (z.code x).length)) := List.map_congr_left fun x hx => by
      rw [CodeTree.code_zero hx, List.length_cons, Nat.add_sub_add_right]
    have hone : o.leaves.map (fun x => 2 ^ (h + 1 - ((CodeTree.node z o).code x).length)) =
        o.leaves.map (fun x => 2 ^ (h - (o.code x).length)) := List.map_congr_left fun x hx => by
      rw [CodeTree.code_one (CodeTree.not_mem_zero hn hx) hx, List.length_cons, Nat.add_sub_add_right]
    obtain ⟨hnz, hno, -⟩ := List.nodup_append.mp hn
    rw [CodeTree.leaves, List.map_append, List.sum_append, hzero, hone, hz hnz (by omega), ho hno (by omega), pow_succ]
    omega

/-- Settles O44: the parts are `CodeTree.pathOf_isSome`, `CodeTree.code_ne_nil` with the height bounding every path,
`CodeTree.eq_of_code_prefix` and `CodeTree.kraft_sum`. -/
theorem codesArePrefixFreeAndComplete : Obligations.CodesArePrefixFreeAndComplete := by
  intro t hn
  refine ⟨t.pathOf_isSome, fun h2 h511 x hx => ⟨CodeTree.code_ne_nil h2 hx, ?_⟩,
    fun x hx y hy hne h => hne (CodeTree.eq_of_code_prefix hx hy h), CodeTree.kraft_sum hn le_rfl⟩
  have hlen := t.code_length_le x
  have hheight := t.height_le
  omega

end Sys2Proof.Machine
end

section
/-! SUPPORT. TENC's result (R110, R111): the sequences it writes read back, what it leaves alone, and that a tree's two
sequences are its own alone. -/

namespace Sys2Proof.Machine

/-! ### The flattening of a tree (R111) -/

theorem CodeTree.count_false_bits (t : CodeTree) : t.bits.count false = t.leaves.length := by
  induction t with
  | leaf x => rfl
  | node z o hz ho => simp [CodeTree.bits, CodeTree.leaves, hz, ho]

/-- There is one interior node fewer than leaves. -/
theorem CodeTree.count_true_bits (t : CodeTree) : t.bits.count true + 1 = t.leaves.length := by
  have hsum := List.count_false_add_count_true t.bits
  have hsize := t.size_eq
  rw [CodeTree.count_false_bits, CodeTree.bits_length] at hsum
  omega

/-- A flattening shows where it ends: two trees whose sequences begin the same two sequences are one tree, and they leave
the same rest (R111). -/
theorem CodeTree.eq_of_flattening_append {t u : CodeTree} {bs bs' : List Bool} {xs xs' : List Symbol}
    (hbits : t.bits ++ bs = u.bits ++ bs') (hleaves : t.leaves ++ xs = u.leaves ++ xs') :
    t = u ∧ bs = bs' ∧ xs = xs' := by
  induction t generalizing u bs bs' xs xs' with
  | leaf x =>
    cases u with
    | leaf y =>
      obtain ⟨rfl, hxs⟩ := List.cons.inj hleaves
      exact ⟨rfl, (List.cons.inj hbits).2, hxs⟩
    | node z o => exact absurd (List.cons.inj hbits).1 Bool.false_ne_true
  | node z o hz ho =>
    cases u with
    | leaf y => exact absurd (List.cons.inj hbits).1.symm Bool.false_ne_true
    | node z' o' =>
      simp only [CodeTree.bits, CodeTree.leaves, List.cons_append, List.append_assoc, List.cons.injEq, true_and]
        at hbits hleaves
      obtain ⟨rfl, hbits, hleaves⟩ := hz hbits hleaves
      obtain ⟨rfl, hrest⟩ := ho hbits hleaves
      exact ⟨rfl, hrest⟩

/-- The two sequences determine the tree, shape and symbols (R111). -/
theorem CodeTree.eq_of_flattening {t u : CodeTree} (hbits : t.bits = u.bits) (hleaves : t.leaves = u.leaves) : t = u :=
  (CodeTree.eq_of_flattening_append (bs := []) (bs' := []) (xs := []) (xs' := []) (by rw [hbits]) (by rw [hleaves])).1

/-! ### What TENC writes (R110) -/

/-- TENC of a valid tree. -/
theorem execTenc_of_currentTree {s : State} {tr : CodeTree} (hv : s.treeValid = true) (h : s.currentTree = some tr) :
    exec .tenc s = .next (s.flattenTree tr) := by
  rw [exec, execTenc, if_pos hv, h]

/-- TENC changes no byte outside the words of the bits and the entries of the symbols. -/
theorem State.byteAt_flattenTree_outside {s : State} {tr : CodeTree} {a : Nat}
    (hbits : a < 0x3000 ∨ 0x3000 + 4 * ((tr.bits.length + 31) / 32) ≤ a)
    (hleaves : a < 0x3400 ∨ 0x3400 + 4 * tr.leaves.length ≤ a) : (s.flattenTree tr).byteAt a = s.byteAt a := by
  have hsyms : (s.flattenTree tr).byteAt a = (s.putRun 0x003000 1 (packWords tr.bits)).byteAt a :=
    State.byteAt_putRun_outside (by omega) hleaves
  rw [hsyms]
  exact State.byteAt_putRun_outside Nat.one_pos (by rwa [packWords_length, packedBytes, Nat.one_mul])

section
variable {s : State} {tr : CodeTree} (hsize : tr.size ≤ Config.maxNodes)
include hsize

/-- TREE_BITS_LEN after TENC; at most 511 bits lose nothing in 32. -/
theorem State.treeBitsLen_flattenTree : (s.flattenTree tr).treeBitsLen.toNat = tr.bits.length := by
  rw [Config.maxNodes] at hsize
  exact BitVec.toNat_ofNat .. |>.trans (Nat.mod_eq_of_lt (by rw [CodeTree.bits_length]; omega))

theorem State.treeLeavesLen_flattenTree : (s.flattenTree tr).treeLeavesLen.toNat = tr.leaves.length := by
  have hleaves := tr.size_eq
  rw [Config.maxNodes] at hsize
  exact BitVec.toNat_ofNat .. |>.trans (Nat.mod_eq_of_lt (by omega))

/-- The bits TENC writes end below TREE_LEAVES, so the symbols that follow leave them alone. -/
theorem State.treeBitAt_flattenTree {i : Nat} (hi : i < 32 * ((tr.bits.length + 31) / 32)) :
    (s.flattenTree tr).treeBitAt i = (s.putRun 0x003000 1 (packWords tr.bits)).bitAt 0x003000 i := by
  rw [CodeTree.bits_length] at hi
  rw [Config.maxNodes] at hsize
  exact State.bitAt_congr (State.byteAt_putRun_outside (by omega) (.inl (by omega)))

theorem State.treeBitSeq_flattenTree : (s.flattenTree tr).treeBitSeq = tr.bits := by
  rw [State.treeBitSeq, State.treeBitsLen_flattenTree hsize]
  refine Eq.trans (List.map_congr_left fun i hi => ?_) (State.bits_putRun_packWords s 0x003000 tr.bits)
  have hi := List.mem_range.mp hi
  exact State.treeBitAt_flattenTree hsize (by omega)

theorem State.treeLeafSeq_flattenTree : (s.flattenTree tr).treeLeafSeq = tr.leaves := by
  rw [State.treeLeafSeq, State.treeLeavesLen_flattenTree hsize]
  exact State.bytes_putRun _ 0x003400 4 (by omega) tr.leaves

/-- The unused bits of the last word are 0. -/
theorem State.treeBitAt_flattenTree_unused {i : Nat} (hlen : tr.bits.length ≤ i)
    (hi : i < 32 * ((tr.bits.length + 31) / 32)) : (s.flattenTree tr).treeBitAt i = false := by
  rw [State.treeBitAt_flattenTree hsize hi, State.bitAt_putRun_packWords hi, List.getD_eq_default _ _ hlen]

end

/-! ### The obligations -/

/-- Settles O33: TENC ends in `State.flattenTree`, whose sequences read back; its runs lie outside NODE
(`State.SameTables.flattenTree`), so the tree is still there. -/
theorem tencFlattensTheTree : Obligations.TencFlattensTheTree := by
  intro s tr hv htree
  obtain ⟨-, hsize, -⟩ := State.currentTree_iff.mp htree
  have htables := State.SameTables.flattenTree s hsize
  exact ⟨_, execTenc_of_currentTree hv htree, State.treeBitsLen_flattenTree hsize, State.treeLeavesLen_flattenTree hsize,
    State.treeBitSeq_flattenTree hsize, State.treeLeafSeq_flattenTree hsize,
    fun _ => State.treeBitAt_flattenTree_unused hsize, rfl, rfl, rfl, rfl, htables.treeValid, htables.pathsValid,
    htables.currentTree.trans htree⟩

/-- Settles O34: R37 gives the tree TENC flattens; the counts and the tree's uniqueness are by induction over it
(`CodeTree.count_false_bits`, `CodeTree.eq_of_flattening_append`). -/
theorem flatteningDeterminesTheTree : Obligations.FlatteningDeterminesTheTree := by
  refine ⟨fun s hv harena => ?_, fun t => ?_, fun _ _ => CodeTree.eq_of_flattening⟩
  · obtain ⟨tr, htree, hcount⟩ := harena.currentTree hv
    obtain ⟨-, hsize, -⟩ := State.currentTree_iff.mp htree
    exact ⟨_, tr, execTenc_of_currentTree hv htree, htree, hcount, State.treeBitSeq_flattenTree hsize,
      State.treeLeafSeq_flattenTree hsize⟩
  · have hones := t.count_true_bits
    have hsize := t.size_eq
    exact ⟨t.bits_length, t.count_false_bits, by omega, by omega, t.leaves_pos⟩

/-- Settles O35: NO_TREE writes no memory, and a valid tree's two runs are `State.byteAt_flattenTree_outside`. -/
theorem tencFrame : Obligations.TencFrame := by
  intro s t h
  obtain ⟨-, rfl⟩ | ⟨hv, tr, htree, rfl⟩ := execTenc_next h
  · exact ⟨rfl, fun _ _ _ _ _ => rfl, fun _ _ => rfl⟩
  · refine ⟨rfl, fun u a hu hbits hleaves => ?_, fun hn => absurd hv (by simp [hn])⟩
    obtain rfl : tr = u := Option.some.inj (htree.symm.trans hu)
    exact State.byteAt_flattenTree_outside hbits hleaves

end Sys2Proof.Machine
end

section
/-! SUPPORT. How `build()` runs on sequences that begin as a tree's flattening: to the whole tree, or to the first step
that fails; and the errors it can end in (R116, R117). -/

namespace Sys2Proof.Machine

/-! ### The whole tree -/

/-- Symbols already used, and those of the zero subtree, count as used in the one subtree. -/
theorem nodup_append_seen {zs os seen : List Symbol} (h : (zs ++ os ++ seen).Nodup) :
    (zs ++ seen).Nodup ∧ (os ++ (zs.reverse ++ seen)).Nodup := by
  have hperm : (os ++ (zs.reverse ++ seen)).Perm (zs ++ os ++ seen) := by
    rw [← List.append_assoc]
    exact (List.perm_append_comm.trans (zs.reverse_perm.append_right os)).append_right seen
  exact ⟨h.sublist ((List.sublist_append_left zs os).append_right seen), hperm.nodup_iff.mpr h⟩

/-- `build()` reads a tree's flattening from the front of the sequences and leaves what follows it (R115, R117). -/
theorem unflatten_flattening {t : CodeTree} {fuel : Nat} {bs : List Bool} {xs seen : List Symbol} {p j : Nat}
    (hfuel : t.bits.length ≤ fuel) (hseen : (t.leaves ++ seen).Nodup) :
    unflatten fuel (t.bits ++ bs) (t.leaves ++ xs) seen p j =
      .ok ⟨t.words p, bs, xs, t.leaves.reverse ++ seen, p + t.bits.length, j + t.leaves.length⟩ := by
  induction t generalizing fuel bs xs seen p j with
  | leaf x =>
    obtain ⟨fuel, rfl⟩ := Nat.exists_eq_succ_of_ne_zero (Nat.ne_zero_of_lt hfuel)
    have hx : x ∉ seen := (List.nodup_cons.mp hseen).1
    simp [CodeTree.bits, CodeTree.leaves, CodeTree.words, unflatten, hx]
  | node z o hz ho =>
    obtain ⟨fuel, rfl⟩ := Nat.exists_eq_succ_of_ne_zero (Nat.ne_zero_of_lt hfuel)
    simp only [CodeTree.bits, List.length_cons, List.length_append] at hfuel
    obtain ⟨hzero, hone⟩ := nodup_append_seen hseen
    simp only [CodeTree.bits, CodeTree.leaves, List.cons_append, List.append_assoc, unflatten,
      hz (by omega : z.bits.length ≤ fuel) hzero, ho (by omega : o.bits.length ≤ fuel) hone]
    simp [CodeTree.words, CodeTree.bits_length, Nat.add_assoc, Nat.add_comm]

/-! ### The first failing step -/

/-- A tree has a leaf bit for each of its leaves, as many leaf bits before it as leaves. -/
theorem CodeTree.exists_leaf_bit (t : CodeTree) {j : Nat} (hj : j < t.leaves.length) :
    ∃ p, t.bits[p]? = some false ∧ (t.bits.take p).count false = j := by
  rw [← CodeTree.count_false_bits] at hj
  have hp := List.idxOfNth_lt_length_of_lt_count hj
  refine ⟨t.bits.idxOfNth false j, ?_, ?_⟩
  · rw [List.getElem?_eq_getElem hp, List.getElem_idxOfNth_eq]
  · rw [← List.countBefore_eq_count_take, List.countBefore_idxOfNth_of_lt_count hj]

/-- No more leaf bits stand in a part of the bits than the tree has leaves. -/
theorem CodeTree.count_take_bits_le (t : CodeTree) (n : Nat) : (t.bits.take n).count false ≤ t.leaves.length :=
  t.count_false_bits ▸ (List.take_sublist n t.bits).count_le false

/-- An error in the zero subtree is the error of the whole (R117). -/
theorem unflatten_zero_error {fuel : Nat} {bits : List Bool} {leaves seen : List Symbol} {p j : Nat} {e : CmdError}
    (hz : unflatten fuel bits leaves seen (p + 1) j = .error e) :
    unflatten (fuel + 1) (true :: bits) leaves seen p j = .error e := by
  simp only [unflatten, hz]

/-- So is an error in the one subtree, after the zero subtree (R117). -/
theorem unflatten_one_error {fuel : Nat} {bits : List Bool} {leaves seen : List Symbol} {p j : Nat} {e : CmdError}
    {z : Parsed} (hz : unflatten fuel bits leaves seen (p + 1) j = .ok z)
    (ho : unflatten fuel z.bits z.leaves z.seen z.p z.j = .error e) :
    unflatten (fuel + 1) (true :: bits) leaves seen p j = .error e := by
  simp only [unflatten, hz, ho]

/-- The first failing step in pre-order decides the error (R116): where the sequences are a tree's up to bit `n` and
up to the leaves before it, and the step at bit `n` fails, `build()` fails as that step does. -/
theorem unflatten_error_at {t : CodeTree} {n k fuel : Nat} {bs : List Bool} {xs seen : List Symbol} {p j : Nat}
    {e : CmdError} (hn : n < t.bits.length) (hk : (t.bits.take n).count false = k) (hfuel : n + bs.length ≤ fuel)
    (hseen : (t.leaves.take k ++ seen).Nodup)
    (hstep : ∀ f, bs.length ≤ f → unflatten f bs xs ((t.leaves.take k).reverse ++ seen) (p + n) (j + k) = .error e) :
    unflatten fuel (t.bits.take n ++ bs) (t.leaves.take k ++ xs) seen p j = .error e := by
  induction t generalizing n k fuel xs seen p j with
  | leaf x =>
    obtain rfl : n = 0 := Nat.lt_one_iff.mp hn
    subst hk
    exact hstep fuel (by omega)
  | node z o hz ho =>
    cases n with
    | zero =>
      subst hk
      exact hstep fuel (by omega)
    | succ n =>
      obtain ⟨fuel, rfl⟩ : ∃ f, fuel = f + 1 := ⟨fuel - 1, by omega⟩
      simp only [CodeTree.bits, List.length_cons, List.length_append] at hn
      simp only [CodeTree.bits, List.take_succ_cons, List.count_cons_of_ne (by decide : true ≠ false)] at hk
      simp only [CodeTree.bits, List.take_succ_cons, List.cons_append]
      simp only [CodeTree.leaves] at hseen hstep ⊢
      by_cases hlt : n < z.bits.length
      · have hbits : (z.bits ++ o.bits).take n = z.bits.take n := List.take_append_of_le_length hlt.le
        rw [hbits] at hk ⊢
        have hleaves : (z.leaves ++ o.leaves).take k = z.leaves.take k :=
          List.take_append_of_le_length (hk ▸ z.count_take_bits_le n)
        rw [hleaves] at hseen hstep ⊢
        refine unflatten_zero_error (hz hlt hk (by omega) hseen fun f hf => ?_)
        rw [Nat.add_right_comm]
        exact hstep f hf
      · obtain ⟨m, rfl⟩ := Nat.exists_eq_add_of_le (Nat.le_of_not_lt hlt)
        have hbits : (z.bits ++ o.bits).take (z.bits.length + m) = z.bits ++ o.bits.take m :=
          List.take_length_add_append ..
        rw [hbits, List.count_append, CodeTree.count_false_bits] at hk
        subst hk
        have hleaves : (z.leaves ++ o.leaves).take (z.leaves.length + (o.bits.take m).count false) =
            z.leaves ++ o.leaves.take ((o.bits.take m).count false) := List.take_length_add_append ..
        rw [hleaves] at hseen hstep ⊢
        rw [hbits, List.append_assoc, List.append_assoc]
        obtain ⟨hzero, hone⟩ := nodup_append_seen hseen
        refine unflatten_one_error (unflatten_flattening (by omega) hzero)
          (ho (by omega) rfl (by omega) hone fun f hf => ?_)
        have hfail := hstep f hf
        rw [List.reverse_append, List.append_assoc, ← Nat.add_assoc j,
          show p + (z.bits.length + m + 1) = p + 1 + z.bits.length + m by omega] at hfail
        exact hfail

/-! ### The whole sequences -/

/-- The flattening of a tree with distinct leaves parses to that tree's words (R115, R117). -/
theorem parseTree_flattening {t : CodeTree} (hn : t.leaves.Nodup) : parseTree t.bits t.leaves =
    .ok ⟨t.words 0, [], [], t.leaves.reverse, t.bits.length, t.leaves.length⟩ := by
  have h := unflatten_flattening (bs := []) (xs := []) (seen := []) (p := 0) (j := 0) (le_refl t.bits.length) (by simpa)
  simp only [List.append_nil, Nat.zero_add] at h
  simp [parseTree, h]

/-- Bits or symbols left over are TREE_TRAILING (check 6 of R116). -/
theorem parseTree_trailing {t : CodeTree} {bs : List Bool} {xs : List Symbol} (hn : t.leaves.Nodup)
    (hrest : bs ≠ [] ∨ xs ≠ []) : parseTree (t.bits ++ bs) (t.leaves ++ xs) =
      .error ⟨.treeTrailing, pairInfo t.leaves.length t.bits.length⟩ := by
  have hfuel : t.bits.length ≤ (t.bits ++ bs).length := by simp
  have h := unflatten_flattening (bs := bs) (xs := xs) (seen := []) (p := 0) (j := 0) hfuel (by simpa using hn)
  rw [parseTree, h]
  simp [hrest]

/-- A failing step on the way through a tree is the error of the whole (R116). -/
theorem parseTree_error_at {t : CodeTree} {n k : Nat} {bs : List Bool} {xs : List Symbol} {e : CmdError}
    (hn : n < t.bits.length) (hk : (t.bits.take n).count false = k) (hseen : (t.leaves.take k).Nodup)
    (hstep : ∀ f, bs.length ≤ f → unflatten f bs xs (t.leaves.take k).reverse n k = .error e) :
    parseTree (t.bits.take n ++ bs) (t.leaves.take k ++ xs) = .error e := by
  have hfuel : n + bs.length ≤ (t.bits.take n ++ bs).length := by simp; omega
  rw [parseTree, unflatten_error_at hn hk hfuel (by simpa using hseen) (by simpa using hstep)]

/-- Bits cut off after `n` (check 3 of R116). -/
theorem parseTree_bitsUnderrun {t : CodeTree} {n : Nat} (hn : n < t.bits.length) (hd : t.leaves.Nodup) :
    parseTree (t.bits.take n) t.leaves = .error ⟨.treeBitsUnderrun, BitVec.ofNat 32 n⟩ := by
  have h := parseTree_error_at (bs := []) (xs := t.leaves.drop ((t.bits.take n).count false)) hn rfl
    (hd.sublist (List.take_sublist ..)) (e := ⟨.treeBitsUnderrun, BitVec.ofNat 32 n⟩) fun f _ => by cases f <;> rfl
  rwa [List.append_nil, List.take_append_drop] at h

/-- At a leaf bit whose symbol is missing, or is one of those before it, the step fails (checks 4 and 5 of R116). -/
theorem parseTree_error_at_leaf {t : CodeTree} {j p : Nat} {xs : List Symbol} {e : CmdError}
    (hbit : t.bits[p]? = some false) (hj : (t.bits.take p).count false = j) (hd : (t.leaves.take j).Nodup)
    (hstep : ∀ f bs, unflatten (f + 1) (false :: bs) xs (t.leaves.take j).reverse p j = .error e) :
    parseTree t.bits (t.leaves.take j ++ xs) = .error e := by
  obtain ⟨hp, hbit⟩ := List.getElem?_eq_some_iff.mp hbit
  have hdrop : t.bits.drop p = false :: t.bits.drop (p + 1) := by rw [List.drop_eq_getElem_cons hp, hbit]
  have h := parseTree_error_at (bs := t.bits.drop p) (xs := xs) (e := e) hp hj hd fun f hf => by
    rw [hdrop] at hf ⊢
    obtain ⟨f, rfl⟩ := Nat.exists_eq_succ_of_ne_zero (Nat.ne_zero_of_lt hf)
    exact hstep f _
  rwa [List.take_append_drop] at h

/-- Symbols cut off after `j`, where leaf bit `j` stands at `p` (check 4 of R116). -/
theorem parseTree_leavesUnderrun {t : CodeTree} {j p : Nat} (hbit : t.bits[p]? = some false)
    (hj : (t.bits.take p).count false = j) (hd : t.leaves.Nodup) :
    parseTree t.bits (t.leaves.take j) = .error ⟨.treeLeavesUnderrun, BitVec.ofNat 32 p⟩ := by
  have h := parseTree_error_at_leaf (xs := []) hbit hj (hd.sublist (List.take_sublist ..)) fun _ _ => rfl
  rwa [List.append_nil] at h

/-- The symbol of leaf `j`, whose bit stands at `p`, is one of those before it (check 5 of R116). -/
theorem parseTree_duplicateSymbol {t : CodeTree} {j p : Nat} {x : Symbol} (hbit : t.bits[p]? = some false)
    (hj : (t.bits.take p).count false = j) (hd : (t.leaves.take j).Nodup) (hx : t.leaves[j]? = some x)
    (hmem : x ∈ t.leaves.take j) : parseTree t.bits t.leaves = .error ⟨.duplicateSymbol, pairInfo j p⟩ := by
  obtain ⟨hlt, rfl⟩ := List.getElem?_eq_some_iff.mp hx
  have h := parseTree_error_at_leaf (xs := t.leaves.drop j) (e := ⟨.duplicateSymbol, pairInfo j p⟩) hbit hj hd
    fun f bs => by
      rw [List.drop_eq_getElem_cons hlt]
      simp only [unflatten, List.mem_reverse, if_pos hmem]
  rwa [List.take_append_drop] at h

/-- The errors of `build()` are those of checks 3 to 5 (R116). -/
theorem unflatten_error {fuel : Nat} {bits : List Bool} {leaves seen : List Symbol} {p j : Nat} {e : CmdError}
    (h : unflatten fuel bits leaves seen p j = .error e) :
    e.code ∈ [ErrCode.treeBitsUnderrun, .treeLeavesUnderrun, .duplicateSymbol] := by
  induction fuel generalizing bits leaves seen p j with
  | zero =>
    cases h
    simp
  | succ fuel ih =>
    match bits with
    | [] =>
      cases h
      simp
    | false :: bits =>
      cases leaves with
      | nil =>
        cases h
        simp
      | cons x rest =>
        simp only [unflatten] at h
        split at h <;> cases h
        simp
    | true :: bits =>
      simp only [unflatten] at h
      split at h
      · rename_i hz
        exact ih (h ▸ hz)
      · split at h
        · rename_i ho
          exact ih (h ▸ ho)
        · cases h

/-- TDEC's data errors have the codes 0x02 to 0x05 (R118). -/
theorem parseTree_error_code {bits : List Bool} {leaves : List Symbol} {e : CmdError}
    (h : parseTree bits leaves = .error e) : 2 ≤ e.code.code.toNat ∧ e.code.code.toNat ≤ 5 := by
  rw [parseTree] at h
  split at h
  · rename_i hr
    cases h
    exact (by decide : ∀ c ∈ [ErrCode.treeBitsUnderrun, .treeLeavesUnderrun, .duplicateSymbol],
      2 ≤ c.code.toNat ∧ c.code.toNat ≤ 5) e.code (unflatten_error hr)
  · split at h <;> cases h
    exact (by decide : 2 ≤ ErrCode.treeTrailing.code.toNat ∧ ErrCode.treeTrailing.code.toNat ≤ 5)

end Sys2Proof.Machine
end

section
/-! SUPPORT. What TDEC leaves (R115 to R120): after a flattening the tree it was made from, after any other pair of
sequences the first defect's error. -/

namespace Sys2Proof.Machine

theorem State.treeBitSeq_length (s : State) : s.treeBitSeq.length = s.treeBitsLen.toNat := by simp [State.treeBitSeq]

theorem State.treeLeafSeq_length (s : State) : s.treeLeafSeq.length = s.treeLeavesLen.toNat := by
  simp [State.treeLeafSeq]

/-- A tree of at most 256 leaves has at most 511 nodes (R120). -/
theorem CodeTree.bits_length_le {t : CodeTree} (h : t.leaves.length ≤ 256) : t.bits.length ≤ 511 := by
  have hsize := t.size_eq
  rw [CodeTree.bits_length]
  omega

/-- TDEC with both lengths in range. -/
theorem execTdec_of_le {s : State} (hbits : s.treeBitsLen.toNat ≤ 511) (hleaves : s.treeLeavesLen.toNat ≤ 256) :
    exec .tdec s = .next (s.rebuildTree (parseTree s.treeBitSeq s.treeLeafSeq)) := by
  rw [exec, execTdec, if_neg (show ¬ Config.treeBitsMax < _ from Nat.not_lt.mpr hbits),
    if_neg (show ¬ Config.treeLeavesMax < _ from Nat.not_lt.mpr hleaves)]

/-- What a TDEC of the flattening of `tr` that succeeds in state `s` leaves in state `t` (R115, R117). -/
structure State.Rebuilt (s t : State) (tr : CodeTree) : Prop where
  registers : t = { s with
    eng := .idle, done := true, errCode := 0, errInfo := 0, root := 0, nodeCount := t.nodeCount
    treeValid := true, pathsValid := false, mem := t.mem }
  nodeCount : t.nodeCount.toNat = tr.bits.length
  frame : SameBytesOutside 0x2000 (0x2000 + 4 * tr.bits.length) s t
  currentTree : t.currentTree = some tr
  indices : t.indicesAt 511 0 = List.range tr.bits.length

/-- TDEC of a flattening leaves its tree (R117). -/
theorem State.rebuilt_rebuildTree (s : State) {tr : CodeTree} (hn : tr.leaves.Nodup) (hlen : tr.bits.length ≤ 511) :
    s.Rebuilt (s.rebuildTree (parseTree tr.bits tr.leaves)) tr := by
  have hsize := tr.bits_length
  have hheight := tr.height_le
  rw [parseTree_flattening hn]
  generalize ht : s.rebuildTree (.ok _) = t
  have hstores : t.Stores tr 0 (List.range tr.bits.length) := by
    rw [hsize, List.range_eq_range']
    refine State.stores_of_words (by omega) fun k w hk => ?_
    rw [Nat.zero_add, ← ht]
    exact s.nodeAt_putWords hk
  obtain ⟨htree, hindices⟩ := hstores.traversal (fuel := 511) (by omega)
  subst ht
  exact {
    registers := rfl
    nodeCount := BitVec.toNat_ofNat .. |>.trans (Nat.mod_eq_of_lt (show tr.bits.length < 2 ^ 9 by omega))
    frame := fun a ha => State.byteAt_putWords_outside (by rwa [CodeTree.words_length, ← hsize])
    currentTree := State.currentTree_iff.mpr ⟨htree, hsize ▸ hlen, hn⟩
    indices := hindices }

/-- How TDEC ends: BAD_LENGTH; a data error; or it read the flattening of a tree with distinct leaves (R116, R120). -/
theorem execTdec_cases {s t : State} (h : exec .tdec s = .next t) :
    (∃ e, t = s.fail e) ∨ (∃ e, t = s.rebuildTree (.error e)) ∨
    ∃ tr : CodeTree, s.treeBitSeq = tr.bits ∧ s.treeLeafSeq = tr.leaves ∧ tr.leaves.Nodup ∧ tr.leaves.length ≤ 256 ∧
      s.Rebuilt t tr := by
  obtain ⟨-, rfl⟩ | ⟨-, -, rfl⟩ | ⟨-, hleaves, rfl⟩ := execTdec_next h
  · exact .inl ⟨_, rfl⟩
  · exact .inl ⟨_, rfl⟩
  · cases hr : parseTree s.treeBitSeq s.treeLeafSeq with
    | error e => exact .inr (.inl ⟨e, rfl⟩)
    | ok r =>
      obtain ⟨tr, hbits, hsyms, hn, -, -⟩ := parseTree_ok hr
      rw [← s.treeLeafSeq_length, hsyms] at hleaves
      rw [← hr, hbits, hsyms]
      exact .inr (.inr ⟨tr, rfl, rfl, hn, hleaves, s.rebuilt_rebuildTree hn (CodeTree.bits_length_le hleaves)⟩)

/-- After a TDEC data error every byte outside NODE is as it was (R118). -/
theorem State.sameBytesOutside_unspecified_node (s : State) :
    SameBytesOutside 0x2000 0x27FC s (s.unspecified [.node]) := by
  refine fun a ha => State.byteAt_unspecified_outside fun r hr => ?_
  obtain rfl := List.mem_singleton.mp hr
  rw [← Bool.not_eq_true, Region.owns_iff]
  simp only [Region.base, Region.span]
  omega

/-- The bytes of NODE are those of no window before it (R62). -/
theorem State.regionOf_node (s : State) {a : Nat} (h1 : 0x2000 ≤ a) (h2 : a < 0x27FC) : s.regionOf a = some .node := by
  have hfreq : Region.owns s.capText.toNat s.capMsg.toNat .freq a = false := by
    rw [← Bool.not_eq_true, Region.owns_iff]
    simp only [Region.base, Region.span]
    omega
  have hnode : Region.owns s.capText.toNat s.capMsg.toNat .node a = true := by
    rw [Region.owns_iff]
    exact ⟨⟨h1, h2⟩, fun h => Bool.noConfusion h⟩
  simp [State.regionOf, Region.all, hfreq, hnode]

/-- A TDEC data error writes its code and detail word (R141, R117). -/
theorem execTdec_of_error {s : State} {bits : List Bool} {leaves : List Symbol} {e : CmdError}
    (h : parseTree bits leaves = .error e) (hlbits : s.treeBitsLen.toNat ≤ 511) (hlleaves : s.treeLeavesLen.toNat ≤ 256)
    (hbits : s.treeBitSeq = bits) (hleaves : s.treeLeafSeq = leaves) :
    ∃ t, exec .tdec s = .next t ∧ t.errCode = e.code.code ∧ t.errInfo = e.info := by
  rw [execTdec_of_le hlbits hlleaves, hbits, hleaves, h]
  exact ⟨_, rfl, rfl, rfl⟩

/-! ### The obligations -/

/-- Settles O36: both lengths are in range, and `State.rebuilt_rebuildTree` is what TDEC then leaves. -/
theorem tdecRebuildsAFlattenedTree : Obligations.TdecRebuildsAFlattenedTree := by
  intro s tr hn hlen hbits hleaves
  have hlen511 := CodeTree.bits_length_le hlen
  have hr := s.rebuilt_rebuildTree hn hlen511
  have hexec := execTdec_of_le (s := s) (by rwa [← s.treeBitSeq_length, hbits])
    (by rwa [← s.treeLeafSeq_length, hleaves])
  rw [hbits, hleaves] at hexec
  have hreg := hr.registers
  refine ⟨_, hexec, ?_, ?_, ?_, ?_, ?_, ?_, ?_, hr.nodeCount, hr.currentTree, hr.indices⟩ <;> rw [hreg]

/-- Settles O37: a success is a flattening's (`execTdec_cases`), and the bounds are those of a tree with at most
256 leaves. -/
theorem tdecAcceptsOnlyFlattenedTrees : Obligations.TdecAcceptsOnlyFlattenedTrees := by
  intro s t h he
  obtain ⟨e, rfl⟩ | ⟨e, rfl⟩ | ⟨tr, hbits, hleaves, hn, hlen, hr⟩ := execTdec_cases h
  · exact absurd he e.code.code_bounds.1
  · exact absurd he e.code.code_bounds.1
  · have hsize := tr.size_eq
    have hheight := tr.height_le
    exact ⟨tr, hbits, hleaves, hn, hr.currentTree, hlen, by omega, by omega⟩

/-- Settles O38: each defect stops `build()` at its own step (`parseTree_bitsUnderrun`, `parseTree_leavesUnderrun`,
`parseTree_duplicateSymbol`), or is found when the tree is complete (`parseTree_trailing`). -/
theorem tdecNamesTheFirstDefect : Obligations.TdecNamesTheFirstDefect := by
  intro s tr hlbits hlleaves
  refine ⟨fun n hn hd => ?_, fun j hj hd hbits hleaves => ?_, fun j x hd hx hmem hbits hleaves => ?_,
    fun bs xs hd hrest => ?_⟩
  · have hp := parseTree_bitsUnderrun hn hd
    exact execTdec_of_error hp hlbits hlleaves
  · obtain ⟨p, hbit, hcount⟩ := tr.exists_leaf_bit hj
    have hp := parseTree_leavesUnderrun hbit hcount hd
    obtain ⟨t, ht, hcode, hinfo⟩ := execTdec_of_error hp hlbits hlleaves hbits hleaves
    exact ⟨t, p, ht, hcode, hinfo, hbit, hcount⟩
  · obtain ⟨p, hbit, hcount⟩ := tr.exists_leaf_bit (List.getElem?_eq_some_iff.mp hx).1
    have hp := parseTree_duplicateSymbol hbit hcount hd hx hmem
    obtain ⟨t, ht, hcode, hinfo⟩ := execTdec_of_error hp hlbits hlleaves hbits hleaves
    exact ⟨t, p, ht, hcode, hinfo, hbit, hcount⟩
  · have hp := parseTree_trailing hd hrest
    exact execTdec_of_error hp hlbits hlleaves

/-- Settles O41: TENC writes the flattening of the current tree, whose leaves R37 keeps distinct and whose nodes it
bounds, and TDEC rebuilds it (`tdecRebuildsAFlattenedTree`). -/
theorem flattenThenUnflattenKeepsTheTree : Obligations.FlattenThenUnflattenKeepsTheTree := by
  intro s hv harena
  obtain ⟨tr, htree, -⟩ := harena.currentTree hv
  obtain ⟨-, hsize, hn⟩ := State.currentTree_iff.mp htree
  have hlen : tr.leaves.length ≤ 256 := by
    have := tr.size_eq
    rw [Config.maxNodes] at hsize
    omega
  obtain ⟨t, ht, hcode, -, -, -, hvalid, -, -, -, htree', -⟩ := tdecRebuildsAFlattenedTree (s.flattenTree tr) tr hn hlen
    (State.treeBitSeq_flattenTree hsize) (State.treeLeafSeq_flattenTree hsize)
  exact ⟨_, t, tr, htree, execTenc_of_currentTree hv htree, ht, rfl, hcode, hvalid, htree'⟩

/-- Settles O39: the error is one of `parseTree_error_code`, and only NODE becomes unspecified. -/
theorem tdecDataErrorState : Obligations.TdecDataErrorState := by
  intro s e hbits hleaves h
  obtain ⟨hlow, hhigh⟩ := parseTree_error_code h
  have hframe := s.sameBytesOutside_unspecified_node
  refine ⟨s.rebuildTree (.error e), by rw [execTdec_of_le hbits hleaves, h], rfl, hlow, hhigh, fun a h1 h2 => ?_,
    hframe, ?_, ?_⟩
  · exact State.byteAt_unspecified (s.regionOf_node h1 h2) (List.mem_singleton.mpr rfl)
  · exact List.map_congr_left fun i _ => State.bitAt_congr (hframe _ (by omega))
  · exact List.map_congr_left fun j _ => hframe _ (by omega)

/-- Settles O40: BAD_LENGTH writes no memory, a data error leaves all but NODE alone, and a success writes one entry of
NODE for each bit it read. -/
theorem tdecFrame : Obligations.TdecFrame := by
  intro s t h
  obtain ⟨e, rfl⟩ | ⟨e, rfl⟩ | ⟨tr, -, -, -, hlen, hr⟩ := execTdec_cases h
  · exact ⟨rfl, fun _ _ => rfl, fun _ _ _ => rfl⟩
  · exact ⟨rfl, s.sameBytesOutside_unspecified_node, fun he => absurd he e.code.code_bounds.1⟩
  · have hlen511 := CodeTree.bits_length_le hlen
    refine ⟨?_, fun a ha => hr.frame a (by omega), fun _ => hr.nodeCount ▸ hr.frame⟩
    rw [hr.registers]

end Sys2Proof.Machine
end

section
/-! SUPPORT. The path table that PATHS and SENC leave (R122 to R124): the path stage writes the codes of the current tree,
neither command writes CODE_LEN or CODE_BITS after it, and what R105 says of the codes then holds of the table. -/

namespace Sys2Proof.Machine

/-! ### Codes and branches (R122) -/

/-- No code of a tree with at most 511 nodes is longer than 255 (R124). -/
theorem CodeTree.code_length_le_255 {t : CodeTree} (h : t.size ≤ Config.maxNodes) (x : Symbol) :
    (t.code x).length ≤ 255 := by
  have hlen := t.code_length_le x
  have hheight := t.height_le
  rw [Config.maxNodes] at h
  omega

/-- Two sequences neither of which begins the other differ at a place within both. -/
theorem exists_getD_ne {p q : List Bool} (hpq : ¬ p <+: q) (hqp : ¬ q <+: p) :
    ∃ j, j < p.length ∧ j < q.length ∧ p.getD j false ≠ q.getD j false := by
  induction p generalizing q with
  | nil => exact absurd List.nil_prefix hpq
  | cons b p ih =>
    cases q with
    | nil => exact absurd List.nil_prefix hqp
    | cons c q =>
      by_cases hbc : b = c
      · subst hbc
        obtain ⟨j, hp, hq, hne⟩ := ih (fun h => hpq (List.cons_prefix_cons.mpr ⟨rfl, h⟩))
          (fun h => hqp (List.cons_prefix_cons.mpr ⟨rfl, h⟩))
        exact ⟨j + 1, Nat.succ_lt_succ hp, Nat.succ_lt_succ hq, hne⟩
      · exact ⟨0, Nat.succ_pos _, Nat.succ_pos _, hbc⟩

/-- A path of an interior node's tree that begins with a 0 goes on in the zero subtree. -/
theorem CodeTree.pathOf_node_false {z o : CodeTree} {x : Symbol} {p : List Bool} :
    (CodeTree.node z o).pathOf x = some (false :: p) ↔ z.pathOf x = some p := by
  rw [CodeTree.pathOf]
  cases z.pathOf x <;> cases o.pathOf x <;> simp

/-- One that begins with a 1 goes on in the one subtree, where the leaves are distinct. -/
theorem CodeTree.pathOf_node_true {z o : CodeTree} {x : Symbol} {p : List Bool}
    (hn : (CodeTree.node z o).leaves.Nodup) :
    (CodeTree.node z o).pathOf x = some (true :: p) ↔ o.pathOf x = some p := by
  rw [CodeTree.pathOf]
  cases hz : z.pathOf x with
  | none => cases o.pathOf x <;> simp
  | some q =>
    have ho : o.pathOf x = none := by
      rw [← Option.not_isSome_iff_eq_none, CodeTree.pathOf_isSome]
      exact fun hx => CodeTree.not_mem_zero hn hx ((z.pathOf_isSome x).mp (Option.isSome_of_mem hz))
    simp [ho]

theorem CodeTree.pathOf_node_ne_nil {z o : CodeTree} {x : Symbol} : (CodeTree.node z o).pathOf x ≠ some [] := by
  rw [CodeTree.pathOf]
  cases z.pathOf x <;> cases o.pathOf x <;> simp

/-- Settles O43: by induction over the tree, one branch at a time (`CodeTree.pathOf_node_false`,
`CodeTree.pathOf_node_true`). -/
theorem bitPathLeadsToTheLeaf : Obligations.BitPathLeadsToTheLeaf := by
  intro t x p hn
  induction t generalizing p with
  | leaf y =>
    cases p with
    | nil => simp [CodeTree.pathOf, CodeTree.follow]
    | cons b p => simp [CodeTree.pathOf, CodeTree.follow]
  | node z o hz ho =>
    obtain ⟨hnz, hno, -⟩ := List.nodup_append.mp hn
    match p with
    | [] => simp [CodeTree.pathOf_node_ne_nil, CodeTree.follow]
    | false :: p => exact CodeTree.pathOf_node_false.trans (hz p hnz)
    | true :: p => exact (CodeTree.pathOf_node_true hn).trans (ho p hno)

/-! ### The table (R123) -/

/-- CODE_LEN and CODE_BITS hold the codes of `tr`, 0 past each code's end and for a symbol with no leaf (R38, R123). -/
def State.PathTable (s : State) (tr : CodeTree) : Prop :=
  ∀ x : Symbol, (s.codeLenAt x.toNat).toNat = (tr.code x).length ∧
    ∀ j < 256, s.codeBitAt x.toNat j = (tr.code x).getD j false

theorem State.PathTable.codeLen {s : State} {tr : CodeTree} (h : s.PathTable tr) (x : Symbol) :
    (s.codeLenAt x.toNat).toNat = (tr.code x).length := (h x).1

theorem State.PathTable.codeBit {s : State} {tr : CodeTree} (h : s.PathTable tr) (x : Symbol) {j : Nat} (hj : j < 256) :
    s.codeBitAt x.toNat j = (tr.code x).getD j false := (h x).2 j hj

/-- The path stage writes the table. -/
theorem State.pathTable_pathStage (s : State) {tr : CodeTree} (h : tr.size ≤ Config.maxNodes) :
    (s.pathStage tr).PathTable tr := by
  intro x
  have hlen := CodeTree.code_length_le_255 h x
  have hx : BitVec.ofNat 8 x.toNat = x := by rw [BitVec.ofNat_toNat, BitVec.setWidth_eq]
  refine ⟨?_, fun j hj => ?_⟩
  · rw [s.codeLenAt_pathStage tr x.isLt, hx, BitVec.toNat_ofNat]
    exact Nat.mod_eq_of_lt (by omega)
  · rw [s.codeBitAt_pathStage tr x.isLt hj, hx]

theorem State.SameTables.pathTable {s t : State} {tr : CodeTree} (h : s.SameTables t) (hs : s.PathTable tr) :
    t.PathTable tr := by
  intro x
  have hx := x.isLt
  refine ⟨?_, fun j hj => ?_⟩
  · rw [← hs.codeLen x, State.codeLenAt, h.pathBytes _ (by omega) (by omega)]
    rfl
  · rw [← hs.codeBit x hj]
    exact State.bitAt_congr (h.pathBytes _ (by omega) (by omega))

/-- The path stage writes no register but STATUS (R123). -/
theorem State.pathStage_registers (s : State) (tr : CodeTree) :
    s.pathStage tr = { s with pathsValid := true, mem := (s.pathStage tr).mem } := rfl

/-- The path stage leaves the arena alone. -/
theorem State.SameArena.pathStage (s : State) (tr : CodeTree) : s.SameArena (s.pathStage tr) :=
  ⟨rfl, rfl, rfl, fun _ _ _ => State.byteAt_pathStage_outside (by omega) (by omega)⟩

/-- State `t` has the valid tree `tr` and its path table. -/
structure State.Pathed (t : State) (tr : CodeTree) : Prop where
  pathsValid : t.pathsValid = true
  treeValid : t.treeValid = true
  currentTree : t.currentTree = some tr
  pathTable : t.PathTable tr

/-- What follows the path stage and keeps its table leaves the tree and its table. -/
theorem State.SameTables.pathed {s t : State} {tr : CodeTree} (h : (s.pathStage tr).SameTables t)
    (hv : s.treeValid = true) (htree : s.currentTree = some tr) : t.Pathed tr where
  pathsValid := h.pathsValid
  treeValid := h.treeValid.trans hv
  currentTree := h.currentTree.trans ((State.SameArena.pathStage s tr).currentTree.trans htree)
  pathTable := h.pathTable (s.pathTable_pathStage (State.currentTree_iff.mp htree).2.1)

/-! ### Which commands run the path stage -/

/-- PATHS of a valid tree whose root is interior. -/
theorem execPaths_of_currentTree {s : State} {tr : CodeTree} (hv : s.treeValid = true) (hroot : s.rootIsLeaf = false)
    (htree : s.currentTree = some tr) : exec .paths s = .next (s.pathStage tr).complete := by
  rw [exec, execPaths, if_pos hv, if_neg (by rw [hroot]; exact Bool.false_ne_true), htree]

/-- PATHS and SENC run the path stage on the current tree, whose root is interior, and keep its table, unless a check-phase
error stops them (R123, R125). -/
theorem exec_runs_pathStage {i : Instr} {s t : State} (hi : i = .paths ∨ i = .senc) (h : exec i s = .next t)
    (hnoTree : t.errCode ≠ 0x06) (hdegenerate : t.errCode ≠ 0x07) (hbadLength : t.errCode ≠ 0x0C) :
    ∃ tr, s.treeValid = true ∧ s.rootIsLeaf = false ∧ s.currentTree = some tr ∧ (s.pathStage tr).SameTables t := by
  obtain rfl | rfl := hi
  · obtain ⟨-, rfl⟩ | ⟨-, -, rfl⟩ | ⟨hv, hroot, tr, htree, rfl⟩ := execPaths_next h
    · exact absurd rfl hnoTree
    · exact absurd rfl hdegenerate
    · exact ⟨tr, hv, hroot, htree, .complete _⟩
  · obtain ⟨-, rfl⟩ | ⟨-, -, rfl⟩ | ⟨-, -, -, rfl⟩ | ⟨-, hv, hroot, tr, htree, rfl⟩ := execSenc_next h
    · exact absurd rfl hbadLength
    · exact absurd rfl hnoTree
    · exact absurd rfl hdegenerate
    · exact ⟨tr, hv, hroot, htree, .storeMessage _ _⟩

/-- A tree with an interior root has more than one node. -/
theorem State.two_le_size {s : State} {tr : CodeTree} (hroot : s.rootIsLeaf = false) (htree : s.currentTree = some tr) :
    2 ≤ tr.size := by
  obtain ⟨hat, -, -⟩ := State.currentTree_iff.mp htree
  cases tr with
  | leaf x =>
    rw [Config.maxNodes, State.treeAt_succ, if_neg (by rw [← State.rootIsLeaf, hroot]; exact Bool.false_ne_true)] at hat
    split at hat <;> cases hat
  | node z o =>
    have hz := z.size_pos
    rw [CodeTree.size]
    omega

/-! ### The obligations -/

/-- Settles O45: the table holds the tree's codes (`exec_runs_pathStage`, `State.SameTables.pathed`), of which
`CodeTree.code_ne_nil`, `CodeTree.eq_of_code_prefix` and `CodeTree.kraft_sum` say the same. -/
theorem pathTableProperties : Obligations.PathTableProperties := by
  intro i s t hi h h6 h7 hC
  obtain ⟨tr, hv, hroot, htree, htables⟩ := exec_runs_pathStage hi h h6 h7 hC
  have htable := (htables.pathed hv htree).pathTable
  obtain ⟨-, hsize, hn⟩ := State.currentTree_iff.mp htree
  refine ⟨tr, htree, fun x => ?_, fun x hx y hy hne => ?_, ?_⟩
  · rw [ne_eq, BitVec.toNat_eq, htable.codeLen]
    refine ⟨fun hlen => by_contra fun hx => hlen ?_, fun hx hlen => ?_⟩
    · rw [CodeTree.code_of_not_mem hx]
      rfl
    · exact CodeTree.code_ne_nil (State.two_le_size hroot htree) hx (List.length_eq_zero_iff.mp hlen)
  · obtain ⟨j, hjx, hjy, hbit⟩ := exists_getD_ne (fun hp => hne (CodeTree.eq_of_code_prefix hx hy hp))
      (fun hp => hne (CodeTree.eq_of_code_prefix hy hx hp).symm)
    have hlen := CodeTree.code_length_le_255 hsize x
    have hj : j < 256 := by omega
    rw [← htable.codeBit x hj, ← htable.codeBit y hj] at hbit
    rw [htable.codeLen, htable.codeLen]
    exact ⟨j, hjx, hjy, hbit⟩
  · have hheight := tr.height_le
    rw [Config.maxNodes] at hsize
    simp only [htable.codeLen]
    exact CodeTree.kraft_sum hn (by omega)

/-- Settles O42: PATHS is the path stage, and completion keeps its table. -/
theorem pathsBuildsTheTable : Obligations.PathsBuildsTheTable := by
  intro s tr hv hroot htree
  obtain ⟨hpaths, hvalid, hcurrent, htable⟩ := State.SameTables.pathed (.complete (s.pathStage tr)) hv htree
  exact ⟨_, execPaths_of_currentTree hv hroot htree, rfl, rfl, rfl, rfl, hpaths, hvalid, hcurrent, htable⟩

/-- Settles O46: both errors write no memory, and the path stage's bytes are `State.byteAt_pathStage_outside`. -/
theorem pathsFrame : Obligations.PathsFrame := by
  intro s t h
  obtain ⟨-, rfl⟩ | ⟨-, -, rfl⟩ | ⟨-, -, tr, -, rfl⟩ := execPaths_next h
  · exact ⟨rfl, fun _ _ _ => rfl⟩
  · exact ⟨rfl, fun _ _ _ => rfl⟩
  · refine ⟨?_, fun _ => State.byteAt_pathStage_outside⟩
    rw [State.pathStage_registers]
    rfl

end Sys2Proof.Machine
end

section
/-! SUPPORT. SENC's result (R125 to R127): its loop places the codes of the text in order until one has no leaf or does not
fit, the message it stores reads back, and the message's length as a sum over the text and over the tree. -/

namespace Sys2Proof.Machine

/-! ### The encode loop (R125) -/

/-- The loop passes over symbols that have a code while their codes fit. -/
theorem encodeText_append {t : CodeTree} {cap : Nat} {done rest : List Symbol} {i pos : Nat}
    (hcode : ∀ x ∈ done, t.code x ≠ []) (hfit : pos + (done.flatMap t.code).length ≤ cap) :
    encodeText t cap (done ++ rest) i pos =
      (encodeText t cap rest (i + done.length) (pos + (done.flatMap t.code).length)).map (done.flatMap t.code ++ ·) := by
  induction done generalizing i pos with
  | nil =>
    simp only [List.nil_append, List.flatMap_nil, List.length_nil, Nat.add_zero]
    cases encodeText t cap rest i pos <;> rfl
  | cons x done ih =>
    rw [List.flatMap_cons, List.length_append] at hfit
    have hstep := ih (i := i + 1) (pos := pos + (t.code x).length) (fun y hy => hcode y (List.mem_cons_of_mem _ hy))
      (by omega)
    rw [List.cons_append, encodeText, if_neg (hcode x List.mem_cons_self), if_neg (by omega), hstep,
      List.flatMap_cons, List.length_append, List.length_cons, Nat.add_assoc i, Nat.add_comm 1, Nat.add_assoc pos]
    cases encodeText t cap rest (i + (done.length + 1)) _ <;> simp [Except.map]

/-- A text all of whose symbols have a code, and whose codes fit, encodes to its codes in order. -/
theorem encodeText_eq_ok {t : CodeTree} {cap : Nat} {text : List Symbol} (hcode : ∀ x ∈ text, t.code x ≠ [])
    (hfit : (text.flatMap t.code).length ≤ cap) : encodeText t cap text 0 0 = .ok (text.flatMap t.code) := by
  have h := encodeText_append (cap := cap) (rest := []) (i := 0) (pos := 0) hcode (by rwa [Nat.zero_add])
  rwa [List.append_nil, encodeText, Except.map, List.append_nil] at h

/-- The loop stops at the first symbol that has no leaf or whose code does not fit (R125, R143). -/
theorem encodeText_error_at {t : CodeTree} {cap : Nat} {done rest : List Symbol} {x : Symbol} (ht : 2 ≤ t.size)
    (hdone : ∀ y ∈ done, y ∈ t.leaves) (hfit : (done.flatMap t.code).length ≤ cap)
    (hx : x ∉ t.leaves ∨ cap < ((done ++ [x]).flatMap t.code).length) :
    encodeText t cap (done ++ x :: rest) 0 0 =
      .error ⟨if x ∈ t.leaves then .msgOverflow else .unencodableSymbol, BitVec.ofNat 32 done.length⟩ := by
  rw [encodeText_append (fun y hy => CodeTree.code_ne_nil ht (hdone y hy)) (by rwa [Nat.zero_add]), Nat.zero_add,
    Nat.zero_add, encodeText]
  by_cases hleaf : x ∈ t.leaves
  · have hover := hx.resolve_left (not_not_intro hleaf)
    rw [List.flatMap_append, List.length_append, List.flatMap_singleton] at hover
    rw [if_neg (CodeTree.code_ne_nil ht hleaf), if_pos hover, if_pos hleaf]
    rfl
  · rw [if_pos (CodeTree.code_of_not_mem hleaf), if_neg hleaf]
    rfl

/-- Only the codes of the whole text in order are a success. -/
theorem encodeText_ok {t : CodeTree} {cap : Nat} {text : List Symbol} {i pos : Nat} {bits : List Bool}
    (h : encodeText t cap text i pos = .ok bits) : bits = text.flatMap t.code ∧ ∀ x ∈ text, t.code x ≠ [] := by
  induction text generalizing i pos bits with
  | nil =>
    cases h
    exact ⟨rfl, fun _ hx => absurd hx List.not_mem_nil⟩
  | cons x text ih =>
    rw [encodeText] at h
    split at h
    · cases h
    · rename_i hx
      split at h
      · cases h
      · split at h
        · cases h
        · rename_i rest hrest
          cases h
          obtain ⟨rfl, hcode⟩ := ih hrest
          exact ⟨rfl, List.forall_mem_cons.mpr ⟨hx, hcode⟩⟩

/-- The loop has two errors (R143). -/
theorem encodeText_error {t : CodeTree} {cap : Nat} {text : List Symbol} {i pos : Nat} {e : CmdError}
    (h : encodeText t cap text i pos = .error e) : e.code = .unencodableSymbol ∨ e.code = .msgOverflow := by
  induction text generalizing i pos e with
  | nil => cases h
  | cons x text ih =>
    rw [encodeText] at h
    split at h
    · cases h
      exact .inl rfl
    · split at h
      · cases h
        exact .inr rfl
      · split at h
        · rename_i hrest
          cases h
          exact ih hrest
        · cases h

/-! ### What SENC stores (R125, R126) -/

/-- SENC with TEXT_LEN in range and a valid tree whose root is interior. -/
theorem execSenc_of_currentTree {s : State} {tr : CodeTree} (hlen : s.textLen.toNat ≤ s.capText.toNat)
    (hv : s.treeValid = true) (hroot : s.rootIsLeaf = false) (htree : s.currentTree = some tr) :
    exec .senc s = .next ((s.pathStage tr).storeMessage (encodeText tr s.capMsg.toNat s.text 0 0)) := by
  rw [exec, execSenc, if_neg (Nat.not_lt.mpr hlen), if_pos hv, if_neg (by rw [hroot]; exact Bool.false_ne_true), htree]

/-- How SENC ends: a check-phase error; a data error of the loop; or it stores the codes of the text in order, every symbol
having one and all of them fitting (R125). -/
theorem execSenc_cases {s t : State} (h : exec .senc s = .next t) :
    (∃ e, t = s.fail e) ∨
    ∃ tr, s.currentTree = some tr ∧
      ((∃ e : CmdError, (e.code = .unencodableSymbol ∨ e.code = .msgOverflow) ∧
          t = (s.pathStage tr).storeMessage (.error e)) ∨
        ((∀ x ∈ s.text, x ∈ tr.leaves) ∧ (s.text.flatMap tr.code).length ≤ s.capMsg.toNat ∧
          t = (s.pathStage tr).storeMessage (.ok (s.text.flatMap tr.code)))) := by
  obtain ⟨-, rfl⟩ | ⟨-, -, rfl⟩ | ⟨-, -, -, rfl⟩ | ⟨-, -, -, tr, htree, rfl⟩ := execSenc_next h
  · exact .inl ⟨_, rfl⟩
  · exact .inl ⟨_, rfl⟩
  · exact .inl ⟨_, rfl⟩
  · refine .inr ⟨tr, htree, ?_⟩
    cases hr : encodeText tr s.capMsg.toNat s.text 0 0 with
    | error e => exact .inl ⟨e, encodeText_error hr, rfl⟩
    | ok bits =>
      have hfit := encodeText_length_le hr (Nat.zero_le _)
      obtain ⟨rfl, hcode⟩ := encodeText_ok hr
      exact .inr ⟨fun x hx => by_contra fun hleaf => hcode x hx (CodeTree.code_of_not_mem hleaf),
        by rwa [Nat.zero_add] at hfit, rfl⟩

/-- A data error's registers and the model's own fields (R126, R141). -/
theorem State.storeMessage_error_registers (s : State) (e : CmdError) :
    s.storeMessage (.error e) = { s with
      eng := .idle, done := true, errCode := e.code.code, errInfo := e.info, msgLen := 0
      mem := (s.storeMessage (.error e)).mem, epochs := (s.storeMessage (.error e)).epochs
      draws := (s.storeMessage (.error e)).draws } := rfl

/-- A success's registers (R125, R140). -/
theorem State.storeMessage_ok_registers (s : State) (bits : List Bool) :
    s.storeMessage (.ok bits) = { s with
      eng := .idle, done := true, errCode := 0, errInfo := 0, msgLen := (s.storeMessage (.ok bits)).msgLen
      mem := (s.storeMessage (.ok bits)).mem } := rfl

/-- After a data error every byte that MSG_BITS does not own is as it was (R126). -/
theorem State.byteAt_storeMessage_error {s : State} {e : CmdError} {a : Nat}
    (h : Region.owns s.capText.toNat s.capMsg.toNat .msgBits a = false) :
    (s.storeMessage (.error e)).byteAt a = s.byteAt a :=
  State.byteAt_unspecified_outside fun r hr => by
    obtain rfl := List.mem_singleton.mp hr
    exact h

section
variable {s : State} {bits : List Bool}

/-- SENC's last part writes the words of the message and nothing else in memory. -/
theorem State.byteAt_storeMessage_outside {a : Nat} (ha : a < 0x300000 ∨ 0x300000 + 4 * ((bits.length + 31) / 32) ≤ a) :
    (s.storeMessage (.ok bits)).byteAt a = s.byteAt a :=
  State.byteAt_putRun_outside Nat.one_pos (by rwa [packWords_length, packedBytes, Nat.one_mul])

theorem State.msgBitAt_storeMessage {i : Nat} (hi : i < 32 * ((bits.length + 31) / 32)) :
    (s.storeMessage (.ok bits)).msgBitAt i = bits.getD i false :=
  State.bitAt_putRun_packWords hi

/-- MSG_LEN after a success; a message within MAX_MSG_BITS loses nothing in 32 bits. -/
theorem State.msgLen_storeMessage (hfit : bits.length ≤ s.capMsg.toNat) :
    (s.storeMessage (.ok bits)).msgLen.toNat = bits.length :=
  BitVec.toNat_ofNat .. |>.trans (Nat.mod_eq_of_lt (hfit.trans_lt s.capMsg.isLt))

theorem State.message_storeMessage (hfit : bits.length ≤ s.capMsg.toNat) :
    (s.storeMessage (.ok bits)).message = bits := by
  rw [State.message, State.msgLen_storeMessage hfit]
  exact State.bits_putRun_packWords s 0x300000 bits

end

/-! ### Sums over the text and over the tree (R127) -/

/-- A sum over a text is one over the symbols it is made of, each as often as it occurs. -/
theorem sum_map_eq_sum_count {text syms : List Symbol} (hn : syms.Nodup) (hmem : ∀ x ∈ text, x ∈ syms)
    (f : Symbol → Nat) : (text.map f).sum = (syms.map (fun x => text.count x * f x)).sum := by
  rw [Finset.sum_list_map_count, ← List.sum_toFinset _ hn]
  refine Finset.sum_subset (fun x hx => ?_) fun x _ hx => ?_
  · exact List.mem_toFinset.mpr (hmem x (List.mem_toFinset.mp hx))
  · rw [List.count_eq_zero_of_not_mem (fun h => hx (List.mem_toFinset.mpr h)), zero_smul]

/-- Each leaf's depth is its code's length. -/
theorem CodeTree.profile_eq_codes {t : CodeTree} (hn : t.leaves.Nodup) (count : Symbol → Nat) :
    t.profile count = t.leaves.map (fun x => ((t.code x).length, count x)) := by
  induction t with
  | leaf x => simp [CodeTree.profile, CodeTree.leaves, CodeTree.code_leaf]
  | node z o hz ho =>
    obtain ⟨hnz, hno, -⟩ := List.nodup_append.mp hn
    rw [CodeTree.profile, CodeTree.leaves, hz hnz, ho hno, List.map_append, List.map_append, List.map_map, List.map_map]
    congr 1
    · exact List.map_congr_left fun x hx => by rw [CodeTree.code_zero hx]; rfl
    · exact List.map_congr_left fun x hx => by rw [CodeTree.code_one (CodeTree.not_mem_zero hn hx) hx]; rfl

/-- The weighted path length is the sum over the leaves of count times code length (R127). -/
theorem CodeTree.cost_eq_sum_codes {t : CodeTree} (hn : t.leaves.Nodup) (count : Symbol → Nat) :
    t.cost count = (t.leaves.map (fun x => count x * (t.code x).length)).sum := by
  rw [CodeTree.cost_eq_pairCost, CodeTree.profile_eq_codes hn, pairCost, List.map_map]
  exact congrArg List.sum (List.map_congr_left fun x _ => Nat.mul_comm ..)

/-! ### The obligations -/

/-- Settles O47: the loop gives the codes of the text (`encodeText_eq_ok`), which read back from MSG_BITS, and the tables
are as the path stage left them. -/
theorem sencEncodesTheText : Obligations.SencEncodesTheText := by
  intro s tr hlen hv hroot htree hleaves hfit
  have hcode : ∀ x ∈ s.text, tr.code x ≠ [] := fun x hx =>
    CodeTree.code_ne_nil (State.two_le_size hroot htree) (hleaves x hx)
  have hexec := execSenc_of_currentTree hlen hv hroot htree
  rw [encodeText_eq_ok hcode hfit] at hexec
  have hmsgLen := State.msgLen_storeMessage (s := s.pathStage tr) hfit
  obtain ⟨hpaths, hvalid, hcurrent, htable⟩ :=
    State.SameTables.pathed (.storeMessage (s.pathStage tr) (.ok (s.text.flatMap tr.code))) hv htree
  refine ⟨_, hexec, rfl, rfl, rfl, rfl, hpaths, hvalid, hcurrent, State.message_storeMessage hfit, hmsgLen,
    fun i hge hlt => ?_, htable⟩
  rw [hmsgLen] at hge hlt
  rw [State.msgBitAt_storeMessage hlt, List.getD_eq_default _ _ hge]

/-- Settles O48: the loop stops at `x` (`encodeText_error_at`), only MSG_BITS becomes unspecified, and the tables are as the
path stage left them. -/
theorem sencDataErrors : Obligations.SencDataErrors := by
  intro s tr done rest x hlen hv hroot htree htext hdone hfit hx
  have hexec := execSenc_of_currentTree hlen hv hroot htree
  rw [htext, encodeText_error_at (State.two_le_size hroot htree) hdone hfit hx] at hexec
  refine ⟨_, hexec, ?_, fun a ha => ?_, fun a hlens hbits hmsg => ?_,
    (State.SameTables.pathed (.storeMessage ..) hv htree).pathTable⟩
  · rw [State.storeMessage_error_registers, State.pathStage_registers]
    by_cases hleaf : x ∈ tr.leaves <;> simp [hleaf, ErrCode.code]
  · exact State.byteAt_unspecified (s := s.pathStage tr) ha (List.mem_singleton.mpr rfl)
  · exact (State.byteAt_storeMessage_error (s := s.pathStage tr) hmsg).trans
      (State.byteAt_pathStage_outside hlens hbits)

/-- Settles O49: the message is the codes of the text in order, so its length is a sum over the text, which is the one over
all symbols, or over the leaves, with their counts (`sum_map_eq_sum_count`). -/
theorem messageLengthIsTheWeightedPathLength : Obligations.MessageLengthIsTheWeightedPathLength := by
  intro s t tr h he htree
  obtain ⟨e, rfl⟩ | ⟨tr', htree', ⟨e, -, rfl⟩ | ⟨hleaves, hfit, rfl⟩⟩ := execSenc_cases h
  · exact absurd he e.code.code_bounds.1
  · exact absurd he e.code.code_bounds.1
  · obtain rfl : tr' = tr := Option.some.inj (htree'.symm.trans htree)
    obtain ⟨-, hsize, hn⟩ := State.currentTree_iff.mp htree
    have htable := (State.SameTables.storeMessage (s.pathStage tr') (.ok (s.text.flatMap tr'.code))).pathTable
      (s.pathTable_pathStage hsize)
    have hsum : (s.text.flatMap tr'.code).length = (s.text.map (fun x => (tr'.code x).length)).sum :=
      List.length_flatMap
    rw [State.msgLen_storeMessage (s := s.pathStage tr') hfit, hsum]
    simp only [htable.codeLen, true_and]
    refine fun hcount => ⟨?_, ?_⟩
    · rw [sum_map_eq_sum_count nodup_symbols (fun x _ => mem_symbols x), List.map_map]
      refine congrArg List.sum (List.map_congr_left fun i hi => ?_)
      have hi : (BitVec.ofNat 8 i).toNat = i := Nat.mod_eq_of_lt (List.mem_range.mp hi)
      rw [Function.comp_apply, ← hcount, ← htable.codeLen, hi]
    · rw [CodeTree.cost_eq_sum_codes hn, sum_map_eq_sum_count hn hleaves]
      simp only [hcount]

/-- Settles O50: a check-phase error writes no memory, the path stage writes the path table alone, and SENC's last part
writes the message's words, or after a data error nothing outside MSG_BITS. -/
theorem sencFrame : Obligations.SencFrame := by
  intro s t h
  obtain ⟨e, rfl⟩ | ⟨tr, -, ⟨e, hcode, rfl⟩ | ⟨-, hfit, rfl⟩⟩ := execSenc_cases h
  · exact ⟨rfl, fun _ _ _ _ => rfl, fun _ _ _ => rfl, fun _ _ => rfl⟩
  · refine ⟨?_, fun a hlens hbits ha => ?_, fun he => absurd he e.code.code_bounds.1, fun he => ?_⟩
    · rw [State.storeMessage_error_registers, State.pathStage_registers]
    · refine (State.byteAt_storeMessage_error ?_).trans (State.byteAt_pathStage_outside hlens hbits)
      rw [← Bool.not_eq_true, Region.owns_iff, Region.base]
      omega
    · have he : e.code.code = 0x06 ∨ e.code.code = 0x07 ∨ e.code.code = 0x0C := he
      obtain hc | hc := hcode <;> rw [hc] at he <;> exact absurd he (by decide)
  · have hsuccess : ¬ ((0 : BitVec 8) = 0x06 ∨ (0 : BitVec 8) = 0x07 ∨ (0 : BitVec 8) = 0x0C) := by decide
    refine ⟨?_, fun a hlens hbits ha => ?_, fun _ a ha => ?_, fun he => absurd he hsuccess⟩
    · rw [State.storeMessage_ok_registers, State.pathStage_registers]
    · exact (State.byteAt_storeMessage_outside (.inl ha)).trans (State.byteAt_pathStage_outside hlens hbits)
    · rw [State.msgLen_storeMessage (s := s.pathStage tr) hfit] at ha
      exact (State.byteAt_storeMessage_outside (.inr ha)).trans
        (State.byteAt_pathStage_outside (by omega) (by omega))

end Sys2Proof.Machine
end

section
/-! SUPPORT. SDEC's result (R132, R133): along a path that ends in an interior node its loop walks the arena, a whole code
adds one symbol and returns to the root, so the codes of a text give the text, and what follows them the error. -/

namespace Sys2Proof.Machine

/-! ### Following branches (R122) -/

@[simp] theorem CodeTree.follow_nil (t : CodeTree) : t.follow [] = some t := by cases t <;> rfl

theorem CodeTree.follow_node (z o : CodeTree) (b : Bool) (p : List Bool) :
    (CodeTree.node z o).follow (b :: p) = (if b then o else z).follow p := by cases b <;> rfl

theorem CodeTree.follow_append (t : CodeTree) (p q : List Bool) :
    t.follow (p ++ q) = (t.follow p).bind (fun u => u.follow q) := by
  induction p generalizing t with
  | nil => rw [List.nil_append, CodeTree.follow_nil, Option.bind_some]
  | cons b p ih =>
    cases t with
    | leaf x => rfl
    | node z o => rw [List.cons_append, CodeTree.follow_node, CodeTree.follow_node, ih]

/-- The last branch of a path is one of an interior node. -/
theorem CodeTree.follow_concat {t u : CodeTree} {p : List Bool} {b : Bool} (h : t.follow (p ++ [b]) = some u) :
    ∃ z o, t.follow p = some (.node z o) ∧ (if b then o else z) = u := by
  rw [CodeTree.follow_append, Option.bind_eq_some_iff] at h
  obtain ⟨v, hv, hlast⟩ := h
  cases v with
  | leaf x => cases hlast
  | node z o =>
    rw [CodeTree.follow_node, CodeTree.follow_nil] at hlast
    exact ⟨z, o, hv, Option.some.inj hlast⟩

/-- Every branch leads to a smaller tree. -/
theorem CodeTree.size_follow {t u : CodeTree} {p : List Bool} (h : t.follow p = some u) :
    u.size + p.length ≤ t.size := by
  induction p generalizing t with
  | nil =>
    rw [CodeTree.follow_nil, Option.some.injEq] at h
    exact h ▸ le_rfl
  | cons b p ih =>
    cases t with
    | leaf x => cases h
    | node z o =>
      rw [CodeTree.follow_node] at h
      have hchild := ih h
      rw [CodeTree.size, List.length_cons]
      split at hchild <;> omega

/-! ### The tree under an arena index -/

/-- The NODE words from index `i` on read as the tree `t`. -/
def State.Reads (s : State) (i : Nat) (t : CodeTree) : Prop := ∃ fuel, s.treeAt fuel i = some t

section
variable {s : State} {i : Nat} {t u z o : CodeTree} {x : Symbol}

theorem State.reads_root (h : s.currentTree = some t) : s.Reads s.root.toNat t :=
  ⟨_, (State.currentTree_iff.mp h).1⟩

/-- An index reads as one tree at most. -/
theorem State.Reads.unique (ht : s.Reads i t) (hu : s.Reads i u) : t = u := by
  obtain ⟨m, hm⟩ := ht
  obtain ⟨n, hn⟩ := hu
  exact Option.some.inj ((State.treeAt_mono hm (le_max_left m n)).symm.trans (State.treeAt_mono hn (le_max_right m n)))

theorem State.Reads.of_isLeaf (h : nodeIsLeaf (s.nodeAt i) = true) : s.Reads i (.leaf (nodeSym (s.nodeAt i))) :=
  ⟨1, State.treeAt_leaf h⟩

/-- The word of an interior node, and what its two children read as (R36). -/
theorem State.Reads.node (h : s.Reads i (.node z o)) :
    nodeIsLeaf (s.nodeAt i) = false ∧ ∀ b, s.Reads (s.childOf i b) (if b then o else z) := by
  obtain ⟨fuel, h⟩ := h
  cases fuel with
  | zero => cases h
  | succ fuel =>
    obtain ⟨hinterior, hz, ho⟩ := State.treeAt_node_iff.mp h
    refine ⟨hinterior, fun b => ?_⟩
    cases b with
    | false => exact ⟨fuel, hz⟩
    | true => exact ⟨fuel, ho⟩

/-- The word of a leaf (R36). -/
theorem State.Reads.leaf (h : s.Reads i (.leaf x)) :
    nodeIsLeaf (s.nodeAt i) = true ∧ nodeSym (s.nodeAt i) = x := by
  obtain ⟨fuel, h⟩ := h
  cases fuel with
  | zero => cases h
  | succ fuel =>
    have hleaf : nodeIsLeaf (s.nodeAt i) = true := by
      rw [State.treeAt_succ] at h
      split at h
      · assumption
      · split at h <;> cases h
    exact ⟨hleaf, CodeTree.leaf.inj ((State.Reads.of_isLeaf hleaf).unique ⟨_, h⟩)⟩

/-- A tree of more than one node has an interior root. -/
theorem State.rootIsLeaf_eq_false (htree : s.currentTree = some t) (hsize : 2 ≤ t.size) : s.rootIsLeaf = false := by
  cases t with
  | leaf x => simp [CodeTree.size] at hsize
  | node z o => exact (State.reads_root htree).node.1

end

/-! ### The decode loop (R132) -/

section
variable {s : State} {tr : CodeTree} {cur i start out : Nat}

/-- A branch to an interior node goes on from there. -/
theorem State.decodeBits_node {z o : CodeTree} {b : Bool} {bits : List Bool}
    (h : s.Reads (s.childOf cur b) (.node z o)) :
    s.decodeBits (b :: bits) i cur start out = s.decodeBits bits (i + 1) (s.childOf cur b) start out := by
  rw [State.decodeBits, if_neg (by rw [h.node.1]; exact Bool.false_ne_true)]

/-- A branch to a leaf completes its symbol and returns to the root, unless MAX_TEXT symbols are decoded already. -/
theorem State.decodeBits_leaf {x : Symbol} {b : Bool} {bits : List Bool} (h : s.Reads (s.childOf cur b) (.leaf x)) :
    s.decodeBits (b :: bits) i cur start out =
      if s.capText.toNat ≤ out then .error ⟨.textOverflow, BitVec.ofNat 32 i⟩
      else (s.decodeBits bits (i + 1) s.root.toNat (i + 1) (out + 1)).map (x :: ·) := by
  obtain ⟨hleaf, hsym⟩ := h.leaf
  rw [State.decodeBits, if_pos hleaf, hsym]
  cases s.decodeBits bits (i + 1) s.root.toNat (i + 1) (out + 1) <;> rfl

/-- A path to an interior node leads the loop to an index that reads as that node's tree. -/
theorem State.decodeBits_follow {z o : CodeTree} {p : List Bool} (hcur : s.Reads cur tr)
    (hp : tr.follow p = some (.node z o)) :
    ∃ cur', s.Reads cur' (.node z o) ∧ ∀ bits i,
      s.decodeBits (p ++ bits) i cur start out = s.decodeBits bits (i + p.length) cur' start out := by
  induction p generalizing cur tr with
  | nil =>
    rw [CodeTree.follow_nil, Option.some.injEq] at hp
    subst hp
    exact ⟨cur, hcur, fun _ _ => rfl⟩
  | cons b p ih =>
    cases tr with
    | leaf x => cases hp
    | node z' o' =>
      have hchild := hcur.node.2 b
      rw [CodeTree.follow_node] at hp
      obtain ⟨cur', hcur', hwalk⟩ := ih hchild hp
      generalize (if b then o' else z') = child at hchild hp
      cases child with
      | leaf x => cases p <;> cases hp
      | node _ _ =>
        refine ⟨cur', hcur', fun bits i => ?_⟩
        rw [List.cons_append, State.decodeBits_node hchild, hwalk, List.length_cons, Nat.add_assoc, Nat.add_comm 1]

/-- A whole code from the root completes its symbol (R122, R132). -/
theorem State.decodeBits_code {x : Symbol} (htree : s.currentTree = some tr) (hsize : 2 ≤ tr.size)
    (hx : x ∈ tr.leaves) (bits : List Bool) (i start out : Nat) :
    s.decodeBits (tr.code x ++ bits) i s.root.toNat start out =
      if s.capText.toNat ≤ out then .error ⟨.textOverflow, BitVec.ofNat 32 (i + (tr.code x).length - 1)⟩
      else (s.decodeBits bits (i + (tr.code x).length) s.root.toNat (i + (tr.code x).length) (out + 1)).map (x :: ·) := by
  obtain ⟨-, -, hn⟩ := State.currentTree_iff.mp htree
  have hpath := (bitPathLeadsToTheLeaf tr x _ hn).mp (CodeTree.pathOf_eq_code hx)
  obtain hnil | ⟨p, b, hcode⟩ := (tr.code x).eq_nil_or_concat'
  · exact absurd hnil (CodeTree.code_ne_nil hsize hx)
  · rw [hcode] at hpath ⊢
    obtain ⟨z, o, hp, hlast⟩ := CodeTree.follow_concat hpath
    obtain ⟨cur, hcur, hwalk⟩ := State.decodeBits_follow (start := start) (out := out) (State.reads_root htree) hp
    have hleaf := hlast ▸ hcur.node.2 b
    rw [List.append_assoc, hwalk, List.singleton_append, State.decodeBits_leaf hleaf, List.length_append,
      List.length_singleton, ← Nat.add_assoc, Nat.add_sub_cancel]

/-- The codes of a text that fits give the text, and the loop goes on from the root with the bits after them. -/
theorem State.decodeBits_codes {text : List Symbol} (htree : s.currentTree = some tr) (hsize : 2 ≤ tr.size)
    (hleaves : ∀ x ∈ text, x ∈ tr.leaves) (bits : List Bool) (i out : Nat) (hfit : out + text.length ≤ s.capText.toNat) :
    s.decodeBits (text.flatMap tr.code ++ bits) i s.root.toNat i out =
      (s.decodeBits bits (i + (text.flatMap tr.code).length) s.root.toNat (i + (text.flatMap tr.code).length)
        (out + text.length)).map (text ++ ·) := by
  induction text generalizing i out with
  | nil => exact (congrFun Except.map_id _).symm
  | cons x text ih =>
    obtain ⟨hx, hrest⟩ := List.forall_mem_cons.mp hleaves
    rw [List.length_cons] at hfit
    have hroom : ¬ s.capText.toNat ≤ out := by omega
    rw [List.flatMap_cons, List.append_assoc, State.decodeBits_code htree hsize hx, if_neg hroom,
      ih hrest _ _ (by omega), List.length_append, List.length_cons, Nat.add_assoc i, Nat.add_assoc out, Nat.add_comm 1]
    cases s.decodeBits bits _ s.root.toNat _ _ <;> rfl

/-- A message that ends inside a path ends with the index of the path's first bit (R132). -/
theorem State.decodeBits_partial {z o : CodeTree} {p : List Bool} (htree : s.currentTree = some tr) (hp : p ≠ [])
    (hfollow : tr.follow p = some (.node z o)) :
    s.decodeBits p i s.root.toNat start out = .error ⟨.partialCode, BitVec.ofNat 32 start⟩ := by
  obtain ⟨cur, hcur, hwalk⟩ := State.decodeBits_follow (start := start) (out := out) (State.reads_root htree) hfollow
  have hroot : cur ≠ s.root.toNat := by
    rintro rfl
    have hsmaller := CodeTree.size_follow hfollow
    rw [hcur.unique (State.reads_root htree)] at hsmaller
    have := List.length_pos_iff.mpr hp
    omega
  have h := hwalk [] i
  rwa [List.append_nil, State.decodeBits, if_pos hroot] at h

end

/-! ### What SDEC stores (R132, R133) -/

/-- SDEC with MSG_LEN in range and a valid tree whose root is interior. -/
theorem execSdec_of_valid {s : State} (hlen : s.msgLen.toNat ≤ s.capMsg.toNat) (hv : s.treeValid = true)
    (hroot : s.rootIsLeaf = false) :
    exec .sdec s = .next (s.storeOutput (s.decodeBits s.message 0 s.root.toNat 0 0)) := by
  rw [exec, execSdec, if_neg (Nat.not_lt.mpr hlen), if_pos hv, if_neg (by rw [hroot]; exact Bool.false_ne_true)]

/-- How SDEC ends: a check-phase error; a data error; or it stores at most MAX_TEXT symbols (R132). -/
theorem execSdec_cases {s t : State} (h : exec .sdec s = .next t) :
    (∃ e, t = s.fail e) ∨ (∃ e, t = s.storeOutput (.error e)) ∨
    ∃ text : List Symbol, text.length ≤ s.capText.toNat ∧ t = s.storeOutput (.ok text) := by
  obtain ⟨-, rfl⟩ | ⟨-, -, rfl⟩ | ⟨-, -, -, rfl⟩ | ⟨-, -, -, rfl⟩ := execSdec_next h
  · exact .inl ⟨_, rfl⟩
  · exact .inl ⟨_, rfl⟩
  · exact .inl ⟨_, rfl⟩
  · cases hr : s.decodeBits s.message 0 s.root.toNat 0 0 with
    | error e => exact .inr (.inl ⟨e, rfl⟩)
    | ok text =>
      have hfit := State.decodeBits_length_le hr (Nat.zero_le _)
      exact .inr (.inr ⟨text, by rwa [Nat.zero_add] at hfit, rfl⟩)

/-- What an SDEC data error `e` in state `s` leaves in state `t` (R133, R141). -/
structure State.SdecFailed (s t : State) (e : CmdError) : Prop where
  registers : t = { s with
    eng := .idle, done := true, errCode := e.code.code, errInfo := e.info, outLen := 0, mem := t.mem
    epochs := t.epochs, draws := t.draws }
  textOut : ∀ a, s.regionOf a = some .textOut → t.byteAt a = Config.freeByte s.draws a
  outside : ∀ a, Region.owns s.capText.toNat s.capMsg.toNat .textOut a = false → t.byteAt a = s.byteAt a

theorem State.sdecFailed_storeOutput (s : State) (e : CmdError) : s.SdecFailed (s.storeOutput (.error e)) e where
  registers := rfl
  textOut _ ha := State.byteAt_unspecified ha (List.mem_singleton.mpr rfl)
  outside _ ha := State.byteAt_unspecified_outside fun _ hr => List.mem_singleton.mp hr ▸ ha

section
variable {s : State} {text : List Symbol}

/-- SDEC's last part writes the entries of the text and nothing else in memory. -/
theorem State.byteAt_storeOutput_outside {a : Nat} (ha : a < 0x200000 ∨ 0x200000 + 4 * text.length ≤ a) :
    (s.storeOutput (.ok text)).byteAt a = s.byteAt a :=
  State.byteAt_putRun_outside (by omega) ha

/-- OUT_LEN after a success; a text within MAX_TEXT loses nothing in 32 bits. -/
theorem State.outLen_storeOutput (hfit : text.length ≤ s.capText.toNat) :
    (s.storeOutput (.ok text)).outLen.toNat = text.length :=
  BitVec.toNat_ofNat .. |>.trans (Nat.mod_eq_of_lt (hfit.trans_lt s.capText.isLt))

theorem State.output_storeOutput (hfit : text.length ≤ s.capText.toNat) :
    (s.storeOutput (.ok text)).output = text := by
  rw [State.output, State.outLen_storeOutput hfit]
  exact State.bytes_putRun s 0x200000 4 (by omega) text

end

/-! ### The obligations -/

/-- Settles O51: the codes of the text decode to it (`State.decodeBits_codes`), and it reads back from TEXT_OUT. -/
theorem sdecDecodesTheMessage : Obligations.SdecDecodesTheMessage := by
  intro s tr text hlen hv hroot htree hleaves hfit hmsg
  have hdecode := State.decodeBits_codes htree (State.two_le_size hroot htree) hleaves [] 0 0 (by omega)
  rw [List.append_nil, ← hmsg, State.decodeBits, if_neg (not_not_intro rfl), Except.map, List.append_nil] at hdecode
  have hexec := execSdec_of_valid hlen hv hroot
  rw [hdecode] at hexec
  exact ⟨_, hexec, rfl, rfl, rfl, rfl, rfl, rfl, State.output_storeOutput hfit, State.outLen_storeOutput hfit⟩

/-- Settles O52: after the codes of the text the loop stops inside the path (`State.decodeBits_partial`) or at the last bit
of the code that does not fit (`State.decodeBits_code`), and only TEXT_OUT becomes unspecified. -/
theorem sdecDataErrors : Obligations.SdecDataErrors := by
  intro s tr text hlen hv _ hroot htree hleaves hfit
  have hsize := State.two_le_size hroot htree
  have hexec := execSdec_of_valid hlen hv hroot
  have hcodes := fun bits => State.decodeBits_codes htree hsize hleaves bits 0 0 (by omega)
  simp only [Nat.zero_add] at hcodes
  refine ⟨fun p z o hp hfollow hmsg => ?_, fun x bs hx hfull hmsg => ?_⟩
  · rw [hmsg, hcodes, State.decodeBits_partial htree hp hfollow] at hexec
    obtain ⟨hreg, htext, hout⟩ := s.sdecFailed_storeOutput _
    exact ⟨_, hexec, hreg, htext, hout⟩
  · rw [List.flatMap_append, List.flatMap_singleton, List.append_assoc] at hmsg
    rw [hmsg, hcodes, State.decodeBits_code htree hsize hx, if_pos hfull.ge] at hexec
    rw [List.flatMap_append, List.flatMap_singleton, List.length_append]
    obtain ⟨hreg, htext, hout⟩ := s.sdecFailed_storeOutput _
    exact ⟨_, hexec, hreg, htext, hout⟩

/-- Settles O53: a check-phase error writes no memory, a data error nothing that TEXT_OUT does not own, and a success the
entries of the text. -/
theorem sdecFrame : Obligations.SdecFrame := by
  intro s t h
  obtain ⟨e, rfl⟩ | ⟨e, rfl⟩ | ⟨text, hfit, rfl⟩ := execSdec_cases h
  · exact ⟨rfl, fun _ _ => rfl, fun _ _ _ => rfl⟩
  · refine ⟨rfl, fun a ha => (s.sdecFailed_storeOutput e).outside a ?_, fun he => absurd he e.code.code_bounds.1⟩
    rw [← Bool.not_eq_true, Region.owns_iff]
    simp only [Region.base, Region.span]
    omega
  · refine ⟨rfl, fun a ha => State.byteAt_storeOutput_outside (by omega), fun _ a ha => ?_⟩
    rw [State.outLen_storeOutput hfit] at ha
    exact State.byteAt_storeOutput_outside ha

end Sys2Proof.Machine
end

section
/-! SUPPORT. The whole codec (R134): COUNT, BUILD, TENC and TDEC leave the text and the message alone, BUILD's tree has a leaf
for every symbol of the text, so SENC can only run out of room, and TDEC gives SDEC the tree SENC encoded with. -/

namespace Sys2Proof.Machine

/-! ### The text and the message between the commands -/

/-- `t` has the text buffers and the message buffer of `s`, their lengths in force and the capacities. -/
structure State.SameBuffers (s t : State) : Prop where
  textLen : t.textLen = s.textLen
  msgLen : t.msgLen = s.msgLen
  capText : t.capText = s.capText
  capMsg : t.capMsg = s.capMsg
  bytes : ∀ a, 0x100000 ≤ a → t.byteAt a = s.byteAt a

section
variable {s t u : State}

theorem State.SameBuffers.trans (h : s.SameBuffers t) (h' : t.SameBuffers u) : s.SameBuffers u where
  textLen := h'.textLen.trans h.textLen
  msgLen := h'.msgLen.trans h.msgLen
  capText := h'.capText.trans h.capText
  capMsg := h'.capMsg.trans h.capMsg
  bytes a ha := (h'.bytes a ha).trans (h.bytes a ha)

theorem State.SameBuffers.text (h : s.SameBuffers t) : t.text = s.text := by
  rw [State.text, State.text, h.textLen]
  exact List.map_congr_left fun i _ => h.bytes _ (by omega)

theorem State.SameBuffers.message (h : s.SameBuffers t) : t.message = s.message := by
  rw [State.message, State.message, h.msgLen]
  exact List.map_congr_left fun i _ => State.bitAt_congr (h.bytes _ (by omega))

theorem State.SameBuffers.count (h : exec .count s = .next t) : s.SameBuffers t := by
  obtain ⟨hreg, hbytes⟩ := countFrame s t h
  rw [hreg] at hbytes ⊢
  exact ⟨rfl, rfl, rfl, rfl, fun a ha => hbytes a (by omega)⟩

theorem State.SameBuffers.build (h : exec .build s = .next t) : s.SameBuffers t := by
  obtain ⟨hreg, hbytes⟩ := buildFrame s t _ rfl h
  have hk := s.length_presentSymbols ▸ s.presentSymbols_length_le
  rw [hreg] at hbytes ⊢
  exact ⟨rfl, rfl, rfl, rfl, fun a ha => hbytes a (by omega)⟩

theorem State.SameBuffers.tenc {tr : CodeTree} (htree : s.currentTree = some tr) (h : exec .tenc s = .next t) :
    s.SameBuffers t := by
  obtain ⟨hreg, hbytes, -⟩ := tencFrame s t h
  obtain ⟨-, hsize, -⟩ := State.currentTree_iff.mp htree
  have hbitsLen := tr.bits_length
  have hleavesLen := tr.size_eq
  rw [Config.maxNodes] at hsize
  rw [hreg] at hbytes ⊢
  exact ⟨rfl, rfl, rfl, rfl, fun a ha => hbytes tr a htree (by omega) (by omega)⟩

theorem State.SameBuffers.tdec (h : exec .tdec s = .next t) : s.SameBuffers t := by
  obtain ⟨hreg, hbytes, -⟩ := tdecFrame s t h
  rw [hreg] at hbytes ⊢
  exact ⟨rfl, rfl, rfl, rfl, fun a ha => hbytes a (by omega)⟩

end

/-! ### COUNT and BUILD -/

/-- Where FREQ holds the counts of a text, BUILD's present symbols are the text's. -/
theorem State.mem_presentSymbols_of_count {s : State} {text : List Symbol}
    (hcount : ∀ x : Symbol, (s.freqAt x.toNat).toNat = text.count x) (x : Symbol) :
    x ∈ s.presentSymbols.map (BitVec.ofNat 8) ↔ x ∈ text := by
  rw [State.mem_presentSymbols_map, ne_eq, BitVec.toNat_eq, hcount, ← List.count_pos_iff]
  exact Nat.pos_iff_ne_zero.symm

/-- Where FREQ holds the counts of a text with two distinct symbols, BUILD succeeds with a tree of the text's symbols, its
root interior (R101, R102). -/
theorem execBuild_of_count {s : State} {text : List Symbol}
    (hcount : ∀ x : Symbol, (s.freqAt x.toNat).toNat = text.count x) (h2 : 2 ≤ text.dedup.length) :
    ∃ t tr, exec .build s = .next t ∧ t.errCode = 0 ∧ t.treeValid = true ∧ t.rootIsLeaf = false ∧
      t.currentTree = some tr ∧ ∀ x ∈ text, x ∈ tr.leaves := by
  have hpresent := State.mem_presentSymbols_of_count hcount
  have hlen : 2 ≤ s.presentSymbols.length := by
    have hsub : text.dedup ⊆ s.presentSymbols.map (BitVec.ofNat 8) := fun x hx =>
      (hpresent x).mpr (List.mem_dedup.mp hx)
    have hle := (List.subperm_of_subset text.nodup_dedup hsub).length_le
    rw [List.length_map] at hle
    omega
  have hb := s.built_buildTree hlen s.presentSymbols_length_le
  obtain ⟨tr, htree, hsyms, -⟩ := hb.currentTree hlen
  have hsize := tr.size_eq
  rw [hsyms.length_eq, List.length_map] at hsize
  exact ⟨_, tr, rfl, hb.errCode, hb.treeValid, State.rootIsLeaf_eq_false htree (by omega), htree,
    fun x hx => hsyms.mem_iff.mpr ((hpresent x).mpr hx)⟩

/-! ### SENC -/

/-- Where every symbol has a code, the loop's only error is that the codes do not fit (R143). -/
theorem encodeText_msgOverflow {t : CodeTree} {cap : Nat} {text : List Symbol} {i pos : Nat} {e : CmdError}
    (hcode : ∀ x ∈ text, t.code x ≠ []) (h : encodeText t cap text i pos = .error e) : e.code = .msgOverflow := by
  induction text generalizing i pos with
  | nil => cases h
  | cons x text ih =>
    obtain ⟨hx, hrest⟩ := List.forall_mem_cons.mp hcode
    rw [encodeText, if_neg hx] at h
    split at h
    · cases h
      rfl
    · split at h
      · rename_i htext
        cases h
        exact ih hrest htext
      · cases h

/-- SENC of a text of leaf symbols whose codes do not fit reports MSG_OVERFLOW (R125). -/
theorem execSenc_of_overflow {s : State} {tr : CodeTree} (hlen : s.textLen.toNat ≤ s.capText.toNat)
    (hv : s.treeValid = true) (hroot : s.rootIsLeaf = false) (htree : s.currentTree = some tr)
    (hleaves : ∀ x ∈ s.text, x ∈ tr.leaves) (hover : s.capMsg.toNat < (s.text.flatMap tr.code).length) :
    ∃ t, exec .senc s = .next t ∧ t.errCode = 0x0A := by
  have hcode : ∀ x ∈ s.text, tr.code x ≠ [] := fun x hx =>
    CodeTree.code_ne_nil (State.two_le_size hroot htree) (hleaves x hx)
  refine ⟨_, execSenc_of_currentTree hlen hv hroot htree, ?_⟩
  cases hr : encodeText tr s.capMsg.toNat s.text 0 0 with
  | ok bits =>
    have hfit := encodeText_length_le hr (Nat.zero_le _)
    obtain ⟨rfl, -⟩ := encodeText_ok hr
    omega
  | error e => exact congrArg ErrCode.code (encodeText_msgOverflow hcode hr)

/-- The codes of a text take at most 255 bits a symbol (R124). -/
theorem CodeTree.length_codes_le {tr : CodeTree} (hsize : tr.size ≤ Config.maxNodes) (text : List Symbol) :
    (text.flatMap tr.code).length ≤ 255 * text.length := by
  induction text with
  | nil => exact Nat.zero_le _
  | cons x text ih =>
    have hx := CodeTree.code_length_le_255 hsize x
    rw [List.flatMap_cons, List.length_append, List.length_cons]
    omega

/-! ### TENC, TDEC and SDEC -/

/-- Where the message is a text's codes in the current tree, TENC, TDEC and SDEC give the text (R134). -/
theorem exec_flatten_rebuild_decode {s : State} {tr : CodeTree} {text : List Symbol} (hv : s.treeValid = true)
    (htree : s.currentTree = some tr) (hinterior : 2 ≤ tr.size) (hleaves : ∀ x ∈ text, x ∈ tr.leaves)
    (hfit : text.length ≤ s.capText.toNat) (hlen : s.msgLen.toNat ≤ s.capMsg.toNat)
    (hmsg : s.message = text.flatMap tr.code) :
    ∃ s1 s2 s3, exec .tenc s = .next s1 ∧ s1.errCode = 0 ∧ exec .tdec s1 = .next s2 ∧ s2.errCode = 0 ∧
      exec .sdec s2 = .next s3 ∧ s3.errCode = 0 ∧ s3.output = text ∧ s3.outLen.toNat = text.length := by
  obtain ⟨-, hsize, hn⟩ := State.currentTree_iff.mp htree
  have hleavesLen : tr.leaves.length ≤ 256 := by
    have := tr.size_eq
    rw [Config.maxNodes] at hsize
    omega
  obtain ⟨s1, h1, -, -, hbits, hsyms, -, he1, -⟩ := tencFlattensTheTree s tr hv htree
  obtain ⟨s2, h2, he2, -, -, -, hv2, -, -, -, htree2, -⟩ := tdecRebuildsAFlattenedTree s1 tr hn hleavesLen hbits hsyms
  have hsame := (State.SameBuffers.tenc htree h1).trans (.tdec h2)
  obtain ⟨s3, h3, he3, -, -, -, -, -, hout, houtLen⟩ := sdecDecodesTheMessage s2 tr text
    (by rwa [hsame.msgLen, hsame.capMsg]) hv2 (State.rootIsLeaf_eq_false htree2 hinterior) htree2 hleaves
    (by rwa [hsame.capText]) (hsame.message.trans hmsg)
  exact ⟨s1, s2, s3, h1, he1, h2, he2, h3, he3, hout, houtLen⟩

/-! ### The obligation -/

/-- Settles O54: COUNT's table makes BUILD succeed with a tree of the text's symbols (`execBuild_of_count`). Where their
codes fit SENC stores them, and the other three give the text back (`exec_flatten_rebuild_decode`); where they do not, it
reports MSG_OVERFLOW (`execSenc_of_overflow`), which 255 bits a symbol exclude. -/
theorem compressThenDecompressGivesTheText : Obligations.CompressThenDecompressGivesTheText := by
  intro s hcaps hle h2
  obtain ⟨s1, h1, hcount, -, -, -, -, -, herr⟩ := countCountsTheText s hcaps hle
  rw [if_neg (Nat.not_lt.mpr h2)] at herr
  obtain ⟨s2, tr, hbuild, he2, hv, hroot, htree, hleaves⟩ := execBuild_of_count hcount h2
  have hsame := (State.SameBuffers.count h1).trans (.build hbuild)
  rw [← hsame.textLen, ← hsame.capText] at hle
  rw [← hsame.text] at hleaves
  have hbound := CodeTree.length_codes_le (State.currentTree_iff.mp htree).2.1 s2.text
  rw [s2.text_length, hsame.textLen] at hbound
  by_cases hfit : (s2.text.flatMap tr.code).length ≤ s2.capMsg.toNat
  · obtain ⟨s3, h3, he3, -, -, -, -, hv3, htree3, hmsg, hmsgLen, -⟩ :=
      sencEncodesTheText s2 tr hle hv hroot htree hleaves hfit
    have hframe := (sencFrame s2 s3 h3).1
    refine ⟨s1, s2, s3, h1, herr.1, hbuild, he2, h3, .inl he3, fun _ => he3, fun _ => ?_⟩
    obtain ⟨s4, s5, s6, h4, he4, h5, he5, h6, he6, hout, houtLen⟩ := exec_flatten_rebuild_decode hv3 htree3
      (State.two_le_size hroot htree) hleaves (by rwa [hframe, s2.text_length])
      (by rwa [hmsgLen, hframe]) hmsg
    rw [hsame.text] at hout
    rw [s2.text_length, hsame.textLen] at houtLen
    exact ⟨s4, s5, s6, h4, he4, h5, he5, h6, he6, hout, BitVec.eq_of_toNat_eq houtLen⟩
  · obtain ⟨s3, h3, he3⟩ := execSenc_of_overflow hle hv hroot htree hleaves (Nat.lt_of_not_le hfit)
    rw [hsame.capMsg] at hfit
    exact ⟨s1, s2, s3, h1, herr.1, hbuild, he2, h3, .inr he3, fun h255 => absurd (hbound.trans h255) hfit,
      fun h0 => absurd (he3.symm.trans h0) (by decide)⟩

end Sys2Proof.Machine
end

section
/-! SUPPORT. The life of a command between its two ends: the write that accepts it (R138), the engine's step that runs it
(R139, R140), and the interrupt output (R148); and the obligations about them. -/

namespace Sys2Proof.Machine

/-! ### The engine's step -/

/-- A step of the engine (R17, R139). -/
theorem step_of_engine {s : State} (h : s.nextTurn = .engine) : step s = engineStep s.popTurn := by rw [step, h]

/-- An accepted command completes as its own meaning says (R140). -/
theorem engineStep_command {s : State} {w : Word} {i : Instr} (h : s.eng = .busy w) (hd : decode w = .command i) :
    engineStep s = exec i s := by
  simp only [engineStep, h, hd]

theorem State.nextTurn_withFetchWord (s : State) (nbits w : Nat) : (s.withFetchWord nbits w).nextTurn = .engine := by
  simp only [State.nextTurn, State.withFetchWord]
  cases s.turns <;> rfl

/-- The turn that `withFetchWord` gives the engine, once taken, leaves the state of the acceptance (log entry 2). -/
theorem State.popTurn_withFetchWord (s : State) (nbits w : Nat) :
    (s.withFetchWord nbits w).popTurn = s.accept (tableWord nbits w) := by
  have hturns : (engineNext s.turns).tail = s.turns := by cases s.turns <;> rfl
  simp only [State.withFetchWord, State.popTurn, hturns]
  rfl

theorem decode_of_decodeTableWord {nbits w : Nat} {i : Instr} (h : decodeTableWord nbits w = some i) :
    decode (tableWord nbits w) = .command i := by
  rw [decodeTableWord] at h
  cases hd : decode (tableWord nbits w) with
  | command j =>
    simp only [hd, Option.some.injEq] at h
    rw [h]
  | illegal why => simp only [hd, reduceCtorEq] at h

/-! ### The interrupt output -/

theorem State.irq_of_not_done {s : State} (h : s.done = false) : s.irq = false := by rw [State.irq, h, Bool.false_and]

/-! ### The obligations -/

/-- Settles O4: the engine's step (`step_of_engine`) runs the accepted command (`engineStep_command`), and a fetched word is
an accepted one with the engine to move. -/
theorem stepRunsTheAcceptedCommand : Obligations.StepRunsTheAcceptedCommand := by
  refine ⟨fun s w i hbusy hd hturn => ?_, fun s hturn => step_of_engine hturn, fun s nbits w i h => ?_⟩
  · rw [step_of_engine hturn]
    exact engineStep_command (s := s.popTurn) hbusy hd
  · rw [step_of_engine (s.nextTurn_withFetchWord nbits w), s.popTurn_withFetchWord nbits w]
    exact engineStep_command rfl (decode_of_decodeTableWord h)

/-- Settles O7: idle, the write is the acceptance (`State.memWrite_cmd`); busy, it is dropped like any other
(`State.memWrite_busy`). -/
theorem commandWriteIsAcceptedWhenIdle : Obligations.CommandWriteIsAcceptedWhenIdle := by
  refine fun s w => ⟨fun hidle => ?_, fun hbusy => ?_⟩
  · rw [State.memWrite_cmd w hidle]
    exact ⟨rfl, rfl⟩
  · exact State.memWrite_busy w (State.busy_of_not_idle hbusy) (by decide) (by decide)

/-- Settles O14: CTRL's write stores IE or resets the block (`ctrlReadsAndWrites`), and STATUS's write, an acceptance and
each reset leave DONE = 0, so `irq` = 0; what completion leaves in DONE and IE is `exec_next_shared`. -/
theorem interruptOutput : Obligations.InterruptOutput := by
  intro s v
  obtain ⟨-, hstore, hreset⟩ := ctrlReadsAndWrites s v
  refine ⟨rfl, fun h1 h0 => ?_, fun h1 h0 => ?_, fun h1 => ⟨?_, ?_⟩, fun hidle => ?_, State.irq_of_not_done rfl,
    fun i t h => ?_⟩
  · rw [hstore h1, h0]
    exact ⟨Bool.and_false _, rfl⟩
  · rw [hstore h1, h0]
    exact Bool.and_true _
  · rw [(statusReadsAndClears s v).2]
    exact State.irq_of_not_done (by simp [h1])
  · rw [hreset h1]
    exact State.irq_of_not_done rfl
  · rw [State.memWrite_cmd v hidle]
    exact State.irq_of_not_done rfl
  · obtain ⟨-, hdone, hie, -⟩ := exec_next_shared h
    exact ⟨hdone, hie⟩

end Sys2Proof.Machine
end

section
/-! SUPPORT. The check-phase errors in their order (R142 to R144): a length past its bound before the tree's validity, that
before the form of its root. Each completes with an error and does nothing else. -/

namespace Sys2Proof.Machine

/-- Settles O22: the lengths are the first test of COUNT, SENC, TDEC and SDEC. -/
theorem badLengthIsReportedFirst : Obligations.BadLengthIsReportedFirst := by
  refine fun s => ⟨fun h => ⟨?_, ?_⟩, fun hbits => ?_, fun hbits hleaves => ?_, fun h => ?_⟩
  · rw [exec, execCount, if_pos h]
    rfl
  · rw [exec, execSenc, if_pos h]
    rfl
  · rw [exec, execTdec, Config.treeBitsMax, if_pos hbits]
    rfl
  · rw [exec, execTdec, Config.treeBitsMax, Config.treeLeavesMax, if_neg (Nat.not_lt.mpr hbits), if_pos hleaves]
    rfl
  · rw [exec, execSdec, if_pos h]
    rfl

/-- Settles O23: TREE_VALID is the next test, and the first of TENC and PATHS. -/
theorem noTreeIsReported : Obligations.NoTreeIsReported := by
  intro s hinvalid
  have hv : ¬ s.treeValid = true := ne_true_of_eq_false hinvalid
  refine ⟨?_, ?_, fun hlen => ?_, fun hlen => ?_⟩
  · rw [exec, execTenc, if_neg hv]
    rfl
  · rw [exec, execPaths, if_neg hv]
    rfl
  · rw [exec, execSenc, if_neg (Nat.not_lt.mpr hlen), if_neg hv]
    rfl
  · rw [exec, execSdec, if_neg (Nat.not_lt.mpr hlen), if_neg hv]
    rfl

/-- Settles O24: with a valid tree the last test is bit 31 of its root's word. -/
theorem degenerateTreeIsReported : Obligations.DegenerateTreeIsReported := by
  intro s hv hleaf
  have hroot : s.rootIsLeaf = true := hleaf
  refine ⟨?_, fun hlen => ?_, fun hlen => ?_⟩
  · rw [exec, execPaths, if_pos hv, if_pos hroot]
    rfl
  · rw [exec, execSenc, if_neg (Nat.not_lt.mpr hlen), if_pos hv, if_pos hroot]
    rfl
  · rw [exec, execSdec, if_neg (Nat.not_lt.mpr hlen), if_pos hv, if_pos hroot]
    rfl

end Sys2Proof.Machine
end

section
/-! SUPPORT. What a step can answer in a state that meets R37: a next state, or the refusal of the host's own misaligned
access. A command could fault only where it traverses the arena, and R37 gives it a current tree there. -/

namespace Sys2Proof.Machine

/-! ### The engine -/

theorem execTenc_safe {s : State} (h : s.ArenaOk) : Safe (execTenc s) := by
  rw [execTenc]
  split
  · rename_i hv
    obtain ⟨tr, htree, -⟩ := h.currentTree hv
    exact ⟨_, by rw [htree]⟩
  · exact ⟨_, rfl⟩

theorem execPaths_safe {s : State} (h : s.ArenaOk) : Safe (execPaths s) := by
  rw [execPaths]
  split
  · rename_i hv
    obtain ⟨tr, htree, -⟩ := h.currentTree hv
    split
    · exact ⟨_, rfl⟩
    · exact ⟨_, by rw [htree]⟩
  · exact ⟨_, rfl⟩

theorem execSenc_safe {s : State} (h : s.ArenaOk) : Safe (execSenc s) := by
  rw [execSenc]
  split
  · exact ⟨_, rfl⟩
  · split
    · rename_i hv
      obtain ⟨tr, htree, -⟩ := h.currentTree hv
      split
      · exact ⟨_, rfl⟩
      · exact ⟨_, by rw [htree]⟩
    · exact ⟨_, rfl⟩

/-- Every command completes: COUNT, BUILD, TDEC and SDEC in any state, the other three where R37 holds (R139). -/
theorem exec_safe {s : State} (h : s.ArenaOk) (i : Instr) : Safe (exec i s) := by
  cases i with
  | count => exact ⟨_, rfl⟩
  | build => exact ⟨_, rfl⟩
  | tenc => exact execTenc_safe h
  | tdec => exact ⟨_, rfl⟩
  | paths => exact execPaths_safe h
  | senc => exact execSenc_safe h
  | sdec => exact ⟨_, rfl⟩

theorem engineStep_safe {s : State} (h : s.ArenaOk) : Safe (engineStep s) := by
  cases he : s.eng with
  | idle => exact ⟨s, by rw [engineStep, he]⟩
  | busy w =>
    cases hd : decode w with
    | command i =>
      rw [engineStep_command he hd]
      exact exec_safe h i
    | illegal why => exact ⟨_, engineStep_illegal he hd⟩

/-! ### The host -/

/-- The host's next operation carries a misaligned offset (R69). -/
def State.HostMisaligned (s : State) : Prop := ∃ op ∈ s.program.head?, op.wellFormed = false

theorem State.HostAligned.not_misaligned {s : State} (h : s.HostAligned) : ¬ s.HostMisaligned := by
  rintro ⟨op, hop, hbad⟩
  exact absurd (h op hop) (ne_true_of_eq_false hbad)

/-- The host's step answers a next state, or refuses its own misaligned access (R69, R172). -/
theorem hostStep_outcome (s : State) :
    Safe (hostStep s) ∨ (hostStep s = .refused .misalignedAccess ∧ s.HostMisaligned) := by
  cases hp : s.program with
  | nil => exact .inl ⟨s, by rw [hostStep, hp]⟩
  | cons op rest =>
    have hhead : op ∈ s.program.head? := by rw [hp]; exact rfl
    cases op with
    | wr off v =>
      rw [hostStep_wr hp]
      split
      · exact .inl ⟨_, rfl⟩
      · rename_i ha
        exact .inr ⟨rfl, _, hhead, eq_false_of_ne_true ha⟩
    | rd off =>
      rw [hostStep_rd hp]
      split
      · exact .inl ⟨_, rfl⟩
      · rename_i ha
        exact .inr ⟨rfl, _, hhead, eq_false_of_ne_true ha⟩
    | waitIdle => exact .inl ⟨_, hostStep_waitIdle hp⟩
    | checkErr => exact .inl ⟨_, hostStep_checkErr hp⟩
    | getText => exact .inl ⟨_, hostStep_getText hp⟩

/-! ### The three agents -/

/-- The schedule is no part of the arena. -/
theorem State.ArenaOk.popTurn {s : State} (h : s.ArenaOk) : s.popTurn.ArenaOk :=
  (State.SameTables.of_registers (s := s) (t := s.popTurn)).toSameArena.arenaOk h

/-- A step answers a next state, or the host moves and its own misaligned access is refused (R69, R139). -/
theorem step_outcome {s : State} (h : s.ArenaOk) :
    Safe (step s) ∨ (step s = .refused .misalignedAccess ∧ s.nextTurn = .host ∧ s.HostMisaligned) := by
  cases hturn : s.nextTurn with
  | host =>
    rw [step_of_host hturn]
    obtain hsafe | ⟨hrefused, hbad⟩ := hostStep_outcome s.popTurn
    · exact .inl hsafe
    · exact .inr ⟨hrefused, rfl, hbad⟩
  | engine =>
    rw [step_of_engine hturn]
    exact .inl (engineStep_safe h.popTurn)
  | resetPin => exact .inl ⟨_, by rw [step, hturn]⟩

/-- Settles O60: by the two outcomes of a step (`step_outcome`). -/
theorem noStepIsStuck : Obligations.NoStepIsStuck := by
  intro s harena
  obtain ⟨t, hnext⟩ | ⟨hrefused, hturn, hbad⟩ := step_outcome harena
  · rw [hnext]
    exact ⟨fun f hf => (nomatch hf), fun r hr => (nomatch hr), fun _ => ⟨t, rfl⟩⟩
  · refine ⟨fun f hf => ?_, fun r hr => ?_, fun hfree => ?_⟩
    · rw [hrefused] at hf
      cases hf
    · rw [hrefused] at hr
      cases hr
      exact ⟨rfl, hturn, hbad⟩
    · obtain hother | haligned := hfree
      · exact absurd hturn hother
      · exact absurd hbad haligned.not_misaligned

end Sys2Proof.Machine
end

section
/-! SUPPORT. The two resets: both give every register its reset value and draw new bytes for the regions they drop, the
soft reset for those of the abandoned command (R161) and the reset pin for every local memory (R160); and the obligations
about them. -/

namespace Sys2Proof.Machine

/-! ### What a reset leaves -/

/-- The registers are those of `State.reset`; the constants, the memories and the host are as before (R45). -/
theorem State.resetRegisters_eq_reset (s : State) :
    s.resetRegisters = { State.reset with
      capText := s.capText, capMsg := s.capMsg, mem := s.mem, epochs := s.epochs, draws := s.draws
      program := s.program, reads := s.reads, turns := s.turns } := rfl

/-- A step with `rst_n` low (R160). -/
theorem step_of_resetPin {s : State} (h : s.nextTurn = .resetPin) : step s = .next s.popTurn.hardReset := by
  rw [step, h]

/-- A hardware reset makes each byte of local memory a free value of the draw it takes (R160). -/
theorem State.byteAt_hardReset {s : State} {a : Nat} {r : Region} (h : s.regionOf a = some r) :
    s.hardReset.byteAt a = Config.freeByte s.draws a := by
  rw [State.hardReset, State.byteAt_resetRegisters]
  exact State.byteAt_unspecified h r.mem_all

/-! ### The regions a soft reset drops -/

/-- A running word that encodes no command writes no region (R83, R161). -/
theorem State.runningRegions_of_illegal {s : State} {w : Word} (h : s.eng = .busy w) (hw : ∀ i, w ≠ encode i) :
    s.runningRegions = [] := by
  cases hd : decode w with
  | command i => exact absurd (decode_eq_command_iff.mp hd) (hw i)
  | illegal why => simp only [State.runningRegions, h, hd]

/-- A soft reset makes each byte of the abandoned command's regions a free value of the draw it takes (R161). -/
theorem State.byteAt_softReset_running {s : State} {a : Nat} {r : Region} (h : s.regionOf a = some r)
    (hr : r ∈ s.runningRegions) : s.softReset.byteAt a = Config.freeByte s.draws a := by
  rw [State.softReset, State.byteAt_resetRegisters]
  exact State.byteAt_unspecified h hr

/-- A soft reset keeps each byte that no region of the abandoned command owns (R161). -/
theorem State.byteAt_softReset_outside {s : State} {a : Nat}
    (h : ∀ r ∈ s.runningRegions, r.owns s.capText.toNat s.capMsg.toNat a = false) :
    s.softReset.byteAt a = s.byteAt a := by
  rw [State.softReset, State.byteAt_resetRegisters]
  exact State.byteAt_unspecified_outside h

/-! ### The obligations -/

/-- Settles O11: CTRL's write with SRST = 1 is the soft reset (`ctrlReadsAndWrites`), whose bytes are those of
`State.byteAt_softReset_running` and `State.byteAt_softReset_outside`; the regions it drops go by what the engine runs. -/
theorem softResetAbandonsTheCommand : Obligations.SoftResetAbandonsTheCommand := by
  intro s v hv
  obtain ⟨-, -, hreset⟩ := ctrlReadsAndWrites s v
  exact ⟨s.softReset, hreset hv, (s.unspecified s.runningRegions).resetRegisters_eq_reset,
    fun _ _ ha hr => State.byteAt_softReset_running ha hr, fun _ hout => State.byteAt_softReset_outside hout,
    Nat.lt_succ_self s.draws, State.runningRegions_of_idle, fun _ hbusy hw => State.runningRegions_of_illegal hbusy hw,
    fun _ hbusy => State.runningRegions_of_command hbusy⟩

/-- Settles O12: the turn is a hardware reset (`step_of_resetPin`), which makes every byte of local memory a free value
(`State.byteAt_hardReset`) and leaves DONE = 0, so `irq` = 0. -/
theorem hardwareResetClearsTheBlock : Obligations.HardwareResetClearsTheBlock := by
  intro s hturn
  exact ⟨s.popTurn.hardReset, step_of_resetPin hturn, (s.popTurn.unspecified Region.all).resetRegisters_eq_reset,
    fun _ _ ha => State.byteAt_hardReset (s := s.popTurn) ha, Nat.lt_succ_self s.draws, State.irq_of_not_done rfl⟩

end Sys2Proof.Machine
end
